-- ==== Sys2Proof/Word.lean ====
section
/-! DEFINITION. The word types of LZD (spec/00_scope.md R9: every register has the width the state file gives it). -/

namespace Sys2Proof

/-- A 32-bit register or word (`RANGE`, `CODE`, `REP0` to `REP3`, the register file; R24, R32, R43). -/
abbrev Word := BitVec 32

/-- A byte of `IN`, `WIN`, `SINK` or `PAYLOAD` (R61, R68). -/
abbrev Byte := BitVec 8

/-- One probability cell of `PMEM`: 11 bits (R29, R65). -/
abbrev Prob := BitVec 11

end Sys2Proof
end

