-- ==== Sys2Proof/Config.lean ====
section
/-! DEFINITION. The parameters of spec/00_scope.md R7, the flat map of `PMEM` (spec/20_memory.md R66), and the
free values: what the spec leaves unspecified (R48, R78, R263) is an opaque constant here, so that nothing can be
proved about its value. -/

namespace Sys2Proof.Config

/-! ## Parameters (R7) -/

/-- `LC`: high bits of the previous byte in the literal context. -/
abbrev lc : Nat := 3
/-- `LP`: low position bits in the literal context. -/
abbrev lp : Nat := 0
/-- `PB`: low position bits that form `posState`. -/
abbrev pb : Nat := 2
/-- `DICT_SIZE`. -/
abbrev dictSize : Nat := 131072
/-- `DICT_SIZE_CHECK` = `max(DICT_SIZE, 1)`. -/
abbrev dictSizeCheck : Nat := 131072
/-- `WINDOW_CAP` = `max(DICT_SIZE, 4096)`. -/
abbrev windowCap : Nat := 131072
/-- `NUM_POS_STATES` = `1 << PB`; `PB_MASK` is one less. -/
abbrev numPosStates : Nat := 4
/-- `PROB_INIT`: every probability cell after init. -/
abbrev probInit : Prob := 1024#11
/-- `PROB_ONE` = `1 << PROB_BITS`, the scale of a probability. -/
abbrev probOne : Nat := 2048
/-- `PROB_BITS`. -/
abbrev probBits : Nat := 11
/-- `MOVE_BITS`: the adaptation shift. -/
abbrev moveBits : Nat := 5
/-- `TOP_MASK`: `RANGE & TOP_MASK = 0` says `RANGE < 2^24`. -/
abbrev topMask : Word := 0xFF000000#32
/-- `LIT_STATE_LIMIT`: `STATE < 7` is a char state. -/
abbrev litStateLimit : Nat := 7
/-- `MATCH_MIN_LEN`: added to every decoded length. -/
abbrev matchMinLen : Nat := 2
/-- `NUM_LEN_TO_POS_STATES`. -/
abbrev numLenToPosStates : Nat := 4
/-- `START_POS_MODEL_INDEX`: slots below it are the distance itself. -/
abbrev startPosModelIndex : Nat := 4
/-- `END_POS_MODEL_INDEX`: slots from it up have direct and alignment bits. -/
abbrev endPosModelIndex : Nat := 14
/-- `ALIGN_BITS`. -/
abbrev alignBits : Nat := 4
/-- `POS_STATES_BITS_MAX`: the shift of `STATE` in a table index. -/
abbrev posStatesBitsMax : Nat := 4
/-- `LIT_CODER_SIZE`: cells of one literal context. -/
abbrev litCoderSize : Nat := 768
/-- `END_MARKER`: the distance value that ends the stream. -/
abbrev endMarkerDistance : Word := 0xFFFFFFFF#32

/-! ## The flat map of `PMEM` (R66): the base of each table -/

abbrev isMatchBase : Nat := 0
abbrev isRepBase : Nat := 192
abbrev isRepG0Base : Nat := 204
abbrev isRepG1Base : Nat := 216
abbrev isRepG2Base : Nat := 228
abbrev isRep0LongBase : Nat := 240
abbrev posSlotBase : Nat := 432
abbrev posSpecBase : Nat := 688
abbrev posAlignBase : Nat := 802
abbrev lenChoiceBase : Nat := 818
abbrev lenLowBase : Nat := 820
abbrev lenMidBase : Nat := 852
abbrev lenHighBase : Nat := 884
abbrev repLenChoiceBase : Nat := 1140
abbrev repLenLowBase : Nat := 1142
abbrev repLenMidBase : Nat := 1174
abbrev repLenHighBase : Nat := 1206
abbrev literalBase : Nat := 1462
/-- The number of cells of `PMEM` (R29). -/
abbrev pmemSize : Nat := 7606

/-! ## Free values. The first argument is always the number of the draw (`State.draws` at the time), so that two
draws need not agree. Nothing constrains them beyond the limits the spec sets (log 4). -/

/-- A 32-bit register the spec leaves unspecified: draw, then its number in the register file of R43 (R48, R263). -/
opaque freeWord : Nat → Nat → Word
/-- A 64-bit counter the spec leaves unspecified: draw, then its number in the register file (`TOTAL`: 23, a
number of the model's own). -/
opaque freeCounter : Nat → Nat → BitVec 64
/-- `STATE` left unspecified: values 12 to 15 are never written (R31). -/
opaque freeLzState : Nat → Fin 12
/-- `PREV` left unspecified. -/
opaque freePrev : Nat → Byte
/-- `WPOS` (0) and `SPOS` (1) left unspecified: 0 to `WINDOW_CAP - 1` (R35). -/
opaque freeCursor : Nat → Nat → Fin windowCap
/-- The content of a probability cell that is unspecified: draw, then address (R48). -/
opaque freeCell : Nat → Nat → Prob
/-- The content of a window byte that no put has written since: draw, then address (R48, R49, U3). -/
opaque freeWinByte : Nat → Nat → Byte
/-- `SINK` (and with it `SINK_LEN`) left unspecified (R48, R263). -/
opaque freeSink : Nat → List Byte
/-- Which of the symbol boundaries a run has passed a host read during `RUN` sees: draw (R78, U15). -/
opaque freeChoice : Nat → Nat

end Sys2Proof.Config
end

