-- ==== Sys2Proof/Syntax.lean ====
section
/-! DEFINITION. The instructions of LZD: one constructor per row of spec/opcode_table.json (spec/30_encoding.md
R117). Symbols, the length fields and slot fields that expand them, unit operations, host commands. -/

namespace Sys2Proof

/-- Which length decoder: `LEN` for `MATCH`, `REPLEN` for the repeats (R150). -/
inductive LenTable where
  | len
  | repLen
  deriving DecidableEq, Repr

/-- One instruction of LZD. Symbols and fields carry what their decisions spell; unit operations carry the
operands their rule names; commands have none. -/
inductive Instr where
  -- symbols (R94 to R103, R200 to R208)
  /-- `LIT`: a literal byte in a char state (R200). -/
  | lit (b : Byte)
  /-- `LITM`: a literal byte after a match or repeat (R201). -/
  | litm (b : Byte)
  /-- `MATCH len=N dist=D` (R202). -/
  | newMatch (len : Nat) (dist : Word)
  /-- `EOS`: a match whose distance is `0xFFFFFFFF`; `len` is the length it spells, which is discarded (R103, R208). -/
  | eos (len : Nat)
  /-- `SHORTREP` (R203). -/
  | shortrep
  /-- `REP0 len=N` (R204). -/
  | rep0 (len : Nat)
  /-- `REP1 len=N` (R205). -/
  | rep1 (len : Nat)
  /-- `REP2 len=N` (R206). -/
  | rep2 (len : Nat)
  /-- `REP3 len=N` (R207). -/
  | rep3 (len : Nat)
  -- the length field (R99, R151)
  /-- `LEN.low`: field values 0 to 7. -/
  | lenLow (l : BitVec 3)
  /-- `LEN.mid`: field values 8 to 15. -/
  | lenMid (m : BitVec 3)
  /-- `LEN.high`: field values 16 to 271. -/
  | lenHigh (h : BitVec 8)
  -- the slot and its distance extension (R101, R186): r reverse tree bits, d direct bits, a alignment bits
  | dxSlot0
  | dxSlot1
  | dxSlot2
  | dxSlot3
  | dxSlot4 (r : BitVec 1)
  | dxSlot5 (r : BitVec 1)
  | dxSlot6 (r : BitVec 2)
  | dxSlot7 (r : BitVec 2)
  | dxSlot8 (r : BitVec 3)
  | dxSlot9 (r : BitVec 3)
  | dxSlot10 (r : BitVec 4)
  | dxSlot11 (r : BitVec 4)
  | dxSlot12 (r : BitVec 5)
  | dxSlot13 (r : BitVec 5)
  | dxSlot14 (d : BitVec 2) (a : BitVec 4)
  | dxSlot15 (d : BitVec 2) (a : BitVec 4)
  | dxSlot16 (d : BitVec 3) (a : BitVec 4)
  | dxSlot17 (d : BitVec 3) (a : BitVec 4)
  | dxSlot18 (d : BitVec 4) (a : BitVec 4)
  | dxSlot19 (d : BitVec 4) (a : BitVec 4)
  | dxSlot20 (d : BitVec 5) (a : BitVec 4)
  | dxSlot21 (d : BitVec 5) (a : BitVec 4)
  | dxSlot22 (d : BitVec 6) (a : BitVec 4)
  | dxSlot23 (d : BitVec 6) (a : BitVec 4)
  | dxSlot24 (d : BitVec 7) (a : BitVec 4)
  | dxSlot25 (d : BitVec 7) (a : BitVec 4)
  | dxSlot26 (d : BitVec 8) (a : BitVec 4)
  | dxSlot27 (d : BitVec 8) (a : BitVec 4)
  | dxSlot28 (d : BitVec 9) (a : BitVec 4)
  | dxSlot29 (d : BitVec 9) (a : BitVec 4)
  | dxSlot30 (d : BitVec 10) (a : BitVec 4)
  | dxSlot31 (d : BitVec 10) (a : BitVec 4)
  | dxSlot32 (d : BitVec 11) (a : BitVec 4)
  | dxSlot33 (d : BitVec 11) (a : BitVec 4)
  | dxSlot34 (d : BitVec 12) (a : BitVec 4)
  | dxSlot35 (d : BitVec 12) (a : BitVec 4)
  | dxSlot36 (d : BitVec 13) (a : BitVec 4)
  | dxSlot37 (d : BitVec 13) (a : BitVec 4)
  | dxSlot38 (d : BitVec 14) (a : BitVec 4)
  | dxSlot39 (d : BitVec 14) (a : BitVec 4)
  | dxSlot40 (d : BitVec 15) (a : BitVec 4)
  | dxSlot41 (d : BitVec 15) (a : BitVec 4)
  | dxSlot42 (d : BitVec 16) (a : BitVec 4)
  | dxSlot43 (d : BitVec 16) (a : BitVec 4)
  | dxSlot44 (d : BitVec 17) (a : BitVec 4)
  | dxSlot45 (d : BitVec 17) (a : BitVec 4)
  | dxSlot46 (d : BitVec 18) (a : BitVec 4)
  | dxSlot47 (d : BitVec 18) (a : BitVec 4)
  | dxSlot48 (d : BitVec 19) (a : BitVec 4)
  | dxSlot49 (d : BitVec 19) (a : BitVec 4)
  | dxSlot50 (d : BitVec 20) (a : BitVec 4)
  | dxSlot51 (d : BitVec 20) (a : BitVec 4)
  | dxSlot52 (d : BitVec 21) (a : BitVec 4)
  | dxSlot53 (d : BitVec 21) (a : BitVec 4)
  | dxSlot54 (d : BitVec 22) (a : BitVec 4)
  | dxSlot55 (d : BitVec 22) (a : BitVec 4)
  | dxSlot56 (d : BitVec 23) (a : BitVec 4)
  | dxSlot57 (d : BitVec 23) (a : BitVec 4)
  | dxSlot58 (d : BitVec 24) (a : BitVec 4)
  | dxSlot59 (d : BitVec 24) (a : BitVec 4)
  | dxSlot60 (d : BitVec 25) (a : BitVec 4)
  | dxSlot61 (d : BitVec 25) (a : BitVec 4)
  | dxSlot62 (d : BitVec 26) (a : BitVec 4)
  | dxSlot63 (d : BitVec 26) (a : BitVec 4)
  -- unit operations
  /-- `RC.INIT` (R121). -/
  | rcInit
  /-- `RC.NORM` (R122). -/
  | rcNorm
  /-- `RC.BIT(a)` (R124). -/
  | rcBit (a : Nat)
  /-- `RC.DIRECT(n)` (R126). -/
  | rcDirect (n : Nat)
  /-- `BT.DEC(base, n)` (R142). -/
  | btDec (base n : Nat)
  /-- `BT.RDEC(base, n)` (R143). -/
  | btRdec (base n : Nat)
  /-- `LEN.DEC(T, ps)` (R151). -/
  | lenDec (t : LenTable) (ps : Fin 4)
  /-- `LIT.NORMAL(base)` (R162). -/
  | litNormal (base : Nat)
  /-- `LIT.MATCHED(base, mb)` (R163). -/
  | litMatched (base : Nat) (mb : Byte)
  /-- `DIST.DEC(len)` (R186). -/
  | distDec (len : Nat)
  /-- `OW.PUT(b)` (R171). -/
  | owPut (b : Byte)
  /-- `OW.FLUSH` (R172). -/
  | owFlush
  /-- `OW.GET(d)` (R173). -/
  | owGet (d : Word)
  /-- `OW.COPY(d, len)` (R176). -/
  | owCopy (d : Word) (len : Nat)
  /-- `CRC32(X)` (R232). -/
  | crc32 (x : List Byte)
  /-- `CF.STRIP(Y)` (R234). -/
  | cfStrip (y : List Byte)
  /-- `CF.ATTACH(X)` (R236). -/
  | cfAttach (x : List Byte)
  -- host commands (R240 to R243)
  /-- `RESET` (R241). -/
  | reset
  /-- `START` (R242). -/
  | start
  /-- `STRIP` (R243). -/
  | strip
  deriving DecidableEq, Repr

end Sys2Proof
end

