-- ==== Sys2Proof/Machine/State.lean ====
section
/-! DEFINITION. The state of LZD (spec/10_state.md), grouped by the unit that owns it (R21): every register,
`PMEM`, `WIN`, the streams, the status and the framer's registers; beside them the host's pending actions and the
few fields that are the model's own. -/

namespace Sys2Proof.Machine

/-- `RUN_STATE` (R39). -/
inductive RunState where
  /-- 0: reset, nothing run. -/
  | idle
  /-- 1: a decode is in progress. -/
  | run
  /-- 2: the last decode finished without fault. -/
  | done
  /-- 3: the last decode failed. -/
  | fault
  deriving DecidableEq, Repr

/-- `CAUSE`: the causes of R251. -/
inductive Cause where
  /-- 0: no fault. -/
  | none
  /-- 1: a byte was needed and `IN_POS = IN_LEN` (R252). -/
  | truncatedInput
  /-- 2: a new-match distance with bit 31 set that is not the end marker (R253). -/
  | invalidDistance
  /-- 3: `REP0 >= POS` or `REP0 >= DICT_SIZE_CHECK` (R254). -/
  | dictBounds
  /-- 4: a window read at `d >= TOTAL` or `d >= WINDOW_CAP` (R255). -/
  | windowRange
  deriving DecidableEq, Repr

/-- `CF_STATUS` (R41). -/
inductive CfStatus where
  /-- 0. -/
  | none
  /-- 1. -/
  | ok
  /-- 2. -/
  | mismatch
  /-- 3. -/
  | short
  deriving DecidableEq, Repr

/-- Why the model stops. The faults of the spec are no such stop: their entry is described (R262) and taken. -/
inductive Fault where
  /-- Raised by an adaptive decision on a cell address above 7605: no such cell exists (R65). The sequencer never
  forms one; a unit operation with such an operand does. Safe: the hardware's effect is not described. -/
  | pmemAddress (a : Nat)
  deriving DecidableEq, Repr

/-- Why an instruction has no meaning here. -/
inductive Refusal where
  /-- Answered by an arm of `exec` for an instruction that has no meaning yet. Safe: nothing follows from it. -/
  | notModelled (mnemonic : String)
  deriving DecidableEq, Repr

/-- What a cell of `PMEM` that is not listed reads as. -/
inductive PmemBase where
  /-- 1024: `START` has set every cell (R242). -/
  | init
  /-- Unspecified content: the free values of one draw (R48, R263). -/
  | unspecified (draw : Nat)
  deriving DecidableEq, Repr

/-- `PMEM` (R29): its cells by address, strictly rising (its canonical form is `Pmem.wf`, Safety.lean). -/
structure Pmem where
  base : PmemBase
  cells : List (Nat × Prob)
  deriving DecidableEq, Repr

/-- What the range decoder owns (R120): `RANGE`, `CODE`, the cursor `IN_POS`, and `PMEM`, which only `RC.BIT`
reads and writes during a run (R65). -/
structure Rc where
  /-- `RANGE` (R24). -/
  range : Word
  /-- `CODE` (R24). -/
  code : Word
  /-- `IN_POS` (R27). -/
  inPos : Nat
  /-- `PMEM` (R29). -/
  pmem : Pmem
  deriving DecidableEq, Repr

/-- The registers of the sequencer (R195). -/
structure Seq where
  /-- `STATE` (R31). -/
  state : BitVec 4
  /-- `REP0` (R32). -/
  rep0 : Word
  /-- `REP1` (R32). -/
  rep1 : Word
  /-- `REP2` (R32). -/
  rep2 : Word
  /-- `REP3` (R32). -/
  rep3 : Word
  /-- `POS` (R33). -/
  pos : Nat
  /-- `PREV` (R34). -/
  prev : Byte
  deriving DecidableEq, Repr

/-- What the output window owns (R170), with the sink it flushes to (R38). -/
structure Ow where
  /-- `WIN` (R35): the bytes put since the content last became unspecified, by address, strictly rising. -/
  win : List Host.Cell
  /-- The draw that gives the other bytes of `WIN` (R48, R49). -/
  winDraw : Nat
  /-- `WPOS` (R35). -/
  wpos : Fin Config.windowCap
  /-- `SPOS` (R35). -/
  spos : Fin Config.windowCap
  /-- `TOTAL` (R35). -/
  total : Nat
  /-- `SINK` (R38); `SINK_LEN` is its length. -/
  sink : List Byte
  deriving DecidableEq, Repr

/-- The registers of the checksum framer (R41); `PAY_LEN` is the length of `PAYLOAD`. -/
structure Cf where
  /-- `CF_STATUS`. -/
  status : CfStatus
  /-- `CF_STORED`. -/
  stored : Word
  /-- `CF_CALC`. -/
  computed : Word
  /-- `PAYLOAD`. -/
  payload : List Byte
  deriving DecidableEq, Repr

/-- The registers that move during a run, as they stood at one symbol boundary of it (R78; log 11). -/
structure Boundary where
  range : Word
  code : Word
  inPos : Nat
  seq : Seq
  sinkLen : Nat
  deriving DecidableEq, Repr

/-- What an operation or a field returns to its caller (log 12). -/
inductive Result where
  /-- Nothing returned. -/
  | none
  /-- A bit (`RC.BIT`). -/
  | bit (b : Bool)
  /-- An unsigned number (`RC.DIRECT`, `BT.DEC`, `BT.RDEC`, `LEN.DEC`, the length rows). -/
  | number (n : Nat)
  /-- A byte (`LIT.NORMAL`, `LIT.MATCHED`, `OW.GET`). -/
  | byte (b : Byte)
  /-- A 32-bit value (`CRC32`). -/
  | word (w : Word)
  /-- A byte sequence (`CF.ATTACH`). -/
  | bytes (bs : List Byte)
  /-- `Distance(v)` (`DIST.DEC`, the slot rows). -/
  | distance (v : Word)
  /-- `EndMarker` (`DIST.DEC`, `DX.slot63`). -/
  | endMarker
  deriving DecidableEq, Repr

/-- What acts next when it is not simply the engine (log 8, log 9). -/
inductive Event where
  /-- The engine takes its step; the host does nothing. -/
  | engine
  /-- The host writes a register of the register file (R43). -/
  | write (n : Nat) (v : Word)
  /-- The host reads a register of the register file (R43). -/
  | read (n : Nat)
  /-- The host presents `IN` (R61, R240). -/
  | present (bytes : List Byte)
  /-- A unit operation or a field is asked for at the unit's own interface, outside any symbol. No host can. -/
  | unit (i : Instr)
  /-- A length field is read from the stream at the length decoder's own interface, and run. No host can. -/
  | lenField (t : LenTable) (ps : Fin 4)
  /-- A slot and extension are read from the stream at the distance decoder's own interface, and run. No host can. -/
  | dxField (len : Nat)
  deriving DecidableEq, Repr

/-- The state of one instance of LZD. -/
structure State where
  /-- `RANGE`, `CODE`, `IN_POS`, `PMEM`. -/
  rc : Rc
  /-- `STATE`, `REP0` to `REP3`, `POS`, `PREV`. -/
  seq : Seq
  /-- `WIN`, `WPOS`, `SPOS`, `TOTAL`, `SINK`. -/
  ow : Ow
  /-- `CF_STATUS`, `CF_STORED`, `CF_CALC`, `PAYLOAD`. -/
  cf : Cf
  /-- `RUN_STATE` (R39). -/
  runState : RunState
  /-- `CAUSE` (R39). -/
  cause : Cause
  /-- `END_MARKER` (R40). -/
  endMarker : Bool
  /-- `OUT_SIZE` (R23). -/
  outSize : Word
  /-- `IN` of the run in progress, fixed at `START` (R44, R77). -/
  input : List Byte
  /-- `IN` as the host presents it now; `START` takes it (R242). DESIGN CHOICE (log 24): it stays presented until the
  host presents another, over `START`, the end of a run and `RESET`. -/
  presented : List Byte
  /-- The model's own: what the last unit operation or field returned (log 12). -/
  result : Result
  /-- The model's own: what the last host read of a register gave (log 12). -/
  hostData : Word
  /-- The model's own: the symbol boundaries this run has passed, latest first (R78; log 11). -/
  boundaries : List Boundary
  /-- The model's own: how many times free values have been drawn (log 4). -/
  draws : Nat
  /-- The model's own: the outside world's actions still to come, oldest first (log 8). -/
  events : List Event
  deriving DecidableEq, Repr

/-- LZD after power-on: the column "after RESET" of R48. A register that column leaves unspecified is 0, `SINK` is
empty (DESIGN CHOICE, log 1); no byte of `IN` is presented (DESIGN CHOICE, log 24); unspecified cells of `PMEM` and
`WIN` are the free values of draw 0 (log 2, log 3). -/
def State.reset : State where
  rc := { range := 0, code := 0, inPos := 0, pmem := { base := .unspecified 0, cells := [] } }
  seq := { state := 0, rep0 := 0, rep1 := 0, rep2 := 0, rep3 := 0, pos := 0, prev := 0 }
  ow := { win := [], winDraw := 0, wpos := 0, spos := 0, total := 0, sink := [] }
  cf := { status := .none, stored := 0, computed := 0, payload := [] }
  runState := .idle
  cause := .none
  endMarker := false
  outSize := 0
  input := []
  presented := []
  result := .none
  hostData := 0
  boundaries := []
  draws := 1
  events := []

end Sys2Proof.Machine
end

