-- ==== Sys2Proof/Machine/Flags.lean ====
section
/-! DEFINITION. `STATE` after each kind of symbol (spec/46_lzma_sequencer.md R199), the codes of the status
registers, and the words the host reads them in (spec/10_state.md R39 to R43). LZD has no arithmetic flags (R42). -/

namespace Sys2Proof.Machine

/-! ## The state transitions (R199) -/

/-- After `LIT` or `LITM`. -/
def afterLiteral (st : BitVec 4) : BitVec 4 :=
  if st.toNat < 4 then 0 else if st.toNat < 10 then st - 3 else st - 6
/-- After `MATCH` (and `EOS`, R208). -/
def afterMatch (st : BitVec 4) : BitVec 4 := if st.toNat < 7 then 7 else 10
/-- After `REP0` to `REP3`. -/
def afterLongRep (st : BitVec 4) : BitVec 4 := if st.toNat < 7 then 8 else 11
/-- After `SHORTREP`. -/
def afterShortRep (st : BitVec 4) : BitVec 4 := if st.toNat < 7 then 9 else 11

/-! ## Codes -/

/-- The code of `RUN_STATE` (R39). -/
def RunState.code : RunState → Nat
  | .idle => 0
  | .run => 1
  | .done => 2
  | .fault => 3

/-- The code of `CAUSE` (R251). -/
def Cause.code : Cause → Nat
  | .none => 0
  | .truncatedInput => 1
  | .invalidDistance => 2
  | .dictBounds => 3
  | .windowRange => 4

/-- The code of `CF_STATUS` (R41). -/
def CfStatus.code : CfStatus → Nat
  | .none => 0
  | .ok => 1
  | .mismatch => 2
  | .short => 3

/-! ## Status words (R43) -/

/-- `STATUS`: `RUN_STATE` in bits 1:0, `END_MARKER` in bit 2, `CF_STATUS` in bits 5:4. -/
def statusWord (s : State) : Word :=
  BitVec.ofNat 32 (s.runState.code + s.endMarker.toNat * 4 + s.cf.status.code * 16)

/-- `PROPS`: `LC` in bits 3:0, `LP` in bits 7:4, `PB` in bits 11:8. -/
def propsWord : Word := BitVec.ofNat 32 (Config.lc + Config.lp * 16 + Config.pb * 256)

/-- `LZSTATE`: `STATE` in bits 3:0, `PREV` in bits 15:8. -/
def lzStateWord (q : Seq) : Word := BitVec.ofNat 32 (q.state.toNat + q.prev.toNat * 256)

/-- The low half of a 64-bit counter. -/
def counterLo (n : Nat) : Word := BitVec.ofNat 32 n
/-- The high half of a 64-bit counter. -/
def counterHi (n : Nat) : Word := BitVec.ofNat 32 (n / 2 ^ 32)

/-- The level output `done` (R259). -/
def doneLevel (s : State) : Bool := s.runState = .done
/-- The level output `fault` (R259). -/
def faultLevel (s : State) : Bool := s.runState = .fault

/-- The size test of the run loop: `OUT_SIZE >= 0` (signed) and `POS >= OUT_SIZE` (R197). -/
def sizeReached (s : State) : Bool := s.outSize.toNat < 2 ^ 31 && s.outSize.toNat ≤ s.seq.pos

end Sys2Proof.Machine
end

