-- ==== Sys2Proof/Decode.lean ====
section
/-! DEFINITION. The decoder and the encoder of the words of LZD (spec/30_encoding.md). A word of a symbol or of a
field is a string of decisions, first decision first (R93); a word of a command is the 32-bit value written to
`CMD` (R117). How decisions come out of the bytes of `IN` is the range decoder's business (Machine/Ops.lean). -/

namespace Sys2Proof

/-- Why a word is not an instruction. -/
inductive DecodeError where
  /-- The decisions end before the symbol or field does. No other decision string is illegal (R105). -/
  | outOfDecisions
  /-- A value written to `CMD` that is no command: 0 or above 3 (R244). -/
  | notACommand (v : Word)
  deriving DecidableEq, Repr

/-- What is left after reading a value from a decision string, or why nothing was read. -/
abbrev Parse (α : Type) := Except DecodeError (α × List Bool)

/-! ## Bits and decisions (R93) -/

/-- The `n` low bits of `v`, most significant first. -/
def msbBits : Nat → Nat → List Bool
  | 0, _ => []
  | n + 1, v => v.testBit n :: msbBits n v

/-- The `n` low bits of `v`, least significant first. -/
def lsbBits : Nat → Nat → List Bool
  | 0, _ => []
  | n + 1, v => v.testBit 0 :: lsbBits n (v / 2)

/-- Reads `n` decisions, most significant first, below the bits `acc` already read. -/
def readMsb : Nat → Nat → List Bool → Parse Nat
  | 0, acc, ds => .ok (acc, ds)
  | _ + 1, _, [] => .error .outOfDecisions
  | n + 1, acc, b :: ds => readMsb n (2 * acc + b.toNat) ds

/-- Reads `n` decisions, least significant first. -/
def readLsb : Nat → List Bool → Parse Nat
  | 0, ds => .ok (0, ds)
  | _ + 1, [] => .error .outOfDecisions
  | n + 1, b :: ds =>
    match readLsb n ds with
    | .ok (v, rest) => .ok (b.toNat + 2 * v, rest)
    | .error e => .error e

/-! ## The length field (R99) -/

/-- Reads `<len>`: the row `LEN.low`, `LEN.mid` or `LEN.high`. -/
def decodeLenField : List Bool → Parse Instr
  | false :: ds =>
    match readMsb 3 0 ds with
    | .ok (v, rest) => .ok (.lenLow (BitVec.ofNat 3 v), rest)
    | .error e => .error e
  | true :: false :: ds =>
    match readMsb 3 0 ds with
    | .ok (v, rest) => .ok (.lenMid (BitVec.ofNat 3 v), rest)
    | .error e => .error e
  | true :: true :: ds =>
    match readMsb 8 0 ds with
    | .ok (v, rest) => .ok (.lenHigh (BitVec.ofNat 8 v), rest)
    | .error e => .error e
  | _ => .error .outOfDecisions

/-- The value of a length field, 0 to 271 (R99); of any other instruction, none. -/
def Instr.lenValue? : Instr → Option Nat
  | .lenLow l => some l.toNat
  | .lenMid m => some (8 + m.toNat)
  | .lenHigh h => some (16 + h.toNat)
  | _ => none

/-- The length field with a given value, 0 to 271 (R99: every value has exactly one encoding). -/
def lenFieldOf (v : Nat) : Instr :=
  if v < 8 then .lenLow (BitVec.ofNat 3 v)
  else if v < 16 then .lenMid (BitVec.ofNat 3 (v - 8))
  else .lenHigh (BitVec.ofNat 8 (v - 16))

/-- Reads `<len>` as a match length: the field value plus 2. -/
def decodeLength (ds : List Bool) : Parse Nat :=
  match decodeLenField ds with
  | .ok (f, rest) => .ok (Config.matchMinLen + f.lenValue?.getD 0, rest)
  | .error e => .error e

/-! ## The slot and its distance extension (R101) -/

/-- `nd`, the number of low distance bits of a slot of 4 or more. -/
def slotBits (slot : Nat) : Nat := slot / 2 - 1

/-- The smallest distance of a slot: the slot itself below 4, `(2 | (slot & 1)) << nd` from 4 up. -/
def slotBase (slot : Nat) : Nat :=
  if slot < Config.startPosModelIndex then slot else (2 ||| (slot &&& 1)) <<< slotBits slot

/-- The row of a slot, with its reverse tree bits or direct bits `x` and its alignment bits `a`. -/
def dxFieldOf (slot x a : Nat) : Option Instr :=
  match slot with
  | 0 => some .dxSlot0
  | 1 => some .dxSlot1
  | 2 => some .dxSlot2
  | 3 => some .dxSlot3
  | 4 => some (.dxSlot4 (BitVec.ofNat 1 x))
  | 5 => some (.dxSlot5 (BitVec.ofNat 1 x))
  | 6 => some (.dxSlot6 (BitVec.ofNat 2 x))
  | 7 => some (.dxSlot7 (BitVec.ofNat 2 x))
  | 8 => some (.dxSlot8 (BitVec.ofNat 3 x))
  | 9 => some (.dxSlot9 (BitVec.ofNat 3 x))
  | 10 => some (.dxSlot10 (BitVec.ofNat 4 x))
  | 11 => some (.dxSlot11 (BitVec.ofNat 4 x))
  | 12 => some (.dxSlot12 (BitVec.ofNat 5 x))
  | 13 => some (.dxSlot13 (BitVec.ofNat 5 x))
  | 14 => some (.dxSlot14 (BitVec.ofNat 2 x) (BitVec.ofNat 4 a))
  | 15 => some (.dxSlot15 (BitVec.ofNat 2 x) (BitVec.ofNat 4 a))
  | 16 => some (.dxSlot16 (BitVec.ofNat 3 x) (BitVec.ofNat 4 a))
  | 17 => some (.dxSlot17 (BitVec.ofNat 3 x) (BitVec.ofNat 4 a))
  | 18 => some (.dxSlot18 (BitVec.ofNat 4 x) (BitVec.ofNat 4 a))
  | 19 => some (.dxSlot19 (BitVec.ofNat 4 x) (BitVec.ofNat 4 a))
  | 20 => some (.dxSlot20 (BitVec.ofNat 5 x) (BitVec.ofNat 4 a))
  | 21 => some (.dxSlot21 (BitVec.ofNat 5 x) (BitVec.ofNat 4 a))
  | 22 => some (.dxSlot22 (BitVec.ofNat 6 x) (BitVec.ofNat 4 a))
  | 23 => some (.dxSlot23 (BitVec.ofNat 6 x) (BitVec.ofNat 4 a))
  | 24 => some (.dxSlot24 (BitVec.ofNat 7 x) (BitVec.ofNat 4 a))
  | 25 => some (.dxSlot25 (BitVec.ofNat 7 x) (BitVec.ofNat 4 a))
  | 26 => some (.dxSlot26 (BitVec.ofNat 8 x) (BitVec.ofNat 4 a))
  | 27 => some (.dxSlot27 (BitVec.ofNat 8 x) (BitVec.ofNat 4 a))
  | 28 => some (.dxSlot28 (BitVec.ofNat 9 x) (BitVec.ofNat 4 a))
  | 29 => some (.dxSlot29 (BitVec.ofNat 9 x) (BitVec.ofNat 4 a))
  | 30 => some (.dxSlot30 (BitVec.ofNat 10 x) (BitVec.ofNat 4 a))
  | 31 => some (.dxSlot31 (BitVec.ofNat 10 x) (BitVec.ofNat 4 a))
  | 32 => some (.dxSlot32 (BitVec.ofNat 11 x) (BitVec.ofNat 4 a))
  | 33 => some (.dxSlot33 (BitVec.ofNat 11 x) (BitVec.ofNat 4 a))
  | 34 => some (.dxSlot34 (BitVec.ofNat 12 x) (BitVec.ofNat 4 a))
  | 35 => some (.dxSlot35 (BitVec.ofNat 12 x) (BitVec.ofNat 4 a))
  | 36 => some (.dxSlot36 (BitVec.ofNat 13 x) (BitVec.ofNat 4 a))
  | 37 => some (.dxSlot37 (BitVec.ofNat 13 x) (BitVec.ofNat 4 a))
  | 38 => some (.dxSlot38 (BitVec.ofNat 14 x) (BitVec.ofNat 4 a))
  | 39 => some (.dxSlot39 (BitVec.ofNat 14 x) (BitVec.ofNat 4 a))
  | 40 => some (.dxSlot40 (BitVec.ofNat 15 x) (BitVec.ofNat 4 a))
  | 41 => some (.dxSlot41 (BitVec.ofNat 15 x) (BitVec.ofNat 4 a))
  | 42 => some (.dxSlot42 (BitVec.ofNat 16 x) (BitVec.ofNat 4 a))
  | 43 => some (.dxSlot43 (BitVec.ofNat 16 x) (BitVec.ofNat 4 a))
  | 44 => some (.dxSlot44 (BitVec.ofNat 17 x) (BitVec.ofNat 4 a))
  | 45 => some (.dxSlot45 (BitVec.ofNat 17 x) (BitVec.ofNat 4 a))
  | 46 => some (.dxSlot46 (BitVec.ofNat 18 x) (BitVec.ofNat 4 a))
  | 47 => some (.dxSlot47 (BitVec.ofNat 18 x) (BitVec.ofNat 4 a))
  | 48 => some (.dxSlot48 (BitVec.ofNat 19 x) (BitVec.ofNat 4 a))
  | 49 => some (.dxSlot49 (BitVec.ofNat 19 x) (BitVec.ofNat 4 a))
  | 50 => some (.dxSlot50 (BitVec.ofNat 20 x) (BitVec.ofNat 4 a))
  | 51 => some (.dxSlot51 (BitVec.ofNat 20 x) (BitVec.ofNat 4 a))
  | 52 => some (.dxSlot52 (BitVec.ofNat 21 x) (BitVec.ofNat 4 a))
  | 53 => some (.dxSlot53 (BitVec.ofNat 21 x) (BitVec.ofNat 4 a))
  | 54 => some (.dxSlot54 (BitVec.ofNat 22 x) (BitVec.ofNat 4 a))
  | 55 => some (.dxSlot55 (BitVec.ofNat 22 x) (BitVec.ofNat 4 a))
  | 56 => some (.dxSlot56 (BitVec.ofNat 23 x) (BitVec.ofNat 4 a))
  | 57 => some (.dxSlot57 (BitVec.ofNat 23 x) (BitVec.ofNat 4 a))
  | 58 => some (.dxSlot58 (BitVec.ofNat 24 x) (BitVec.ofNat 4 a))
  | 59 => some (.dxSlot59 (BitVec.ofNat 24 x) (BitVec.ofNat 4 a))
  | 60 => some (.dxSlot60 (BitVec.ofNat 25 x) (BitVec.ofNat 4 a))
  | 61 => some (.dxSlot61 (BitVec.ofNat 25 x) (BitVec.ofNat 4 a))
  | 62 => some (.dxSlot62 (BitVec.ofNat 26 x) (BitVec.ofNat 4 a))
  | 63 => some (.dxSlot63 (BitVec.ofNat 26 x) (BitVec.ofNat 4 a))
  | _ => none

/-- Slot, reverse tree or direct bits, and alignment bits of a slot row; of any other instruction, none. -/
def Instr.dxParts? : Instr → Option (Nat × Nat × Nat)
  | .dxSlot0 => some (0, 0, 0)
  | .dxSlot1 => some (1, 0, 0)
  | .dxSlot2 => some (2, 0, 0)
  | .dxSlot3 => some (3, 0, 0)
  | .dxSlot4 r => some (4, r.toNat, 0)
  | .dxSlot5 r => some (5, r.toNat, 0)
  | .dxSlot6 r => some (6, r.toNat, 0)
  | .dxSlot7 r => some (7, r.toNat, 0)
  | .dxSlot8 r => some (8, r.toNat, 0)
  | .dxSlot9 r => some (9, r.toNat, 0)
  | .dxSlot10 r => some (10, r.toNat, 0)
  | .dxSlot11 r => some (11, r.toNat, 0)
  | .dxSlot12 r => some (12, r.toNat, 0)
  | .dxSlot13 r => some (13, r.toNat, 0)
  | .dxSlot14 d a => some (14, d.toNat, a.toNat)
  | .dxSlot15 d a => some (15, d.toNat, a.toNat)
  | .dxSlot16 d a => some (16, d.toNat, a.toNat)
  | .dxSlot17 d a => some (17, d.toNat, a.toNat)
  | .dxSlot18 d a => some (18, d.toNat, a.toNat)
  | .dxSlot19 d a => some (19, d.toNat, a.toNat)
  | .dxSlot20 d a => some (20, d.toNat, a.toNat)
  | .dxSlot21 d a => some (21, d.toNat, a.toNat)
  | .dxSlot22 d a => some (22, d.toNat, a.toNat)
  | .dxSlot23 d a => some (23, d.toNat, a.toNat)
  | .dxSlot24 d a => some (24, d.toNat, a.toNat)
  | .dxSlot25 d a => some (25, d.toNat, a.toNat)
  | .dxSlot26 d a => some (26, d.toNat, a.toNat)
  | .dxSlot27 d a => some (27, d.toNat, a.toNat)
  | .dxSlot28 d a => some (28, d.toNat, a.toNat)
  | .dxSlot29 d a => some (29, d.toNat, a.toNat)
  | .dxSlot30 d a => some (30, d.toNat, a.toNat)
  | .dxSlot31 d a => some (31, d.toNat, a.toNat)
  | .dxSlot32 d a => some (32, d.toNat, a.toNat)
  | .dxSlot33 d a => some (33, d.toNat, a.toNat)
  | .dxSlot34 d a => some (34, d.toNat, a.toNat)
  | .dxSlot35 d a => some (35, d.toNat, a.toNat)
  | .dxSlot36 d a => some (36, d.toNat, a.toNat)
  | .dxSlot37 d a => some (37, d.toNat, a.toNat)
  | .dxSlot38 d a => some (38, d.toNat, a.toNat)
  | .dxSlot39 d a => some (39, d.toNat, a.toNat)
  | .dxSlot40 d a => some (40, d.toNat, a.toNat)
  | .dxSlot41 d a => some (41, d.toNat, a.toNat)
  | .dxSlot42 d a => some (42, d.toNat, a.toNat)
  | .dxSlot43 d a => some (43, d.toNat, a.toNat)
  | .dxSlot44 d a => some (44, d.toNat, a.toNat)
  | .dxSlot45 d a => some (45, d.toNat, a.toNat)
  | .dxSlot46 d a => some (46, d.toNat, a.toNat)
  | .dxSlot47 d a => some (47, d.toNat, a.toNat)
  | .dxSlot48 d a => some (48, d.toNat, a.toNat)
  | .dxSlot49 d a => some (49, d.toNat, a.toNat)
  | .dxSlot50 d a => some (50, d.toNat, a.toNat)
  | .dxSlot51 d a => some (51, d.toNat, a.toNat)
  | .dxSlot52 d a => some (52, d.toNat, a.toNat)
  | .dxSlot53 d a => some (53, d.toNat, a.toNat)
  | .dxSlot54 d a => some (54, d.toNat, a.toNat)
  | .dxSlot55 d a => some (55, d.toNat, a.toNat)
  | .dxSlot56 d a => some (56, d.toNat, a.toNat)
  | .dxSlot57 d a => some (57, d.toNat, a.toNat)
  | .dxSlot58 d a => some (58, d.toNat, a.toNat)
  | .dxSlot59 d a => some (59, d.toNat, a.toNat)
  | .dxSlot60 d a => some (60, d.toNat, a.toNat)
  | .dxSlot61 d a => some (61, d.toNat, a.toNat)
  | .dxSlot62 d a => some (62, d.toNat, a.toNat)
  | .dxSlot63 d a => some (63, d.toNat, a.toNat)
  | _ => none

/-- The distance a slot and its extension spell, 0 to `0xFFFFFFFF` (R101). -/
def slotDistance (slot x a : Nat) : Nat :=
  if slot < Config.startPosModelIndex then slot
  else if slot < Config.endPosModelIndex then slotBase slot + x
  else slotBase slot + (x <<< Config.alignBits) + a

/-- Reads `ssssss <dx>`: the row of the slot with its extension. -/
def decodeDxParts (ds : List Bool) : Parse (Nat × Nat × Nat) :=
  match readMsb 6 0 ds with
  | .error e => .error e
  | .ok (slot, ds) =>
    if slot < Config.startPosModelIndex then .ok ((slot, 0, 0), ds)
    else if slot < Config.endPosModelIndex then
      match readLsb (slotBits slot) ds with
      | .error e => .error e
      | .ok (x, ds) => .ok ((slot, x, 0), ds)
    else
      match readMsb (slotBits slot - Config.alignBits) 0 ds with
      | .error e => .error e
      | .ok (x, ds) =>
        match readLsb Config.alignBits ds with
        | .error e => .error e
        | .ok (a, ds) => .ok ((slot, x, a), ds)

/-- Reads `ssssss <dx>` as the row `DX.slot<n>` of the table. -/
def decodeDxField (ds : List Bool) : Parse Instr :=
  match decodeDxParts ds with
  | .error e => .error e
  | .ok ((slot, x, a), rest) => .ok ((dxFieldOf slot x a).getD .dxSlot0, rest)

/-- The slot of a distance: the distance itself below 4, else twice the index of the top set bit plus the bit
below it (R101). -/
def slotOf (v : Nat) : Nat :=
  if v < Config.startPosModelIndex then v else 2 * Nat.log2 v + ((v >>> (Nat.log2 v - 1)) &&& 1)

/-- Slot, reverse tree or direct bits, and alignment bits of a distance (R101). -/
def dxPartsOf (v : Nat) : Nat × Nat × Nat :=
  let slot := slotOf v
  let x := v - slotBase slot
  if slot < Config.endPosModelIndex then (slot, x, 0)
  else (slot, x >>> Config.alignBits, x % 2 ^ Config.alignBits)

/-! ## Symbols (R94 to R98, R103) -/

/-- Reads a match or repeat length and makes the symbol. -/
def decodeRep (make : Nat → Instr) (ds : List Bool) : Parse Instr :=
  match decodeLength ds with
  | .ok (len, rest) => .ok (make len, rest)
  | .error e => .error e

/-- Format L: eight decisions of the byte (R95). `charState` says `STATE < 7` at the start of the symbol. -/
def decodeLiteral (charState : Bool) (ds : List Bool) : Parse Instr :=
  match readMsb 8 0 ds with
  | .ok (v, rest) => .ok (if charState then .lit (BitVec.ofNat 8 v) else .litm (BitVec.ofNat 8 v), rest)
  | .error e => .error e

/-- Format M: length, slot, extension (R96); the distance `0xFFFFFFFF` makes it an `EOS` (R103). -/
def decodeMatch (ds : List Bool) : Parse Instr :=
  match decodeLength ds with
  | .error e => .error e
  | .ok (len, ds) =>
    match decodeDxParts ds with
    | .error e => .error e
    | .ok ((slot, x, a), rest) =>
      let v := BitVec.ofNat 32 (slotDistance slot x a)
      .ok (if v = Config.endMarkerDistance then .eos len else .newMatch len v, rest)

/-- Reads one symbol off a decision string: the tree of R94, then the fields of the format. -/
def decodeSymbol (charState : Bool) : List Bool → Parse Instr
  | false :: ds => decodeLiteral charState ds
  | true :: false :: ds => decodeMatch ds
  | true :: true :: false :: false :: ds => .ok (.shortrep, ds)
  | true :: true :: false :: true :: ds => decodeRep .rep0 ds
  | true :: true :: true :: false :: ds => decodeRep .rep1 ds
  | true :: true :: true :: true :: false :: ds => decodeRep .rep2 ds
  | true :: true :: true :: true :: true :: ds => decodeRep .rep3 ds
  | _ => .error .outOfDecisions

/-! ## Commands (R240, R244) -/

/-- Reads a value written to `CMD`. -/
def decodeCommand (v : Word) : Except DecodeError Instr :=
  if v = 1 then .ok .reset
  else if v = 2 then .ok .start
  else if v = 3 then .ok .strip
  else .error (.notACommand v)

/-! ## The encoder -/

/-- The words of an instruction. -/
inductive Code where
  /-- A decision string, first decision first. -/
  | decisions (ds : List Bool)
  /-- A value written to `CMD`. -/
  | command (v : Word)
  /-- A unit operation: it is called by name inside a symbol and has no words of its own (R11, R117). -/
  | unit
  deriving DecidableEq, Repr

/-- The decisions of the length field with value `v` (R99). -/
def lenBits (v : Nat) : List Bool :=
  if v < 8 then false :: msbBits 3 v
  else if v < 16 then true :: false :: msbBits 3 (v - 8)
  else true :: true :: msbBits 8 (v - 16)

/-- The decisions of a slot and its extension (R101). -/
def dxBits (slot x a : Nat) : List Bool :=
  msbBits 6 slot ++
    (if slot < Config.startPosModelIndex then []
     else if slot < Config.endPosModelIndex then lsbBits (slotBits slot) x
     else msbBits (slotBits slot - Config.alignBits) x ++ lsbBits Config.alignBits a)

/-- The decisions of the slot and extension of a distance (R101). -/
def distanceBits (v : Nat) : List Bool :=
  let p := dxPartsOf v
  dxBits p.1 p.2.1 p.2.2

/-- The words of an instruction, written from the formats of R95 to R103, the rows of the fields and the command
values of R117. -/
def encode (i : Instr) : Code :=
  match i with
  | .lit b => .decisions (false :: msbBits 8 b.toNat)
  | .litm b => .decisions (false :: msbBits 8 b.toNat)
  | .newMatch len dist => .decisions (true :: false :: (lenBits (len - Config.matchMinLen) ++ distanceBits dist.toNat))
  | .eos len => .decisions (true :: false :: (lenBits (len - Config.matchMinLen) ++ distanceBits 0xFFFFFFFF))
  | .shortrep => .decisions [true, true, false, false]
  | .rep0 len => .decisions (true :: true :: false :: true :: lenBits (len - Config.matchMinLen))
  | .rep1 len => .decisions (true :: true :: true :: false :: lenBits (len - Config.matchMinLen))
  | .rep2 len => .decisions (true :: true :: true :: true :: false :: lenBits (len - Config.matchMinLen))
  | .rep3 len => .decisions (true :: true :: true :: true :: true :: lenBits (len - Config.matchMinLen))
  | .reset => .command 1
  | .start => .command 2
  | .strip => .command 3
  | i =>
    match i.lenValue?, i.dxParts? with
    | some v, _ => .decisions (lenBits v)
    | none, some (slot, x, a) => .decisions (dxBits slot x a)
    | none, none => .unit

/-! ## The words of spec/opcode_table.json -/

/-- The instruction, where the decisions end with it. -/
def wholeParse : Parse Instr → Option Instr
  | .ok (i, []) => some i
  | _ => none

/-- The instruction, where it takes at least all but the last `pad` decisions. -/
def paddedParse (pad : Nat) : Parse Instr → Option Instr
  | .ok (i, rest) => if rest.length ≤ pad then some i else none
  | .error _ => none

/-- The longest decision string of a symbol (R96). -/
def maxDecisions : Nat := 48

/-- A decision string of the table's rows: a whole slot row, a whole symbol, a whole length field; else a symbol
that goes on with decisions 0. `STATE` is taken as 0, as at the start of a run, so a literal is `LIT` (log 16). -/
def decodeDecisionWord (ds : List Bool) : Option Instr :=
  let more := ds ++ List.replicate maxDecisions false
  (wholeParse (decodeDxField ds)).or <|
  (wholeParse (decodeSymbol true ds)).or <|
  (wholeParse (decodeLenField ds)).or <|
  paddedParse maxDecisions (decodeSymbol true more)

/-- The instruction the decoder reads from a word of the table: `nbits` bits whose value is `w`. A 32-bit word that
is a command is that command; any other word is the string of its bits as decisions, the first decision its most
significant bit (R93; log 16). -/
def decodeTableWord (nbits w : Nat) : Option Instr :=
  if w < 2 ^ nbits then
    match nbits == 32, decodeCommand (BitVec.ofNat 32 w) with
    | true, .ok i => some i
    | _, _ => decodeDecisionWord (msbBits nbits w)
  else none

end Sys2Proof
end

