-- ==== Sys2Proof/Machine/Operands.lean ====
section
/-! DEFINITION. The operand forms of LZD: what a symbol samples before its first decision, the probability cell each
decision uses (spec/30_encoding.md R107, spec/20_memory.md R66), and the values computed from operands. -/

namespace Sys2Proof.Machine

/-! ## What a symbol samples (R196) -/

/-- `posState`: `POS & PB_MASK` (R14, R196). -/
def posState (pos : Nat) : Fin 4 := Fin.ofNat Config.numPosStates pos

/-- A char state: `STATE < 7` (R31, R42). -/
def charState (st : BitVec 4) : Bool := st.toNat < Config.litStateLimit

/-- `LIT.CTX(pos, prev)`: the literal context number (R161). -/
def litCtx (pos : Nat) (prev : Byte) : Nat :=
  ((pos % 2 ^ Config.lp) <<< Config.lc) ||| (prev.toNat >>> (8 - Config.lc))

/-- The base address of a literal context (R161, R200). -/
def litBase (pos : Nat) (prev : Byte) : Nat := Config.literalBase + litCtx pos prev * Config.litCoderSize

/-! ## Addresses of decisions (R107) -/

/-- `isMatch`: `(st << 4) + ps` in `IS_MATCH`. -/
def isMatchCell (st : BitVec 4) (ps : Fin 4) : Nat :=
  Config.isMatchBase + (st.toNat <<< Config.posStatesBitsMax) + ps.val
/-- `isRep`: `st` in `IS_REP`. -/
def isRepCell (st : BitVec 4) : Nat := Config.isRepBase + st.toNat
/-- `isRepG0`: `st` in `IS_REP_G0`. -/
def isRepG0Cell (st : BitVec 4) : Nat := Config.isRepG0Base + st.toNat
/-- `isRepG1`: `st` in `IS_REP_G1`. -/
def isRepG1Cell (st : BitVec 4) : Nat := Config.isRepG1Base + st.toNat
/-- `isRepG2`: `st` in `IS_REP_G2`. -/
def isRepG2Cell (st : BitVec 4) : Nat := Config.isRepG2Base + st.toNat
/-- `isRep0Long`: `(st << 4) + ps` in `IS_REP0_LONG`. -/
def isRep0LongCell (st : BitVec 4) (ps : Fin 4) : Nat :=
  Config.isRep0LongBase + (st.toNat <<< Config.posStatesBitsMax) + ps.val

/-- The first of the two choice cells of a length decoder (R66). -/
def lenChoiceCell : LenTable → Nat
  | .len => Config.lenChoiceBase
  | .repLen => Config.repLenChoiceBase
/-- Node 0 of the low tree of a length decoder for `ps` (R151). -/
def lenLowTree (t : LenTable) (ps : Fin 4) : Nat :=
  (match t with | .len => Config.lenLowBase | .repLen => Config.repLenLowBase) + ps.val * 8
/-- Node 0 of the mid tree of a length decoder for `ps` (R151). -/
def lenMidTree (t : LenTable) (ps : Fin 4) : Nat :=
  (match t with | .len => Config.lenMidBase | .repLen => Config.repLenMidBase) + ps.val * 8
/-- Node 0 of the high tree of a length decoder, shared by all `posState` values (R150). -/
def lenHighTree : LenTable → Nat
  | .len => Config.lenHighBase
  | .repLen => Config.repLenHighBase

/-- The length class `min(len - 2, 3)` (R100). -/
def lenToPosState (len : Nat) : Nat := min (len - Config.matchMinLen) (Config.numLenToPosStates - 1)

/-- Node 0 of the position-slot tree of a length (R66, R186). -/
def posSlotTree (len : Nat) : Nat := Config.posSlotBase + lenToPosState len * 64

/-- Node 0 of the reverse tree of a slot of 4 to 13: `POS_SPEC + base - slot - 1`, which for slot 4 is one below the
table (R186, R143). -/
def posSpecTree (slot : Nat) : Nat := Config.posSpecBase + slotBase slot - slot - 1

/-- The cell of a literal decision while every earlier bit equalled the match byte's: the bank of the match bit
(R163). -/
def matchedCell (base sym : Nat) (matchBit : Bool) : Nat := base + ((1 + matchBit.toNat) <<< 8) + sym

/-! ## The cells of a whole decision string, from the table of R107: `none` is a direct decision -/

/-- The cells of a field in a tree: node `m`, then `2m + bit`. -/
def treeCells (base m : Nat) : List Bool → List (Option Nat)
  | [] => []
  | b :: bs => some (base + m) :: treeCells base (2 * m + b.toNat) bs

/-- The cells of a literal read against the match byte `mb`. -/
def matchedCells (base : Nat) (mb : Byte) (sym : Nat) : List Bool → List (Option Nat)
  | [] => []
  | b :: bs =>
    some (matchedCell base sym (mb.getLsbD 7)) ::
      (if mb.getLsbD 7 = b then matchedCells base (mb <<< 1) (2 * sym + b.toNat) bs
       else treeCells base (2 * sym + b.toNat) bs)

/-- The cells of a length field with value `v` (R99). -/
def lenCells (t : LenTable) (ps : Fin 4) (v : Nat) : List (Option Nat) :=
  if v < 8 then some (lenChoiceCell t) :: treeCells (lenLowTree t ps) 1 (msbBits 3 v)
  else if v < 16 then
    some (lenChoiceCell t) :: some (lenChoiceCell t + 1) :: treeCells (lenMidTree t ps) 1 (msbBits 3 (v - 8))
  else some (lenChoiceCell t) :: some (lenChoiceCell t + 1) :: treeCells (lenHighTree t) 1 (msbBits 8 (v - 16))

/-- The cells of a slot and its extension, for a match of length `len` (R101). -/
def dxCells (len slot x a : Nat) : List (Option Nat) :=
  treeCells (posSlotTree len) 1 (msbBits 6 slot) ++
    (if slot < Config.startPosModelIndex then []
     else if slot < Config.endPosModelIndex then treeCells (posSpecTree slot) 1 (lsbBits (slotBits slot) x)
     else List.replicate (slotBits slot - Config.alignBits) none ++
       treeCells Config.posAlignBase 1 (lsbBits Config.alignBits a))

/-- The cells of the slot and extension of a distance. -/
def distanceCells (len v : Nat) : List (Option Nat) :=
  let p := dxPartsOf v
  dxCells len p.1 p.2.1 p.2.2

/-- What selects the cells of a symbol (R104): `STATE` and `posState` at its start, the base of its literal context,
and the window byte at `REP0`. -/
structure Context where
  st : BitVec 4
  ps : Fin 4
  base : Nat
  mb : Byte

/-- The cells of the decisions of a symbol, in order (R107); of any other instruction, none. -/
def symbolCells (c : Context) (i : Instr) : List (Option Nat) :=
  match i with
  | .lit b => some (isMatchCell c.st c.ps) :: treeCells c.base 1 (msbBits 8 b.toNat)
  | .litm b => some (isMatchCell c.st c.ps) :: matchedCells c.base c.mb 1 (msbBits 8 b.toNat)
  | .newMatch len dist =>
    some (isMatchCell c.st c.ps) :: some (isRepCell c.st) ::
      (lenCells .len c.ps (len - Config.matchMinLen) ++ distanceCells len dist.toNat)
  | .eos len =>
    some (isMatchCell c.st c.ps) :: some (isRepCell c.st) ::
      (lenCells .len c.ps (len - Config.matchMinLen) ++ distanceCells len 0xFFFFFFFF)
  | .shortrep =>
    [some (isMatchCell c.st c.ps), some (isRepCell c.st), some (isRepG0Cell c.st), some (isRep0LongCell c.st c.ps)]
  | .rep0 len =>
    some (isMatchCell c.st c.ps) :: some (isRepCell c.st) :: some (isRepG0Cell c.st) ::
      some (isRep0LongCell c.st c.ps) :: lenCells .repLen c.ps (len - Config.matchMinLen)
  | .rep1 len =>
    some (isMatchCell c.st c.ps) :: some (isRepCell c.st) :: some (isRepG0Cell c.st) :: some (isRepG1Cell c.st) ::
      lenCells .repLen c.ps (len - Config.matchMinLen)
  | .rep2 len =>
    some (isMatchCell c.st c.ps) :: some (isRepCell c.st) :: some (isRepG0Cell c.st) :: some (isRepG1Cell c.st) ::
      some (isRepG2Cell c.st) :: lenCells .repLen c.ps (len - Config.matchMinLen)
  | .rep3 len =>
    some (isMatchCell c.st c.ps) :: some (isRepCell c.st) :: some (isRepG0Cell c.st) :: some (isRepG1Cell c.st) ::
      some (isRepG2Cell c.st) :: lenCells .repLen c.ps (len - Config.matchMinLen)
  | _ => []

end Sys2Proof.Machine
end

