-- ==== Sys2Proof/Machine/Ops.lean ====
section
/-! DEFINITION. The named operations of LZD's units over its memories and registers: memory access, the range
decoder (spec/40_range_decoder.md), the bit trees (41), the length, literal and distance decoders (42, 43, 45), the
output window (44), the checksum framer (47); taking a fault (60_exceptions.md R262) and what is unspecified after it. -/

namespace Sys2Proof.Machine

/-! ## The outcome of an operation on a unit's state -/

/-- An operation returns a value, or raises a fault of the spec in a certain state (R11), or the model stops. -/
inductive Res (σ α : Type) where
  /-- The operation returns `a`. -/
  | ok (a : α) (s : σ)
  /-- `raise Fault(c)`; `s` is how things stand at the raise. -/
  | raise (c : Cause) (s : σ)
  /-- The model stops. -/
  | stop (f : Fault)
  deriving DecidableEq, Repr

/-- First `r`, then `k` on what it returns; after a `raise` nothing runs (R262). -/
def Res.bind {σ α β : Type} (r : Res σ α) (k : α → σ → Res σ β) : Res σ β :=
  match r with
  | .ok a s => k a s
  | .raise c s => .raise c s
  | .stop f => .stop f

/-! ## Memory: lists of (address, value), addresses strictly rising -/

/-- The value listed at an address. -/
def listRead {α : Type} : List (Nat × α) → Nat → Option α
  | [], _ => none
  | (b, w) :: rest, a => if a = b then some w else if a < b then none else listRead rest a

/-- Lists `v` at an address. -/
def listWrite {α : Type} : List (Nat × α) → Nat → α → List (Nat × α)
  | [], a, v => [(a, v)]
  | (b, w) :: rest, a, v =>
    if a = b then (a, v) :: rest
    else if a < b then (a, v) :: (b, w) :: rest
    else (b, w) :: listWrite rest a v

/-- Lists nothing at an address. -/
def listErase {α : Type} : List (Nat × α) → Nat → List (Nat × α)
  | [], _ => []
  | (b, w) :: rest, a =>
    if a = b then rest else if a < b then (b, w) :: rest else (b, w) :: listErase rest a

/-- What an unlisted cell of `PMEM` reads as: 1024 after `START`, a free value before (R48, R242; log 2). -/
def pmemUnlisted (base : PmemBase) (a : Nat) : Prob :=
  match base with
  | .init => Config.probInit
  | .unspecified draw => Config.freeCell draw a

/-- `PMEM[a]` (R65). -/
def pmemRead (m : Pmem) (a : Nat) : Prob := (listRead m.cells a).getD (pmemUnlisted m.base a)

/-- `PMEM[a] <- v` (R65). A cell that is 1024 after `START` is not listed. -/
def pmemWrite (m : Pmem) (a : Nat) (v : Prob) : Pmem :=
  if m.base = .init ∧ v = Config.probInit then { m with cells := listErase m.cells a }
  else { m with cells := listWrite m.cells a v }

/-- `WIN[q]` (R68). A byte nothing has written is a free value (R49, U3; log 3). -/
def winRead (o : Ow) (q : Nat) : Byte := (listRead o.win q).getD (Config.freeWinByte o.winDraw q)

/-! ## The range decoder (R120 to R127). `inp` is the run's `IN` -/

/-- `NextByte()` (R64). -/
def nextByte (inp : List Byte) (r : Rc) : Res Rc Byte :=
  match inp[r.inPos]? with
  | some b => .ok b { r with inPos := r.inPos + 1 }
  | none => .raise .truncatedInput r

/-- `(CODE << 8) | byte` (R63). -/
def shiftIn (code : Word) (b : Byte) : Word := (code <<< 8) ||| b.setWidth 32

/-- `k` bytes shifted into `CODE` (R121). -/
def primeCode (inp : List Byte) : Nat → Rc → Res Rc Unit
  | 0, r => .ok () r
  | k + 1, r => (nextByte inp r).bind fun b r => primeCode inp k { r with code := shiftIn r.code b }

/-- `RC.INIT` (R121). -/
def rcInit (inp : List Byte) (r : Rc) : Res Rc Unit :=
  primeCode inp 5 { r with code := 0, range := 0xFFFFFFFF }

/-- `RC.NORM` (R122). -/
def rcNorm (inp : List Byte) (r : Rc) : Res Rc Unit :=
  if r.range &&& Config.topMask = 0 then
    (nextByte inp r).bind fun b r => .ok () { r with code := shiftIn r.code b, range := r.range <<< 8 }
  else .ok () r

/-- A cell after a decision 0: `p + ((2048 - p) >> 5)` (R124). -/
def probAfter0 (p : Prob) : Prob := BitVec.ofNat 11 (p.toNat + ((Config.probOne - p.toNat) >>> Config.moveBits))

/-- A cell after a decision 1: `p - (p >> 5)` (R124). -/
def probAfter1 (p : Prob) : Prob := BitVec.ofNat 11 (p.toNat - (p.toNat >>> Config.moveBits))

/-- The width of the lower part of the interval: `(RANGE >> 11) * p` (R123). -/
def rcBound (range : Word) (p : Prob) : Word := (range >>> Config.probBits) * p.setWidth 32

/-- `RC.BIT(a)` (R124). DEDUCED (log 26): that `CODE >= RANGE` still holds after a decision from `CODE >= RANGE` (R125 (c))
is read of the point before the `RC.NORM`, which may drop high bits of `CODE` (R122, R129). -/
def rcBit (inp : List Byte) (a : Nat) (r : Rc) : Res Rc Bool :=
  if a < Config.pmemSize then
    let p := pmemRead r.pmem a
    let bound := rcBound r.range p
    if r.code < bound then
      (rcNorm inp { r with range := bound, pmem := pmemWrite r.pmem a (probAfter0 p) }).bind fun _ r => .ok false r
    else
      (rcNorm inp { r with range := r.range - bound, code := r.code - bound,
                           pmem := pmemWrite r.pmem a (probAfter1 p) }).bind fun _ r => .ok true r
  else .stop (.pmemAddress a)

/-- One iteration of `RC.DIRECT` (R126). An odd `RANGE` loses its low bit (R127), so `CODE < RANGE` is not always kept,
against the claim R26 derives from this rule (DEDUCED, log 23). -/
def directBit (inp : List Byte) (r : Rc) : Res Rc Bool :=
  let half := r.range >>> 1
  if half ≤ r.code then
    (rcNorm inp { r with range := half, code := r.code - half }).bind fun _ r => .ok true r
  else (rcNorm inp { r with range := half }).bind fun _ r => .ok false r

/-- The iterations of `RC.DIRECT` that are left, below the bits decoded so far. -/
def directBits (inp : List Byte) : Nat → Nat → Rc → Res Rc Nat
  | 0, acc, r => .ok acc r
  | n + 1, acc, r => (directBit inp r).bind fun b r => directBits inp n (2 * acc + b.toNat) r

/-- `RC.DIRECT(n)` (R126). -/
def rcDirect (inp : List Byte) (n : Nat) (r : Rc) : Res Rc Nat := directBits inp n 0 r

/-! ## Bit trees (R140 to R143) -/

/-- `k` levels down a tree from node `m`; returns the node reached. -/
def walkTree (inp : List Byte) (base : Nat) : Nat → Nat → Rc → Res Rc Nat
  | 0, m, r => .ok m r
  | k + 1, m, r => (rcBit inp (base + m) r).bind fun b r => walkTree inp base k (2 * m + b.toNat) r

/-- `BT.DEC(base, n)` (R142). -/
def btDec (inp : List Byte) (base n : Nat) (r : Rc) : Res Rc Nat :=
  (walkTree inp base n 1 r).bind fun m r => .ok (m - 2 ^ n) r

/-- `k` levels down a tree from node `m`; returns the decisions as a number, the first least significant. -/
def walkReverse (inp : List Byte) (base : Nat) : Nat → Nat → Rc → Res Rc Nat
  | 0, _, r => .ok 0 r
  | k + 1, m, r =>
    (rcBit inp (base + m) r).bind fun b r =>
      (walkReverse inp base k (2 * m + b.toNat) r).bind fun v r => .ok (b.toNat + 2 * v) r

/-- `BT.RDEC(base, n)` (R143). -/
def btRdec (inp : List Byte) (base n : Nat) (r : Rc) : Res Rc Nat := walkReverse inp base n 1 r

/-! ## The length decoder (R151) -/

/-- `LEN.DEC(T, ps)`. -/
def lenDec (inp : List Byte) (t : LenTable) (ps : Fin 4) (r : Rc) : Res Rc Nat :=
  (rcBit inp (lenChoiceCell t) r).bind fun c0 r =>
    match c0 with
    | false => btDec inp (lenLowTree t ps) 3 r
    | true =>
      (rcBit inp (lenChoiceCell t + 1) r).bind fun c1 r =>
        match c1 with
        | false => (btDec inp (lenMidTree t ps) 3 r).bind fun v r => .ok (8 + v) r
        | true => (btDec inp (lenHighTree t) 8 r).bind fun v r => .ok (16 + v) r

/-! ## The literal decoder (R162, R163) -/

/-- `LIT.NORMAL(base)`. -/
def litNormal (inp : List Byte) (base : Nat) (r : Rc) : Res Rc Byte :=
  (walkTree inp base 8 1 r).bind fun sym r => .ok (BitVec.ofNat 8 sym) r

/-- `k` levels of `LIT.MATCHED` from `sym`, no mismatch so far; `mb` holds the match bits still to come. -/
def walkMatched (inp : List Byte) (base : Nat) : Nat → Byte → Nat → Rc → Res Rc Nat
  | 0, _, sym, r => .ok sym r
  | k + 1, mb, sym, r =>
    (rcBit inp (matchedCell base sym (mb.getLsbD 7)) r).bind fun b r =>
      if mb.getLsbD 7 = b then walkMatched inp base k (mb <<< 1) (2 * sym + b.toNat) r
      else walkTree inp base k (2 * sym + b.toNat) r

/-- `LIT.MATCHED(base, mb)`. -/
def litMatched (inp : List Byte) (base : Nat) (mb : Byte) (r : Rc) : Res Rc Byte :=
  (walkMatched inp base 8 mb 1 r).bind fun sym r => .ok (BitVec.ofNat 8 sym) r

/-! ## The distance decoder (R186) -/

/-- The decisions of `DIST.DEC(len)`: the slot, then its extension. -/
def distParts (inp : List Byte) (len : Nat) (r : Rc) : Res Rc (Nat × Nat × Nat) :=
  (btDec inp (posSlotTree len) 6 r).bind fun slot r =>
    if slot < Config.startPosModelIndex then .ok (slot, 0, 0) r
    else if slot < Config.endPosModelIndex then
      (btRdec inp (posSpecTree slot) (slotBits slot) r).bind fun x r => .ok (slot, x, 0) r
    else
      (rcDirect inp (slotBits slot - Config.alignBits) r).bind fun x r =>
        (btRdec inp Config.posAlignBase Config.alignBits r).bind fun a r => .ok (slot, x, a) r

/-- The 32-bit value a slot and its extension spell. -/
def distWord (slot x a : Nat) : Word := BitVec.ofNat 32 (slotDistance slot x a)

/-- What `DIST.DEC` makes of the value `v`: the end marker, a distance, or the fault `INVALID_DISTANCE` (R253). -/
def distResult {σ : Type} (v : Word) (s : σ) : Res σ Result :=
  if v = Config.endMarkerDistance then .ok .endMarker s
  else if v.toNat < 2 ^ 31 then .ok (.distance v) s
  else .raise .invalidDistance s

/-- `DIST.DEC(len)`. -/
def distDec (inp : List Byte) (len : Nat) (r : Rc) : Res Rc Result :=
  (distParts inp len r).bind fun p r => distResult (distWord p.1 p.2.1 p.2.2) r

/-! ## The output window (R171 to R176) -/

/-- `WIN[from .. from + k - 1]` in increasing address order. -/
def winBytes (o : Ow) (start k : Nat) : List Byte := (List.range' start k).map (winRead o)

/-- `OW.FLUSH` with the cursor at `w`, which inside `OW.PUT` may be `WINDOW_CAP` (R172). DESIGN CHOICE (log 25): with
`SPOS` above `w`, which R35 excludes and only free cursors show, `WIN[SPOS .. w-1]` is read as empty and `SPOS` becomes
the cursor. -/
def owFlushAt (w : Nat) (o : Ow) : Ow :=
  if w = o.spos.val then o
  else
    let cursor : Fin Config.windowCap := if Config.windowCap ≤ w then 0 else Fin.ofNat Config.windowCap w
    { o with sink := o.sink ++ winBytes o o.spos.val (w - o.spos.val), wpos := cursor, spos := cursor }

/-- `OW.FLUSH()` (R172). -/
def owFlush (o : Ow) : Ow := owFlushAt o.wpos.val o

/-- `OW.PUT(b)` (R171). -/
def owPut (b : Byte) (o : Ow) : Ow :=
  let w := o.wpos.val + 1
  let o := { o with win := listWrite o.win o.wpos.val b, total := o.total + 1 }
  if Config.windowCap ≤ w then owFlushAt w o else { o with wpos := Fin.ofNat Config.windowCap w }

/-- The address of the byte at distance `d`: `WPOS - d - 1`, wrapping (R173). -/
def winIndex (wpos : Fin Config.windowCap) (d : Nat) : Nat :=
  if d + 1 ≤ wpos.val then wpos.val - d - 1 else wpos.val + Config.windowCap - d - 1

/-- `OW.GET(d)` (R173, R174). -/
def owGet (d : Word) (o : Ow) : Res Ow Byte :=
  if o.total ≤ d.toNat ∨ Config.windowCap ≤ d.toNat then .raise .windowRange o
  else .ok (winRead o (winIndex o.wpos d.toNat)) o

/-- `OW.COPY(d, len)` (R176). -/
def owCopy (d : Word) : Nat → Ow → Res Ow Unit
  | 0, o => .ok () o
  | n + 1, o => (owGet d o).bind fun b o => owCopy d n (owPut b o)

/-! ## Validation and copy (R209) -/

/-- `VALIDATE_AND_COPY(len)`, on the window and the sequencer's registers. -/
def validateAndCopy (len : Nat) (q : Seq) (o : Ow) : Res Ow Seq :=
  if q.pos ≤ q.rep0.toNat ∨ Config.dictSizeCheck ≤ q.rep0.toNat then .raise .dictBounds o
  else
    (owCopy q.rep0 len o).bind fun _ o =>
      (owGet 0 o).bind fun b o => .ok { q with pos := q.pos + len, prev := b } o

/-! ## The checksum framer (R231 to R236) -/

/-- One bit of the CRC register (R232). -/
def crcBit (c : Word) : Word := if c.getLsbD 0 then (c >>> 1) ^^^ 0xEDB88320 else c >>> 1

/-- One byte into the CRC register (R232). -/
def crcByte (c : Word) (b : Byte) : Word :=
  crcBit (crcBit (crcBit (crcBit (crcBit (crcBit (crcBit (crcBit (c ^^^ b.setWidth 32))))))))

/-- `CRC32(X)` (R232). -/
def crc32 (x : List Byte) : Word := x.foldl crcByte 0xFFFFFFFF ^^^ 0xFFFFFFFF

/-- The stored checksum of a frame: bytes 0 to 3, little-endian (R231). -/
def storedCrc (b0 b1 b2 b3 : Byte) : Word :=
  b0.setWidth 32 ||| (b1.setWidth 32 <<< 8) ||| (b2.setWidth 32 <<< 16) ||| (b3.setWidth 32 <<< 24)

/-- `CF.STRIP(Y)` (R234). -/
def cfStrip (y : List Byte) : Cf :=
  match y with
  | b0 :: b1 :: b2 :: b3 :: x =>
    let stored := storedCrc b0 b1 b2 b3
    let computed := crc32 x
    if stored = computed then { status := .ok, stored := stored, computed := computed, payload := x }
    else { status := .mismatch, stored := stored, computed := computed, payload := [] }
  | _ => { status := .short, stored := 0, computed := 0, payload := [] }

/-- The four bytes of a word, little-endian. -/
def wordBytes (w : Word) : List Byte :=
  [w.setWidth 8, (w >>> 8).setWidth 8, (w >>> 16).setWidth 8, (w >>> 24).setWidth 8]

/-- `CF.ATTACH(X)` (R236). -/
def cfAttach (x : List Byte) : List Byte := wordBytes (crc32 x) ++ x

/-- The framer's registers cleared (R241, R242). -/
def cfCleared : Cf := { status := .none, stored := 0, computed := 0, payload := [] }

/-! ## What the spec leaves unspecified, as free values (R48, R263; log 4, log 5) -/

/-- The range decoder with every register and cell unspecified. -/
def freeRc (draw : Nat) : Rc :=
  { range := Config.freeWord draw 10, code := Config.freeWord draw 11, inPos := (Config.freeCounter draw 8).toNat,
    pmem := { base := .unspecified draw, cells := [] } }

/-- The sequencer with every register unspecified. -/
def freeSeq (draw : Nat) : Seq :=
  { state := BitVec.ofNat 4 (Config.freeLzState draw).val, rep0 := Config.freeWord draw 13,
    rep1 := Config.freeWord draw 14, rep2 := Config.freeWord draw 15, rep3 := Config.freeWord draw 16,
    pos := (Config.freeCounter draw 6).toNat, prev := Config.freePrev draw }

/-- The window and the sink with everything unspecified. -/
def freeOw (draw : Nat) : Ow :=
  { win := [], winDraw := draw, wpos := Config.freeCursor draw 0, spos := Config.freeCursor draw 1,
    total := (Config.freeCounter draw 23).toNat, sink := Config.freeSink draw }

/-- Every decoder register and memory becomes unspecified, all in one draw. -/
def unspecify (s : State) : State :=
  { s with rc := freeRc s.draws, seq := freeSeq s.draws, ow := freeOw s.draws, draws := s.draws + 1 }

/-! ## Taking a fault, ending a run -/

/-- `raise Fault(c)`: `CAUSE`, then `RUN_STATE`, and the engine stops (R262). There is no return from it (R264).
What R263 does not list as defined is unspecified. -/
def takeFault (c : Cause) (s : State) : State := unspecify { s with cause := c, runState := .fault }

/-- The end of a run that does not fault: the last flush, then `DONE` (R197, R211). -/
def endRun (s : State) : State := { s with ow := owFlush s.ow, runState := .done }

/-! ## The host's commands -/

/-- `RESET` (R241): the status and the framer cleared, everything else unspecified, `OUT_SIZE` too (R48). DESIGN CHOICE
(log 24): what the host presents as `IN` is not touched. -/
def resetCommand (s : State) : State :=
  unspecify { s with runState := .idle, cause := .none, endMarker := false, cf := cfCleared,
                     outSize := Config.freeWord s.draws 5, boundaries := [] }

/-- The init phase of `START` (R242): every cell 1024, `WIN` itself not cleared; the run's `IN` is what is
presented (R77). DESIGN CHOICE (log 24): where nothing was presented since the last `START`, that is the bytes
presented before it, and since power-on none. -/
def initPhase (s : State) : State :=
  { s with
    rc := { s.rc with inPos := 0, pmem := { base := .init, cells := [] } }
    seq := { state := 0, rep0 := 0, rep1 := 0, rep2 := 0, rep3 := 0, pos := 0, prev := 0 }
    ow := { s.ow with wpos := 0, spos := 0, total := 0, sink := [] }
    cf := cfCleared
    runState := .run
    cause := .none
    endMarker := false
    input := s.presented
    boundaries := [] }

/-! ## From an operation on a unit to the outcome of an instruction -/

/-- The outcome of an operation of the range decoder that returns a result. -/
def rcOutcome {α : Type} (s : State) (give : α → Result) (r : Res Rc α) : Host.Outcome State Fault Refusal :=
  match r with
  | .ok a rc => .next { s with rc := rc, result := give a }
  | .raise c rc => .next (takeFault c { s with rc := rc })
  | .stop f => .fault f

/-- The outcome of an operation of the window that returns a result. -/
def owOutcome {α : Type} (s : State) (give : α → Result) (r : Res Ow α) : Host.Outcome State Fault Refusal :=
  match r with
  | .ok a o => .next { s with ow := o, result := give a }
  | .raise c o => .next (takeFault c { s with ow := o })
  | .stop f => .fault f

/-- The outcome of an operation of the range decoder that returns nothing to the host: `RC.INIT` of a run. -/
def rcContinue {α : Type} (s : State) (r : Res Rc α) : Host.Outcome State Fault Refusal :=
  match r with
  | .ok _ rc => .next { s with rc := rc }
  | .raise c rc => .next (takeFault c { s with rc := rc })
  | .stop f => .fault f

/-- The outcome of a row of the distance field: `DIST.DEC`'s answer for the value spelled (R186). -/
def distanceOutcome (v : Word) (s : State) : Host.Outcome State Fault Refusal :=
  match distResult v s with
  | .ok r s => .next { s with result := r }
  | .raise c s => .next (takeFault c s)
  | .stop f => .fault f

/-- The outcome of a literal (R200, R201). -/
def putLiteral (b : Byte) (s : State) : State :=
  { s with ow := owPut b s.ow
           seq := { s.seq with pos := s.seq.pos + 1, prev := b, state := afterLiteral s.seq.state } }

/-- The registers after a match: the distances moved back by one, `STATE` in the match column (R202). -/
def matchSeq (q : Seq) : Seq :=
  { q with rep3 := q.rep2, rep2 := q.rep1, rep1 := q.rep0, state := afterMatch q.state }

/-- The registers after a repeat, before the distances move: `STATE` in the long repeat column (R204 to R207). -/
def longRepSeq (q : Seq) : Seq := { q with state := afterLongRep q.state }

/-- An `EOS` and the end of the run it is (R208, R197). -/
def endByMarker (s : State) : State :=
  endRun { s with seq := { matchSeq s.seq with rep0 := Config.endMarkerDistance }, endMarker := true }

/-- The outcome of a symbol's tail, `VALIDATE_AND_COPY(len)` with the registers `q` the symbol has set (R209). -/
def copyOutcome (len : Nat) (q : Seq) (s : State) : Host.Outcome State Fault Refusal :=
  match validateAndCopy len q s.ow with
  | .ok q' o => .next { s with seq := q', ow := o }
  | .raise c o => .next (takeFault c { s with seq := q, ow := o })
  | .stop f => .fault f

end Sys2Proof.Machine
end

