-- ==== Sys2Proof/Machine/Checksum.lean ====
section
/-! DEFINITION. The meanings of the checksum framer's operations (spec/47_checksum_frame.md). `CF.ATTACH` is the
encoder side; its rule gives its result, and it changes no register. -/

namespace Sys2Proof.Machine

/-- `CRC32(X)` (R232). -/
def execCrc32 (x : List Byte) (s : State) : Host.Outcome State Fault Refusal :=
  .next { s with result := .word (crc32 x) }

/-- `CF.STRIP(Y)` (R234). -/
def execCfStrip (y : List Byte) (s : State) : Host.Outcome State Fault Refusal :=
  .next { s with cf := cfStrip y, result := .none }

/-- `CF.ATTACH(X)` (R236). -/
def execCfAttach (x : List Byte) (s : State) : Host.Outcome State Fault Refusal :=
  .next { s with result := .bytes (cfAttach x) }

end Sys2Proof.Machine
end

