-- ==== Sys2Proof/Machine/Commands.lean ====
section
/-! DEFINITION. The meanings of the three host commands (spec/48_host_commands.md). -/

namespace Sys2Proof.Machine

/-- `RESET` (R241): accepted in every run state. -/
def execReset (s : State) : Host.Outcome State Fault Refusal := .next (resetCommand s)

/-- `START` (R242): ignored during a run; else the init phase, then `RC.INIT`, the first operation of the run (R197).
The symbols follow, one a step (R196). -/
def execStart (s : State) : Host.Outcome State Fault Refusal :=
  if s.runState = .run then .next s
  else rcContinue (initPhase s) (rcInit (initPhase s).input (initPhase s).rc)

/-- `STRIP` (R243): accepted only after a run that did not fault. -/
def execStrip (s : State) : Host.Outcome State Fault Refusal :=
  if s.runState = .done then .next { s with cf := cfStrip s.ow.sink } else .next s

end Sys2Proof.Machine
end

