-- ==== Sys2Proof/Machine/Fields.lean ====
section
/-! DEFINITION. The meanings of the rows that expand the fields of a symbol: the length field
(spec/42_length_decoder.md R151) and the slot with its distance extension (spec/45_distance_decoder.md R186). A row
returns the value its decisions spell to whoever asked for the field. -/

namespace Sys2Proof.Machine

/-- `LEN.low`: field values 0 to 7. -/
def execLenLow (l : BitVec 3) (s : State) : Host.Outcome State Fault Refusal :=
  .next { s with result := .number l.toNat }

/-- `LEN.mid`: field values 8 to 15. -/
def execLenMid (m : BitVec 3) (s : State) : Host.Outcome State Fault Refusal :=
  .next { s with result := .number (8 + m.toNat) }

/-- `LEN.high`: field values 16 to 271. -/
def execLenHigh (h : BitVec 8) (s : State) : Host.Outcome State Fault Refusal :=
  .next { s with result := .number (16 + h.toNat) }

/-! Slots 0 to 3: the slot is the distance. -/

/-- `DX.slot0`. -/
def execDxSlot0 (s : State) : Host.Outcome State Fault Refusal :=
  distanceOutcome (distWord 0 0 0) s

/-- `DX.slot1`. -/
def execDxSlot1 (s : State) : Host.Outcome State Fault Refusal :=
  distanceOutcome (distWord 1 0 0) s

/-- `DX.slot2`. -/
def execDxSlot2 (s : State) : Host.Outcome State Fault Refusal :=
  distanceOutcome (distWord 2 0 0) s

/-- `DX.slot3`. -/
def execDxSlot3 (s : State) : Host.Outcome State Fault Refusal :=
  distanceOutcome (distWord 3 0 0) s

/-! Slots 4 to 13: the low bits come from a reverse tree, `r`. -/

/-- `DX.slot4`. -/
def execDxSlot4 (r : BitVec 1) (s : State) : Host.Outcome State Fault Refusal :=
  distanceOutcome (distWord 4 r.toNat 0) s

/-- `DX.slot5`. -/
def execDxSlot5 (r : BitVec 1) (s : State) : Host.Outcome State Fault Refusal :=
  distanceOutcome (distWord 5 r.toNat 0) s

/-- `DX.slot6`. -/
def execDxSlot6 (r : BitVec 2) (s : State) : Host.Outcome State Fault Refusal :=
  distanceOutcome (distWord 6 r.toNat 0) s

/-- `DX.slot7`. -/
def execDxSlot7 (r : BitVec 2) (s : State) : Host.Outcome State Fault Refusal :=
  distanceOutcome (distWord 7 r.toNat 0) s

/-- `DX.slot8`. -/
def execDxSlot8 (r : BitVec 3) (s : State) : Host.Outcome State Fault Refusal :=
  distanceOutcome (distWord 8 r.toNat 0) s

/-- `DX.slot9`. -/
def execDxSlot9 (r : BitVec 3) (s : State) : Host.Outcome State Fault Refusal :=
  distanceOutcome (distWord 9 r.toNat 0) s

/-- `DX.slot10`. -/
def execDxSlot10 (r : BitVec 4) (s : State) : Host.Outcome State Fault Refusal :=
  distanceOutcome (distWord 10 r.toNat 0) s

/-- `DX.slot11`. -/
def execDxSlot11 (r : BitVec 4) (s : State) : Host.Outcome State Fault Refusal :=
  distanceOutcome (distWord 11 r.toNat 0) s

/-- `DX.slot12`. -/
def execDxSlot12 (r : BitVec 5) (s : State) : Host.Outcome State Fault Refusal :=
  distanceOutcome (distWord 12 r.toNat 0) s

/-- `DX.slot13`. -/
def execDxSlot13 (r : BitVec 5) (s : State) : Host.Outcome State Fault Refusal :=
  distanceOutcome (distWord 13 r.toNat 0) s

/-! Slots 14 to 63: direct bits `d`, then alignment bits `a`. -/

/-- `DX.slot14`. -/
def execDxSlot14 (d : BitVec 2) (a : BitVec 4) (s : State) : Host.Outcome State Fault Refusal :=
  distanceOutcome (distWord 14 d.toNat a.toNat) s

/-- `DX.slot15`. -/
def execDxSlot15 (d : BitVec 2) (a : BitVec 4) (s : State) : Host.Outcome State Fault Refusal :=
  distanceOutcome (distWord 15 d.toNat a.toNat) s

/-- `DX.slot16`. -/
def execDxSlot16 (d : BitVec 3) (a : BitVec 4) (s : State) : Host.Outcome State Fault Refusal :=
  distanceOutcome (distWord 16 d.toNat a.toNat) s

/-- `DX.slot17`. -/
def execDxSlot17 (d : BitVec 3) (a : BitVec 4) (s : State) : Host.Outcome State Fault Refusal :=
  distanceOutcome (distWord 17 d.toNat a.toNat) s

/-- `DX.slot18`. -/
def execDxSlot18 (d : BitVec 4) (a : BitVec 4) (s : State) : Host.Outcome State Fault Refusal :=
  distanceOutcome (distWord 18 d.toNat a.toNat) s

/-- `DX.slot19`. -/
def execDxSlot19 (d : BitVec 4) (a : BitVec 4) (s : State) : Host.Outcome State Fault Refusal :=
  distanceOutcome (distWord 19 d.toNat a.toNat) s

/-- `DX.slot20`. -/
def execDxSlot20 (d : BitVec 5) (a : BitVec 4) (s : State) : Host.Outcome State Fault Refusal :=
  distanceOutcome (distWord 20 d.toNat a.toNat) s

/-- `DX.slot21`. -/
def execDxSlot21 (d : BitVec 5) (a : BitVec 4) (s : State) : Host.Outcome State Fault Refusal :=
  distanceOutcome (distWord 21 d.toNat a.toNat) s

/-- `DX.slot22`. -/
def execDxSlot22 (d : BitVec 6) (a : BitVec 4) (s : State) : Host.Outcome State Fault Refusal :=
  distanceOutcome (distWord 22 d.toNat a.toNat) s

/-- `DX.slot23`. -/
def execDxSlot23 (d : BitVec 6) (a : BitVec 4) (s : State) : Host.Outcome State Fault Refusal :=
  distanceOutcome (distWord 23 d.toNat a.toNat) s

/-- `DX.slot24`. -/
def execDxSlot24 (d : BitVec 7) (a : BitVec 4) (s : State) : Host.Outcome State Fault Refusal :=
  distanceOutcome (distWord 24 d.toNat a.toNat) s

/-- `DX.slot25`. -/
def execDxSlot25 (d : BitVec 7) (a : BitVec 4) (s : State) : Host.Outcome State Fault Refusal :=
  distanceOutcome (distWord 25 d.toNat a.toNat) s

/-- `DX.slot26`. -/
def execDxSlot26 (d : BitVec 8) (a : BitVec 4) (s : State) : Host.Outcome State Fault Refusal :=
  distanceOutcome (distWord 26 d.toNat a.toNat) s

/-- `DX.slot27`. -/
def execDxSlot27 (d : BitVec 8) (a : BitVec 4) (s : State) : Host.Outcome State Fault Refusal :=
  distanceOutcome (distWord 27 d.toNat a.toNat) s

/-- `DX.slot28`. -/
def execDxSlot28 (d : BitVec 9) (a : BitVec 4) (s : State) : Host.Outcome State Fault Refusal :=
  distanceOutcome (distWord 28 d.toNat a.toNat) s

/-- `DX.slot29`. -/
def execDxSlot29 (d : BitVec 9) (a : BitVec 4) (s : State) : Host.Outcome State Fault Refusal :=
  distanceOutcome (distWord 29 d.toNat a.toNat) s

/-- `DX.slot30`. -/
def execDxSlot30 (d : BitVec 10) (a : BitVec 4) (s : State) : Host.Outcome State Fault Refusal :=
  distanceOutcome (distWord 30 d.toNat a.toNat) s

/-- `DX.slot31`. -/
def execDxSlot31 (d : BitVec 10) (a : BitVec 4) (s : State) : Host.Outcome State Fault Refusal :=
  distanceOutcome (distWord 31 d.toNat a.toNat) s

/-- `DX.slot32`. -/
def execDxSlot32 (d : BitVec 11) (a : BitVec 4) (s : State) : Host.Outcome State Fault Refusal :=
  distanceOutcome (distWord 32 d.toNat a.toNat) s

/-- `DX.slot33`. -/
def execDxSlot33 (d : BitVec 11) (a : BitVec 4) (s : State) : Host.Outcome State Fault Refusal :=
  distanceOutcome (distWord 33 d.toNat a.toNat) s

/-- `DX.slot34`. -/
def execDxSlot34 (d : BitVec 12) (a : BitVec 4) (s : State) : Host.Outcome State Fault Refusal :=
  distanceOutcome (distWord 34 d.toNat a.toNat) s

/-- `DX.slot35`. -/
def execDxSlot35 (d : BitVec 12) (a : BitVec 4) (s : State) : Host.Outcome State Fault Refusal :=
  distanceOutcome (distWord 35 d.toNat a.toNat) s

/-- `DX.slot36`. -/
def execDxSlot36 (d : BitVec 13) (a : BitVec 4) (s : State) : Host.Outcome State Fault Refusal :=
  distanceOutcome (distWord 36 d.toNat a.toNat) s

/-- `DX.slot37`. -/
def execDxSlot37 (d : BitVec 13) (a : BitVec 4) (s : State) : Host.Outcome State Fault Refusal :=
  distanceOutcome (distWord 37 d.toNat a.toNat) s

/-- `DX.slot38`. -/
def execDxSlot38 (d : BitVec 14) (a : BitVec 4) (s : State) : Host.Outcome State Fault Refusal :=
  distanceOutcome (distWord 38 d.toNat a.toNat) s

/-- `DX.slot39`. -/
def execDxSlot39 (d : BitVec 14) (a : BitVec 4) (s : State) : Host.Outcome State Fault Refusal :=
  distanceOutcome (distWord 39 d.toNat a.toNat) s

/-- `DX.slot40`. -/
def execDxSlot40 (d : BitVec 15) (a : BitVec 4) (s : State) : Host.Outcome State Fault Refusal :=
  distanceOutcome (distWord 40 d.toNat a.toNat) s

/-- `DX.slot41`. -/
def execDxSlot41 (d : BitVec 15) (a : BitVec 4) (s : State) : Host.Outcome State Fault Refusal :=
  distanceOutcome (distWord 41 d.toNat a.toNat) s

/-- `DX.slot42`. -/
def execDxSlot42 (d : BitVec 16) (a : BitVec 4) (s : State) : Host.Outcome State Fault Refusal :=
  distanceOutcome (distWord 42 d.toNat a.toNat) s

/-- `DX.slot43`. -/
def execDxSlot43 (d : BitVec 16) (a : BitVec 4) (s : State) : Host.Outcome State Fault Refusal :=
  distanceOutcome (distWord 43 d.toNat a.toNat) s

/-- `DX.slot44`. -/
def execDxSlot44 (d : BitVec 17) (a : BitVec 4) (s : State) : Host.Outcome State Fault Refusal :=
  distanceOutcome (distWord 44 d.toNat a.toNat) s

/-- `DX.slot45`. -/
def execDxSlot45 (d : BitVec 17) (a : BitVec 4) (s : State) : Host.Outcome State Fault Refusal :=
  distanceOutcome (distWord 45 d.toNat a.toNat) s

/-- `DX.slot46`. -/
def execDxSlot46 (d : BitVec 18) (a : BitVec 4) (s : State) : Host.Outcome State Fault Refusal :=
  distanceOutcome (distWord 46 d.toNat a.toNat) s

/-- `DX.slot47`. -/
def execDxSlot47 (d : BitVec 18) (a : BitVec 4) (s : State) : Host.Outcome State Fault Refusal :=
  distanceOutcome (distWord 47 d.toNat a.toNat) s

/-- `DX.slot48`. -/
def execDxSlot48 (d : BitVec 19) (a : BitVec 4) (s : State) : Host.Outcome State Fault Refusal :=
  distanceOutcome (distWord 48 d.toNat a.toNat) s

/-- `DX.slot49`. -/
def execDxSlot49 (d : BitVec 19) (a : BitVec 4) (s : State) : Host.Outcome State Fault Refusal :=
  distanceOutcome (distWord 49 d.toNat a.toNat) s

/-- `DX.slot50`. -/
def execDxSlot50 (d : BitVec 20) (a : BitVec 4) (s : State) : Host.Outcome State Fault Refusal :=
  distanceOutcome (distWord 50 d.toNat a.toNat) s

/-- `DX.slot51`. -/
def execDxSlot51 (d : BitVec 20) (a : BitVec 4) (s : State) : Host.Outcome State Fault Refusal :=
  distanceOutcome (distWord 51 d.toNat a.toNat) s

/-- `DX.slot52`. -/
def execDxSlot52 (d : BitVec 21) (a : BitVec 4) (s : State) : Host.Outcome State Fault Refusal :=
  distanceOutcome (distWord 52 d.toNat a.toNat) s

/-- `DX.slot53`. -/
def execDxSlot53 (d : BitVec 21) (a : BitVec 4) (s : State) : Host.Outcome State Fault Refusal :=
  distanceOutcome (distWord 53 d.toNat a.toNat) s

/-- `DX.slot54`. -/
def execDxSlot54 (d : BitVec 22) (a : BitVec 4) (s : State) : Host.Outcome State Fault Refusal :=
  distanceOutcome (distWord 54 d.toNat a.toNat) s

/-- `DX.slot55`. -/
def execDxSlot55 (d : BitVec 22) (a : BitVec 4) (s : State) : Host.Outcome State Fault Refusal :=
  distanceOutcome (distWord 55 d.toNat a.toNat) s

/-- `DX.slot56`. -/
def execDxSlot56 (d : BitVec 23) (a : BitVec 4) (s : State) : Host.Outcome State Fault Refusal :=
  distanceOutcome (distWord 56 d.toNat a.toNat) s

/-- `DX.slot57`. -/
def execDxSlot57 (d : BitVec 23) (a : BitVec 4) (s : State) : Host.Outcome State Fault Refusal :=
  distanceOutcome (distWord 57 d.toNat a.toNat) s

/-- `DX.slot58`. -/
def execDxSlot58 (d : BitVec 24) (a : BitVec 4) (s : State) : Host.Outcome State Fault Refusal :=
  distanceOutcome (distWord 58 d.toNat a.toNat) s

/-- `DX.slot59`. -/
def execDxSlot59 (d : BitVec 24) (a : BitVec 4) (s : State) : Host.Outcome State Fault Refusal :=
  distanceOutcome (distWord 59 d.toNat a.toNat) s

/-- `DX.slot60`. -/
def execDxSlot60 (d : BitVec 25) (a : BitVec 4) (s : State) : Host.Outcome State Fault Refusal :=
  distanceOutcome (distWord 60 d.toNat a.toNat) s

/-- `DX.slot61`. -/
def execDxSlot61 (d : BitVec 25) (a : BitVec 4) (s : State) : Host.Outcome State Fault Refusal :=
  distanceOutcome (distWord 61 d.toNat a.toNat) s

/-- `DX.slot62`. -/
def execDxSlot62 (d : BitVec 26) (a : BitVec 4) (s : State) : Host.Outcome State Fault Refusal :=
  distanceOutcome (distWord 62 d.toNat a.toNat) s

/-- `DX.slot63`. -/
def execDxSlot63 (d : BitVec 26) (a : BitVec 4) (s : State) : Host.Outcome State Fault Refusal :=
  distanceOutcome (distWord 63 d.toNat a.toNat) s

end Sys2Proof.Machine
end

