-- ==== Sys2Proof/Machine/Symbols.lean ====
section
/-! DEFINITION. The meanings of the nine symbols (spec/46_lzma_sequencer.md). A symbol's decisions have been read by
the fetch (Machine/Fetch.lean, log 10); its operands are what they spelled; the meaning is the rest of the rule. -/

namespace Sys2Proof.Machine

/-- `LIT` (R200). -/
def execLit (b : Byte) (s : State) : Host.Outcome State Fault Refusal := .next (putLiteral b s)

/-- `LITM` (R201). -/
def execLitm (b : Byte) (s : State) : Host.Outcome State Fault Refusal := .next (putLiteral b s)

/-- `MATCH` (R202): a distance with bit 31 set is invalid (R253), but `0xFFFFFFFF` is the end marker (R208). -/
def execNewMatch (len : Nat) (dist : Word) (s : State) : Host.Outcome State Fault Refusal :=
  if dist = Config.endMarkerDistance then .next (endByMarker s)
  else if dist.toNat < 2 ^ 31 then copyOutcome len { matchSeq s.seq with rep0 := dist } s
  else .next (takeFault .invalidDistance { s with seq := matchSeq s.seq })

/-- `EOS` (R208), whatever the length it spells. -/
def execEos (_len : Nat) (s : State) : Host.Outcome State Fault Refusal := .next (endByMarker s)

/-- `SHORTREP` (R203). -/
def execShortrep (s : State) : Host.Outcome State Fault Refusal :=
  copyOutcome 1 { s.seq with state := afterShortRep s.seq.state } s

/-- `REP0` (R204). -/
def execRep0 (len : Nat) (s : State) : Host.Outcome State Fault Refusal := copyOutcome len (longRepSeq s.seq) s

/-- `REP1` (R205). -/
def execRep1 (len : Nat) (s : State) : Host.Outcome State Fault Refusal :=
  copyOutcome len { longRepSeq s.seq with rep0 := s.seq.rep1, rep1 := s.seq.rep0 } s

/-- `REP2` (R206). -/
def execRep2 (len : Nat) (s : State) : Host.Outcome State Fault Refusal :=
  copyOutcome len { longRepSeq s.seq with rep0 := s.seq.rep2, rep1 := s.seq.rep0, rep2 := s.seq.rep1 } s

/-- `REP3` (R207). -/
def execRep3 (len : Nat) (s : State) : Host.Outcome State Fault Refusal :=
  copyOutcome len
    { longRepSeq s.seq with rep0 := s.seq.rep3, rep1 := s.seq.rep0, rep2 := s.seq.rep1, rep3 := s.seq.rep2 } s

end Sys2Proof.Machine
end

