-- ==== Sys2Proof/Machine/Units.lean ====
section
/-! DEFINITION. The meanings of the unit operations of the range decoder, the bit trees and the length, literal and
distance decoders (spec/40 to 43, 45). Inside a symbol they are called by name; as an instruction one acts at the
unit's own interface, on the state as it stands, and leaves its result in `State.result` (log 9, log 12). -/

namespace Sys2Proof.Machine

/-- `RC.INIT` (R121). -/
def execRcInit (s : State) : Host.Outcome State Fault Refusal := rcOutcome s (fun _ => .none) (rcInit s.input s.rc)

/-- `RC.NORM` (R122). -/
def execRcNorm (s : State) : Host.Outcome State Fault Refusal := rcOutcome s (fun _ => .none) (rcNorm s.input s.rc)

/-- `RC.BIT(a)` (R124). -/
def execRcBit (a : Nat) (s : State) : Host.Outcome State Fault Refusal := rcOutcome s .bit (rcBit s.input a s.rc)

/-- `RC.DIRECT(n)` (R126). -/
def execRcDirect (n : Nat) (s : State) : Host.Outcome State Fault Refusal := rcOutcome s .number (rcDirect s.input n s.rc)

/-- `BT.DEC(base, n)` (R142). -/
def execBtDec (base n : Nat) (s : State) : Host.Outcome State Fault Refusal :=
  rcOutcome s .number (btDec s.input base n s.rc)

/-- `BT.RDEC(base, n)` (R143). -/
def execBtRdec (base n : Nat) (s : State) : Host.Outcome State Fault Refusal :=
  rcOutcome s .number (btRdec s.input base n s.rc)

/-- `LEN.DEC(T, ps)` (R151). -/
def execLenDec (t : LenTable) (ps : Fin 4) (s : State) : Host.Outcome State Fault Refusal :=
  rcOutcome s .number (lenDec s.input t ps s.rc)

/-- `LIT.NORMAL(base)` (R162). -/
def execLitNormal (base : Nat) (s : State) : Host.Outcome State Fault Refusal :=
  rcOutcome s .byte (litNormal s.input base s.rc)

/-- `LIT.MATCHED(base, mb)` (R163). -/
def execLitMatched (base : Nat) (mb : Byte) (s : State) : Host.Outcome State Fault Refusal :=
  rcOutcome s .byte (litMatched s.input base mb s.rc)

/-- `DIST.DEC(len)` (R186). -/
def execDistDec (len : Nat) (s : State) : Host.Outcome State Fault Refusal := rcOutcome s id (distDec s.input len s.rc)

end Sys2Proof.Machine
end

