-- ==== Sys2Proof/Machine/Window.lean ====
section
/-! DEFINITION. The meanings of the operations of the output window (spec/44_output_window.md), acting at the unit's
own interface (log 9). -/

namespace Sys2Proof.Machine

/-- `OW.PUT(b)` (R171). -/
def execOwPut (b : Byte) (s : State) : Host.Outcome State Fault Refusal :=
  .next { s with ow := owPut b s.ow, result := .none }

/-- `OW.FLUSH` (R172). -/
def execOwFlush (s : State) : Host.Outcome State Fault Refusal := .next { s with ow := owFlush s.ow, result := .none }

/-- `OW.GET(d)` (R173, R174). -/
def execOwGet (d : Word) (s : State) : Host.Outcome State Fault Refusal := owOutcome s .byte (owGet d s.ow)

/-- `OW.COPY(d, len)` (R176). -/
def execOwCopy (d : Word) (len : Nat) (s : State) : Host.Outcome State Fault Refusal :=
  owOutcome s (fun _ => .none) (owCopy d len s.ow)

end Sys2Proof.Machine
end

