-- ==== Sys2Proof/Machine/Dispatch.lean ====
section
/-! DEFINITION. The dispatch of an instruction to its meaning: one arm per constructor. -/

namespace Sys2Proof.Machine

def exec (i : Instr) (s : State) : Host.Outcome State Fault Refusal :=
  match i with
  | .lit b => Sys2Proof.Machine.execLit b s
  | .litm b => Sys2Proof.Machine.execLitm b s
  | .newMatch len dist => Sys2Proof.Machine.execNewMatch len dist s
  | .eos len => Sys2Proof.Machine.execEos len s
  | .shortrep => Sys2Proof.Machine.execShortrep s
  | .rep0 len => Sys2Proof.Machine.execRep0 len s
  | .rep1 len => Sys2Proof.Machine.execRep1 len s
  | .rep2 len => Sys2Proof.Machine.execRep2 len s
  | .rep3 len => Sys2Proof.Machine.execRep3 len s
  | .lenLow l => Sys2Proof.Machine.execLenLow l s
  | .lenMid m => Sys2Proof.Machine.execLenMid m s
  | .lenHigh h => Sys2Proof.Machine.execLenHigh h s
  | .dxSlot0 => Sys2Proof.Machine.execDxSlot0 s
  | .dxSlot1 => Sys2Proof.Machine.execDxSlot1 s
  | .dxSlot2 => Sys2Proof.Machine.execDxSlot2 s
  | .dxSlot3 => Sys2Proof.Machine.execDxSlot3 s
  | .dxSlot4 r => Sys2Proof.Machine.execDxSlot4 r s
  | .dxSlot5 r => Sys2Proof.Machine.execDxSlot5 r s
  | .dxSlot6 r => Sys2Proof.Machine.execDxSlot6 r s
  | .dxSlot7 r => Sys2Proof.Machine.execDxSlot7 r s
  | .dxSlot8 r => Sys2Proof.Machine.execDxSlot8 r s
  | .dxSlot9 r => Sys2Proof.Machine.execDxSlot9 r s
  | .dxSlot10 r => Sys2Proof.Machine.execDxSlot10 r s
  | .dxSlot11 r => Sys2Proof.Machine.execDxSlot11 r s
  | .dxSlot12 r => Sys2Proof.Machine.execDxSlot12 r s
  | .dxSlot13 r => Sys2Proof.Machine.execDxSlot13 r s
  | .dxSlot14 d a => Sys2Proof.Machine.execDxSlot14 d a s
  | .dxSlot15 d a => Sys2Proof.Machine.execDxSlot15 d a s
  | .dxSlot16 d a => Sys2Proof.Machine.execDxSlot16 d a s
  | .dxSlot17 d a => Sys2Proof.Machine.execDxSlot17 d a s
  | .dxSlot18 d a => Sys2Proof.Machine.execDxSlot18 d a s
  | .dxSlot19 d a => Sys2Proof.Machine.execDxSlot19 d a s
  | .dxSlot20 d a => Sys2Proof.Machine.execDxSlot20 d a s
  | .dxSlot21 d a => Sys2Proof.Machine.execDxSlot21 d a s
  | .dxSlot22 d a => Sys2Proof.Machine.execDxSlot22 d a s
  | .dxSlot23 d a => Sys2Proof.Machine.execDxSlot23 d a s
  | .dxSlot24 d a => Sys2Proof.Machine.execDxSlot24 d a s
  | .dxSlot25 d a => Sys2Proof.Machine.execDxSlot25 d a s
  | .dxSlot26 d a => Sys2Proof.Machine.execDxSlot26 d a s
  | .dxSlot27 d a => Sys2Proof.Machine.execDxSlot27 d a s
  | .dxSlot28 d a => Sys2Proof.Machine.execDxSlot28 d a s
  | .dxSlot29 d a => Sys2Proof.Machine.execDxSlot29 d a s
  | .dxSlot30 d a => Sys2Proof.Machine.execDxSlot30 d a s
  | .dxSlot31 d a => Sys2Proof.Machine.execDxSlot31 d a s
  | .dxSlot32 d a => Sys2Proof.Machine.execDxSlot32 d a s
  | .dxSlot33 d a => Sys2Proof.Machine.execDxSlot33 d a s
  | .dxSlot34 d a => Sys2Proof.Machine.execDxSlot34 d a s
  | .dxSlot35 d a => Sys2Proof.Machine.execDxSlot35 d a s
  | .dxSlot36 d a => Sys2Proof.Machine.execDxSlot36 d a s
  | .dxSlot37 d a => Sys2Proof.Machine.execDxSlot37 d a s
  | .dxSlot38 d a => Sys2Proof.Machine.execDxSlot38 d a s
  | .dxSlot39 d a => Sys2Proof.Machine.execDxSlot39 d a s
  | .dxSlot40 d a => Sys2Proof.Machine.execDxSlot40 d a s
  | .dxSlot41 d a => Sys2Proof.Machine.execDxSlot41 d a s
  | .dxSlot42 d a => Sys2Proof.Machine.execDxSlot42 d a s
  | .dxSlot43 d a => Sys2Proof.Machine.execDxSlot43 d a s
  | .dxSlot44 d a => Sys2Proof.Machine.execDxSlot44 d a s
  | .dxSlot45 d a => Sys2Proof.Machine.execDxSlot45 d a s
  | .dxSlot46 d a => Sys2Proof.Machine.execDxSlot46 d a s
  | .dxSlot47 d a => Sys2Proof.Machine.execDxSlot47 d a s
  | .dxSlot48 d a => Sys2Proof.Machine.execDxSlot48 d a s
  | .dxSlot49 d a => Sys2Proof.Machine.execDxSlot49 d a s
  | .dxSlot50 d a => Sys2Proof.Machine.execDxSlot50 d a s
  | .dxSlot51 d a => Sys2Proof.Machine.execDxSlot51 d a s
  | .dxSlot52 d a => Sys2Proof.Machine.execDxSlot52 d a s
  | .dxSlot53 d a => Sys2Proof.Machine.execDxSlot53 d a s
  | .dxSlot54 d a => Sys2Proof.Machine.execDxSlot54 d a s
  | .dxSlot55 d a => Sys2Proof.Machine.execDxSlot55 d a s
  | .dxSlot56 d a => Sys2Proof.Machine.execDxSlot56 d a s
  | .dxSlot57 d a => Sys2Proof.Machine.execDxSlot57 d a s
  | .dxSlot58 d a => Sys2Proof.Machine.execDxSlot58 d a s
  | .dxSlot59 d a => Sys2Proof.Machine.execDxSlot59 d a s
  | .dxSlot60 d a => Sys2Proof.Machine.execDxSlot60 d a s
  | .dxSlot61 d a => Sys2Proof.Machine.execDxSlot61 d a s
  | .dxSlot62 d a => Sys2Proof.Machine.execDxSlot62 d a s
  | .dxSlot63 d a => Sys2Proof.Machine.execDxSlot63 d a s
  | .rcInit => Sys2Proof.Machine.execRcInit s
  | .rcNorm => Sys2Proof.Machine.execRcNorm s
  | .rcBit a => Sys2Proof.Machine.execRcBit a s
  | .rcDirect n => Sys2Proof.Machine.execRcDirect n s
  | .btDec base n => Sys2Proof.Machine.execBtDec base n s
  | .btRdec base n => Sys2Proof.Machine.execBtRdec base n s
  | .lenDec t ps => Sys2Proof.Machine.execLenDec t ps s
  | .litNormal base => Sys2Proof.Machine.execLitNormal base s
  | .litMatched base mb => Sys2Proof.Machine.execLitMatched base mb s
  | .distDec len => Sys2Proof.Machine.execDistDec len s
  | .owPut b => Sys2Proof.Machine.execOwPut b s
  | .owFlush => Sys2Proof.Machine.execOwFlush s
  | .owGet d => Sys2Proof.Machine.execOwGet d s
  | .owCopy d len => Sys2Proof.Machine.execOwCopy d len s
  | .crc32 x => Sys2Proof.Machine.execCrc32 x s
  | .cfStrip y => Sys2Proof.Machine.execCfStrip y s
  | .cfAttach x => Sys2Proof.Machine.execCfAttach x s
  | .reset => Sys2Proof.Machine.execReset s
  | .start => Sys2Proof.Machine.execStart s
  | .strip => Sys2Proof.Machine.execStrip s

end Sys2Proof.Machine
end

