-- ==== Sys2Proof/Machine/Fetch.lean ====
section
/-! DEFINITION. The fetch of a symbol: LZD has no instruction memory but `IN` (spec/20_memory.md R77), and a symbol
has no bytes of its own in it (spec/30_encoding.md R90); the range decoder spells it decision by decision. The fetch is
the dispatch of R198 with the field decoders that the rules of the symbols call: all of a symbol's decisions, which
precede all of its other effects (R261; log 10). -/

namespace Sys2Proof.Machine

/-- The byte of a literal: plain in a char state (R200), else against the byte at distance `REP0` (R201). -/
def fetchLiteral (inp : List Byte) (q : Seq) (o : Ow) (r : Rc) : Res Rc Instr :=
  if charState q.state then
    (litNormal inp (litBase q.pos q.prev) r).bind fun b r => .ok (.lit b) r
  else
    match owGet q.rep0 o with
    | .ok mb _ => (litMatched inp (litBase q.pos q.prev) mb r).bind fun b r => .ok (.litm b) r
    | .raise c _ => .raise c r
    | .stop f => .stop f

/-- The length and the distance of a new match (R202); the distance `0xFFFFFFFF` makes it an `EOS` (R208). -/
def fetchMatch (inp : List Byte) (ps : Fin 4) (r : Rc) : Res Rc Instr :=
  (lenDec inp .len ps r).bind fun v r =>
    (distParts inp (Config.matchMinLen + v) r).bind fun p r =>
      let d := distWord p.1 p.2.1 p.2.2
      .ok (if d = Config.endMarkerDistance then .eos (Config.matchMinLen + v)
           else .newMatch (Config.matchMinLen + v) d) r

/-- The length of a repeat (R204 to R207). -/
def fetchRep (inp : List Byte) (ps : Fin 4) (make : Nat → Instr) (r : Rc) : Res Rc Instr :=
  (lenDec inp .repLen ps r).bind fun v r => .ok (make (Config.matchMinLen + v)) r

/-- Which repeat (R198). -/
def fetchRepeat (inp : List Byte) (st : BitVec 4) (ps : Fin 4) (r : Rc) : Res Rc Instr :=
  (rcBit inp (isRepG0Cell st) r).bind fun g0 r =>
    match g0 with
    | false =>
      (rcBit inp (isRep0LongCell st ps) r).bind fun long r =>
        match long with
        | false => .ok .shortrep r
        | true => fetchRep inp ps .rep0 r
    | true =>
      (rcBit inp (isRepG1Cell st) r).bind fun g1 r =>
        match g1 with
        | false => fetchRep inp ps .rep1 r
        | true =>
          (rcBit inp (isRepG2Cell st) r).bind fun g2 r =>
            match g2 with
            | false => fetchRep inp ps .rep2 r
            | true => fetchRep inp ps .rep3 r

/-- The dispatch of R198 on the registers sampled at the start of the symbol (R196). -/
def fetchSymbolFrom (inp : List Byte) (q : Seq) (o : Ow) (r : Rc) : Res Rc Instr :=
  (rcBit inp (isMatchCell q.state (posState q.pos)) r).bind fun m r =>
    match m with
    | false => fetchLiteral inp q o r
    | true =>
      (rcBit inp (isRepCell q.state) r).bind fun rep r =>
        match rep with
        | false => fetchMatch inp (posState q.pos) r
        | true => fetchRepeat inp q.state (posState q.pos) r

/-- The next symbol of the run, and the range decoder after its decisions. -/
def fetchSymbol (s : State) : Res Rc Instr := fetchSymbolFrom s.input s.seq s.ow s.rc

/-- A length field read from the stream: the row `LEN.low`, `LEN.mid` or `LEN.high` (R99; log 9). -/
def fetchLenField (inp : List Byte) (t : LenTable) (ps : Fin 4) (r : Rc) : Res Rc Instr :=
  (lenDec inp t ps r).bind fun v r => .ok (lenFieldOf v) r

/-- A slot and its extension read from the stream: the row `DX.slot<n>` (R101; log 9). -/
def fetchDxField (inp : List Byte) (len : Nat) (r : Rc) : Res Rc Instr :=
  (distParts inp len r).bind fun p r => .ok ((dxFieldOf p.1 p.2.1 p.2.2).getD .dxSlot0) r

end Sys2Proof.Machine
end

