-- ==== Sys2Proof/Machine/Registers.lean ====
section
/-! DEFINITION. The register file as the host reads it (spec/10_state.md R43, spec/20_memory.md R70, R78). -/

namespace Sys2Proof.Machine

/-- The moving registers as they stand now, at a symbol boundary. -/
def boundaryNow (s : State) : Boundary :=
  { range := s.rc.range, code := s.rc.code, inPos := s.rc.inPos, seq := s.seq, sinkLen := s.ow.sink.length }

/-- Registers 6 to 18 (R43) at a symbol boundary. -/
def movingRead (b : Boundary) (n : Nat) : Word :=
  match n with
  | 6 => counterLo b.seq.pos
  | 7 => counterHi b.seq.pos
  | 8 => counterLo b.inPos
  | 9 => counterHi b.inPos
  | 10 => b.range
  | 11 => b.code
  | 12 => lzStateWord b.seq
  | 13 => b.seq.rep0
  | 14 => b.seq.rep1
  | 15 => b.seq.rep2
  | 16 => b.seq.rep3
  | 17 => counterLo b.sinkLen
  | 18 => counterHi b.sinkLen
  | _ => 0

/-- The boundary a read during `RUN` sees: this one or an earlier one of the run, which is not specified (R78, U15;
log 11). -/
def boundaryRead (s : State) : Boundary :=
  if s.runState = .run then
    (boundaryNow s :: s.boundaries).getD (Config.freeChoice s.draws % (s.boundaries.length + 1)) (boundaryNow s)
  else boundaryNow s

/-- Register `n` of the register file (R43); a number above 22 reads 0 (R70). `CMD` is write-only and reads 0. -/
def regRead (s : State) (n : Nat) : Word :=
  match n with
  | 0 => 0
  | 1 => statusWord s
  | 2 => BitVec.ofNat 32 s.cause.code
  | 3 => propsWord
  | 4 => BitVec.ofNat 32 Config.dictSize
  | 5 => s.outSize
  | 19 => s.cf.stored
  | 20 => s.cf.computed
  | 21 => counterLo s.cf.payload.length
  | 22 => counterHi s.cf.payload.length
  | n => movingRead (boundaryRead s) n

/-- The host reads register `n`: no side effect on the machine (R70), and the next read may see another boundary. -/
def hostRead (n : Nat) (s : State) : State := { s with hostData := regRead s n, draws := s.draws + 1 }

end Sys2Proof.Machine
end

