-- ==== Sys2Proof/Machine/Engine.lean ====
section
/-! DEFINITION. One architectural step of LZD: the engine's (spec/46_lzma_sequencer.md R197, R198) or, where an
event is pending, the host's (spec/48_host_commands.md R240, R244). -/

namespace Sys2Proof.Machine

/-- The outcome of a fetch: what the instruction does with the range decoder where the fetch left it, or the fault
the fetch raised. -/
def runFetched (f : Res Rc Instr) (s : State) : Host.Outcome State Fault Refusal :=
  match f with
  | .ok i rc => exec i { s with rc := rc }
  | .raise c rc => .next (takeFault c { s with rc := rc })
  | .stop e => .fault e

/-- This symbol boundary is past (R78; log 11). -/
def passBoundary (s : State) : State := { s with boundaries := boundaryNow s :: s.boundaries }

/-- One turn of the run loop (R197): the size test, else one symbol. Not in `RUN`, the engine does nothing (R78,
R264). -/
def engineStep (s : State) : Host.Outcome State Fault Refusal :=
  match s.runState with
  | .run => if sizeReached s then .next (endRun s) else runFetched (fetchSymbol s) (passBoundary s)
  | _ => .next s

/-- The host writes register `n`: `CMD` with a command, `OUT_SIZE` outside a run; every other write is ignored
(R43, R244). -/
def hostWrite (n : Nat) (v : Word) (s : State) : Host.Outcome State Fault Refusal :=
  match n with
  | 0 =>
    match decodeCommand v with
    | .ok i => exec i s
    | .error _ => .next s
  | 5 => if s.runState = .run then .next s else .next { s with outSize := v }
  | _ => .next s

/-- One event. -/
def handle (e : Event) (s : State) : Host.Outcome State Fault Refusal :=
  match e with
  | .engine => engineStep s
  | .write n v => hostWrite n v s
  | .read n => .next (hostRead n s)
  | .present bytes => .next { s with presented := bytes }
  | .unit i => exec i s
  | .lenField t ps => runFetched (fetchLenField s.input t ps s.rc) s
  | .dxField len => runFetched (fetchDxField s.input len s.rc) s

/-- The oldest pending event, else the engine. -/
def nextStep (s : State) : Host.Outcome State Fault Refusal :=
  match s.events with
  | [] => engineStep s
  | e :: rest => handle e { s with events := rest }

end Sys2Proof.Machine
end

