-- ==== Sys2Proof/Machine/Place.lean ====
section
/-! DEFINITION. A word of spec/opcode_table.json placed where the next step fetches: a command is a pending write to
`CMD`; a decision string is what the range decoder must find, so `IN` is made by a range encoder that mirrors
spec/40_range_decoder.md R124 and R126 from the state `START` and `RC.INIT` leave (spec/30_encoding.md R115: such an
encoder is outside the hardware; log 7, log 16). -/

namespace Sys2Proof.Machine

/-- The interval of a range encoder: its lowest number, its width, and how many bytes renormalisation has shifted
in since the first five. -/
structure Interval where
  low : Nat
  width : Nat
  bytes : Nat

/-- The interval after `RC.INIT`. -/
def fullInterval : Interval := { low := 0, width := 0xFFFFFFFF, bytes := 0 }

/-- `RC.NORM` as the encoder sees it (R122). -/
def Interval.renorm (v : Interval) : Interval :=
  if v.width < 2 ^ 24 then { low := v.low * 256, width := v.width * 256, bytes := v.bytes + 1 } else v

/-- One decision: a direct one halves the interval (R126), an adaptive one splits it at a cell that is 1024, as
every cell is after `START`; no cell is used twice in a symbol (R124). -/
def Interval.decide (v : Interval) (cell : Option Nat) (b : Bool) : Interval :=
  let cut :=
    match cell with
    | none => v.width / 2
    | some _ => v.width / Config.probOne * Config.probInit.toNat
  let upper :=
    match cell with
    | none => cut
    | some _ => v.width - cut
  (if b then { v with low := v.low + cut, width := upper } else { v with width := cut }).renorm

/-- The interval after a string of decisions in the given cells. -/
def Interval.spell (v : Interval) : List (Option Nat) → List Bool → Interval
  | c :: cs, b :: bs => (v.decide c b).spell cs bs
  | _, _ => v

/-- The `k` low bytes of a number, most significant first. -/
def beBytes : Nat → Nat → List Byte
  | 0, _ => []
  | k + 1, v => BitVec.ofNat 8 (v >>> (8 * k)) :: beBytes k v

/-- An `IN` whose first symbol makes these decisions in these cells (R91: its first byte is discarded). -/
def streamFor (cells : List (Option Nat)) (ds : List Bool) : List Byte :=
  let v := fullInterval.spell cells ds
  0 :: beBytes (4 + v.bytes) v.low

/-- The cells of a word's decisions at the start of a run: of a symbol, of a length field of `LEN` at `posState` 0,
of a slot and extension for a match of length 2. -/
def placedCells (i : Instr) : List (Option Nat) :=
  match i.lenValue?, i.dxParts? with
  | some v, _ => lenCells .len 0 v
  | none, some (slot, x, a) => dxCells 2 slot x a
  | none, none => symbolCells { st := 0, ps := 0, base := Config.literalBase, mb := 0 } i

/-- What makes the next step read the word of `i`. -/
def placedEvent (i : Instr) : Event :=
  match i.lenValue?, i.dxParts? with
  | some _, _ => .lenField .len 0
  | none, some _ => .dxField 2
  | none, none => .engine

/-- A run just started on `bytes` (R242, R121), with the size unknown: `IN_POS` is 5 and `CODE` holds bytes 1 to 4. -/
def startedOn (bytes : List Byte) (s : State) : State :=
  { s with
    rc := { range := 0xFFFFFFFF, code := (bytes.take 5).foldl shiftIn 0, inPos := 5,
            pmem := { base := .init, cells := [] } }
    seq := { state := 0, rep0 := 0, rep1 := 0, rep2 := 0, rep3 := 0, pos := 0, prev := 0 }
    ow := { s.ow with wpos := 0, spos := 0, total := 0, sink := [] }
    runState := .run
    cause := .none
    outSize := 0xFFFFFFFF
    input := bytes
    presented := bytes }

/-- The word whose `nbits` bits are `w`, where the next step fetches. A word the decoder refuses changes nothing. -/
def placeWord (s : State) (nbits w : Nat) : State :=
  match decodeTableWord nbits w with
  | none => s
  | some i =>
    match encode i with
    | .command v => { s with events := .write 0 v :: s.events }
    | .decisions ds => { startedOn (streamFor (placedCells i) ds) s with events := placedEvent i :: s.events }
    | .unit => s

end Sys2Proof.Machine
end

