-- ==== Sys2Proof/Machine/Step.lean ====
section
/-! DEFINITION. The step of LZD, and a word placed where the step fetches. -/

namespace Sys2Proof.Machine

/-- One step: the oldest pending event, else the engine's turn (Machine/Engine.lean). -/
def step (s : State) : Host.Outcome State Fault Refusal := nextStep s

/-- The word of `nbits` bits with value `w` placed where the very next step fetches (Machine/Place.lean). -/
def State.withFetchWord (s : State) (nbits w : Nat) : State := placeWord s nbits w

end Sys2Proof.Machine
end

