-- ==== Sys2Proof/Safety.lean ====
section
/-! DEFINITION. The terms the statements about LZD use: the canonical form of its memories, the output a window
stands for, a stream that spells decisions, the invariants of a run, and when two runs are the same. -/

namespace Sys2Proof.Machine

/-! ## The canonical form of the memories -/

/-- Addresses strictly rising, none below `lo`. -/
def risingFrom {α : Type} : Nat → List (Nat × α) → Bool
  | _, [] => true
  | lo, (a, _) :: rest => lo ≤ a && risingFrom (a + 1) rest

/-- `PMEM` in canonical form: cells of R65 only, rising, and none listed that reads 1024 unlisted. -/
def Pmem.wf (m : Pmem) : Bool :=
  risingFrom 0 m.cells && m.cells.all (fun c => c.1 < Config.pmemSize) &&
    (m.base != .init || m.cells.all (fun c => c.2 != Config.probInit))

/-- `WIN` in canonical form: bytes of R68 only, rising. An unlisted byte is one nothing has written. -/
def Ow.wf (o : Ow) : Bool := risingFrom 0 o.win && o.win.all (fun c => c.1 < Config.windowCap)

/-- Both memories in canonical form. -/
def Memory.wf (s : State) : Bool := s.rc.pmem.wf && s.ow.wf

/-! ## The output (R37, R172) -/

/-- The whole output so far: `SINK ++ WIN[SPOS .. WPOS-1]` (R172). -/
def Ow.output (o : Ow) : List Byte := o.sink ++ winBytes o o.spos.val (o.wpos.val - o.spos.val)

/-- The window stands for its output: `TOTAL` counts it, and the byte at every distance within `TOTAL` and the
capacity is the one put that many puts ago (R35, R37). -/
structure Ow.HoldsOutput (o : Ow) : Prop where
  spos_le : o.spos.val ≤ o.wpos.val
  length_output : o.output.length = o.total
  byte : ∀ d, d < o.total → d < Config.windowCap →
    o.output[o.total - d - 1]? = some (winRead o (winIndex o.wpos d))

/-- Where `n` puts leave the cursor, the flush mark and `SINK`: a byte reaches `SINK` only where the cursor reaches
`WINDOW_CAP`, and then every byte before the cursor's new lap does (R38, R46, R171, R287). -/
structure Ow.Puts (n : Nat) (o o' : Ow) : Prop where
  wpos : o'.wpos.val = (o.wpos.val + n) % Config.windowCap
  below : o.wpos.val + n < Config.windowCap → o'.spos = o.spos ∧ o'.sink = o.sink
  wrapped : Config.windowCap ≤ o.wpos.val + n →
    o'.spos.val = 0 ∧ o'.sink = o'.output.take (o'.total - o'.wpos.val)

/-- A copy in terms of the whole output: `len` times the byte `d + 1` from its end, each seen by the next (R176 to
R178). -/
def copyOutput (d : Nat) : Nat → List Byte → List Byte
  | 0, out => out
  | n + 1, out => copyOutput d n (out ++ [out.getD (out.length - d - 1) 0])

/-! ## A stream that spells decisions (R93, R107) -/

/-- One decision: in a cell, adaptive (R124); in none, direct (R126). -/
def decideAt (inp : List Byte) (cell : Option Nat) (r : Rc) : Res Rc Bool :=
  match cell with
  | some a => rcBit inp a r
  | none => directBit inp r

/-- The stream makes the decisions `ds` in the cells `cells`, from `r` to `r'`. -/
def spells (inp : List Byte) (r : Rc) : List (Option Nat) → List Bool → Rc → Prop
  | [], [], r' => r' = r
  | c :: cells, d :: ds, r' => ∃ m, decideAt inp c r = .ok d m ∧ spells inp m cells ds r'
  | _, _, _ => False

/-- The form of a literal that `STATE` selects (R95); the other symbols have one form. -/
def formFits (charState : Bool) (i : Instr) : Bool :=
  match i with
  | .lit _ => charState
  | .litm _ => !charState
  | _ => true

/-- The range decoder after the one `RC.NORM` that follows a decision (R122); none where it needs a byte and `IN` has
no more. -/
def afterNorm (inp : List Byte) (r : Rc) : Option Rc :=
  if 2 ^ 24 ≤ r.range.toNat then some r
  else
    match inp[r.inPos]? with
    | none => none
    | some b =>
      some { r with range := r.range <<< 8, code := (r.code <<< 8) ||| b.setWidth 32, inPos := r.inPos + 1 }

/-- What selects the cells of the next symbol (R104, R196). -/
def contextOf (s : State) : Context :=
  { st := s.seq.state, ps := posState s.seq.pos, base := litBase s.seq.pos s.seq.prev,
    mb := winRead s.ow (winIndex s.ow.wpos s.seq.rep0.toNat) }

/-- A symbol that can be the next: of the two forms of a literal the one `STATE` selects (R95), and for `LITM` the
match byte there to be read (R201). -/
def symbolPossible (s : State) (i : Instr) : Prop :=
  match i with
  | .lit _ => charState s.seq.state = true
  | .litm _ => charState s.seq.state = false ∧ s.seq.rep0.toNat < s.ow.total ∧ s.seq.rep0.toNat < Config.windowCap
  | .newMatch _ _ | .eos _ | .shortrep | .rep0 _ | .rep1 _ | .rep2 _ | .rep3 _ => True
  | _ => False

/-- The symbols of R94. -/
def isSymbol (i : Instr) : Bool :=
  match i with
  | .lit _ | .litm _ | .newMatch _ _ | .eos _ | .shortrep | .rep0 _ | .rep1 _ | .rep2 _ | .rep3 _ => true
  | _ => false

/-! ## What a symbol does -/

/-- From `s` to `t` by a fault with cause `c` (R262): the status, and all that R263 leaves defined. -/
structure Faulted (c : Cause) (s t : State) : Prop where
  cause : t.cause = c
  runState : t.runState = .fault
  endMarker : t.endMarker = s.endMarker
  cf : t.cf = s.cf
  outSize : t.outSize = s.outSize
  /-- The rest that is not the decoder's: the streams' other ends and the model's own fields. -/
  outside : t.input = s.input ∧ t.presented = s.presented ∧ t.result = s.result ∧ t.hostData = s.hostData ∧
    t.boundaries = s.boundaries ∧ t.events = s.events

/-- The bytes of `WIN` outside the `len` bytes at the cursor are in `t` as in `s`. -/
def winKept (len : Nat) (s t : State) : Prop :=
  ∀ q, q < Config.windowCap → (∀ i, i < len → q ≠ (s.ow.wpos.val + i) % Config.windowCap) →
    winRead t.ow q = winRead s.ow q

/-- From `s` to `t` by appending to the output, `len` bytes of it put into `WIN` at the cursor, with the sequencer's
registers then `q`: nothing else changes. -/
structure Appends (len : Nat) (out : List Byte) (q : Seq) (s t : State) : Prop where
  output : t.ow.output = out
  window : t.ow.HoldsOutput
  total : t.ow.total = s.ow.total + len
  seq : t.seq = q
  win : winKept len s t
  /-- The cursor, and what reaches `SINK`. -/
  puts : s.ow.Puts len t.ow
  frame : t = { s with ow := t.ow, seq := t.seq }

/-- From `s` to `t` by `VALIDATE_AND_COPY(len)` with the registers `q` (R209): the copy, `POS`, and `PREV` read back from
the window. -/
def Copies (len : Nat) (q : Seq) (s t : State) : Prop :=
  Appends len (copyOutput q.rep0.toNat len s.ow.output)
    { q with pos := s.seq.pos + len
             prev := (copyOutput q.rep0.toNat len s.ow.output).getLast?.getD 0 } s t

/-- Between symbols, with `d` a distance the check of R209 lets pass. -/
structure CanCopy (d : Word) (s : State) : Prop where
  window : s.ow.HoldsOutput
  total : s.ow.total = s.seq.pos
  below_pos : d.toNat < s.seq.pos
  below_dict : d.toNat < Config.dictSizeCheck

/-! ## The invariants of a run -/

/-- Nothing but the engine and the host acts: no pending event of a unit's own interface (log 9). -/
def Event.ofHost (e : Event) : Bool :=
  match e with
  | .engine | .write _ _ | .read _ | .present _ => true
  | .unit _ | .lenField _ _ | .dxField _ => false

/-- Only host events are pending. -/
def hostOnly (s : State) : Bool := s.events.all Event.ofHost

/-- What holds of the range decoder before every decision of a run. -/
structure RcOk (r : Rc) : Prop where
  wf : r.pmem.wf = true
  /-- `RANGE >= 2^24` (R25, R128). -/
  range : 2 ^ 24 ≤ r.range.toNat
  /-- Every cell is 31 to 2017 (R30). -/
  probs : ∀ a, 31 ≤ (pmemRead r.pmem a).toNat ∧ (pmemRead r.pmem a).toNat ≤ 2017

/-- What holds of a run at every symbol boundary. -/
structure RunOk (s : State) : Prop where
  rc : RcOk s.rc
  /-- `IN_POS` is inside `IN`, past the five bytes of `RC.INIT` (R27, R121). -/
  inPos : 5 ≤ s.rc.inPos ∧ s.rc.inPos ≤ s.input.length
  /-- `STATE` is 0 to 11 (R31). -/
  lzState : s.seq.state.toNat < 12
  /-- The window stands for the output (R37). -/
  window : s.ow.HoldsOutput
  /-- What has reached `SINK` is whole laps of the cursor, and all of this lap is pending (R38, R46, R287). -/
  delivered : s.ow.spos.val = 0 ∧ s.ow.sink.length % Config.windowCap = 0
  /-- `TOTAL = POS` (R36). -/
  total : s.ow.total = s.seq.pos
  /-- After a match or repeat `REP0` is a distance that was used (R201). -/
  rep0 : 7 ≤ s.seq.state.toNat → s.seq.rep0.toNat < s.seq.pos ∧ s.seq.rep0.toNat < Config.dictSizeCheck
  /-- `PREV` is the last byte of the output, 0 before any (R34). -/
  prev : s.seq.prev = s.ow.output.getLast?.getD 0
  /-- A declared size is overshot by at most 272 (R210). -/
  overshoot : s.outSize.toNat < 2 ^ 31 → s.seq.pos ≤ s.outSize.toNat + 272

/-- What holds after a run that did not fault: all output is in `SINK` (R211). -/
structure DoneOk (s : State) : Prop where
  window : s.ow.HoldsOutput
  flushed : s.ow.spos = s.ow.wpos
  total : s.ow.total = s.seq.pos
  lzState : s.seq.state.toNat < 12

/-- The status registers agree with the run state (R39, R41, R243, R255, R263). -/
def statusOk (s : State) : Prop :=
  match s.runState with
  | .idle | .run => s.cause = .none ∧ s.endMarker = false ∧ s.cf = cfCleared
  | .done => s.cause = .none
  | .fault =>
    (s.cause = .truncatedInput ∨ s.cause = .invalidDistance ∨ s.cause = .dictBounds) ∧
      s.endMarker = false ∧ s.cf = cfCleared

/-- The invariant of LZD under any host. -/
structure Inv (s : State) : Prop where
  memory : Memory.wf s = true
  host : hostOnly s = true
  status : statusOk s
  run : s.runState = .run → RunOk s
  done : s.runState = .done → DoneOk s

/-! ## Runs -/

/-- The same run (R246): the same status and parameters, and while it goes on or has ended without fault the same
registers, cells and output. Bytes of `WIN` that this run has not put may differ (R49), and after a fault nothing
else is defined (R263). -/
structure SameRun (s t : State) : Prop where
  runState : s.runState = t.runState
  cause : s.cause = t.cause
  endMarker : s.endMarker = t.endMarker
  cf : s.cf = t.cf
  outSize : s.outSize = t.outSize
  input : s.input = t.input
  rc : s.runState ≠ .fault → s.rc = t.rc
  seq : s.runState ≠ .fault → s.seq = t.seq
  wpos : s.runState ≠ .fault → s.ow.wpos = t.ow.wpos
  spos : s.runState ≠ .fault → s.ow.spos = t.ow.spos
  total : s.runState ≠ .fault → s.ow.total = t.ow.total
  sink : s.runState ≠ .fault → s.ow.sink = t.ow.sink
  output : s.runState ≠ .fault → s.ow.output = t.ow.output

/-- The host writes `START` next, and then nothing more happens from outside. -/
def startNext (s : State) : State := { s with events := [.write 0 2] }

end Sys2Proof.Machine
end

