-- ==== Sys2Proof/WellFormed.lean ====
section
/-! DEFINITION. Which operands the spec gives each instruction. Operands held in a bit vector of the field's own
width need no check. -/

namespace Sys2Proof

/-- A match length: the length field 0 to 271 plus 2 (R99, R115). -/
def matchLenOk (len : Nat) : Bool := 2 ≤ len && len ≤ 273

/-- The base address of one of the 8 literal contexts (R160, R161). -/
def litBaseOk (base : Nat) : Bool :=
  Config.literalBase ≤ base && base < Config.pmemSize && (base - Config.literalBase) % Config.litCoderSize == 0

/-- The nodes 1 to `2^n - 1` of a tree whose node 0 is at `base` are cells of `PMEM` (R140, R65). -/
def treeOk (base n : Nat) : Bool := base + 2 ^ n ≤ Config.pmemSize

/-- The operand ranges of the rule of each instruction (R115 for symbols, the unit's own rule for an operation). -/
def Instr.wellFormed : Instr → Bool
  | .newMatch len dist => matchLenOk len && dist != Config.endMarkerDistance
  | .eos len => matchLenOk len
  | .rep0 len => matchLenOk len
  | .rep1 len => matchLenOk len
  | .rep2 len => matchLenOk len
  | .rep3 len => matchLenOk len
  | .rcBit a => a < Config.pmemSize
  | .rcDirect n => n ≤ 26
  | .btDec base n => 1 ≤ n && n ≤ 8 && treeOk base n
  | .btRdec base n => 1 ≤ n && n ≤ 5 && treeOk base n
  | .litNormal base => litBaseOk base
  | .litMatched base _ => litBaseOk base
  | .distDec len => matchLenOk len
  | .owCopy _ len => 1 ≤ len && len ≤ 273
  | _ => true

end Sys2Proof
end

