-- ==== Sys2Proof/Certificates/Slice0/Obligations.lean ====
section
/-! DEFINITION. The statements about LZD, by the files of spec/. A docstring names the rule a statement formalises. Where
a statement speaks of free values (Config) it holds for every value of them. -/

open Sys2Proof Sys2Proof.Machine

/-! ## Encoding (spec/30_encoding.md) -/

/-- R94 to R103: a well-formed symbol's word reads back as that symbol, whatever decisions follow it. A literal reads
as `LIT` or `LITM` as `STATE` says (R95). -/
def Obligations.SymbolWordsDecodeBack : Prop :=
  ∀ (i : Instr) (charState : Bool) (ds rest : List Bool), isSymbol i = true → i.wellFormed = true →
    formFits charState i = true → encode i = .decisions ds → decodeSymbol charState (ds ++ rest) = .ok (i, rest)

/-- R99, R101: every word of a length row and of a slot row reads back as that row with its operands, whatever
decisions follow it. -/
def Obligations.FieldWordsDecodeBack : Prop :=
  ∀ (i : Instr) (ds rest : List Bool), encode i = .decisions ds →
    (i.lenValue?.isSome = true → decodeLenField (ds ++ rest) = .ok (i, rest)) ∧
    (i.dxParts?.isSome = true → decodeDxField (ds ++ rest) = .ok (i, rest))

/-- R94 to R105: whatever symbol is read off a decision string, the string begins with exactly that symbol's word. -/
def Obligations.DecodedSymbolWasEncoded : Prop :=
  ∀ (i : Instr) (charState : Bool) (ds rest : List Bool), decodeSymbol charState ds = .ok (i, rest) →
    isSymbol i = true ∧ i.wellFormed = true ∧ formFits charState i = true ∧
      ∃ w, encode i = .decisions w ∧ ds = w ++ rest

/-- R105: no decision string is illegal; 48 decisions always hold a whole symbol. -/
def Obligations.NoDecisionStringIsIllegal : Prop :=
  ∀ (charState : Bool) (ds : List Bool), 48 ≤ ds.length → ∃ i rest, decodeSymbol charState ds = .ok (i, rest)

/-- R240, R244: the three commands and their codes; 0 and every value above 3 is no command. -/
def Obligations.CommandCodes : Prop :=
  ∀ (v : Word) (i : Instr), decodeCommand v = .ok i ↔
    (v = 1 ∧ i = .reset) ∨ (v = 2 ∧ i = .start) ∨ (v = 3 ∧ i = .strip)

/-- Words written out from the formats of R95 to R103 decode to what they stand for. -/
def Obligations.WrittenOutWordsDecode : Prop :=
  -- `0 01100001`: the literal 0x61, in either form
  decodeSymbol true [false, false, true, true, false, false, false, false, true] = .ok (.lit 0x61, []) ∧
  decodeSymbol false [false, false, true, true, false, false, false, false, true] = .ok (.litm 0x61, []) ∧
  -- `10`, length field 8 + 1, slot 4, one reverse bit 1: `MATCH len=11 dist=5`
  decodeSymbol true
    [true, false, true, false, false, false, true, false, false, false, true, false, false, true]
      = .ok (.newMatch 11 5, []) ∧
  -- `1100`: `SHORTREP`; `1101`, length field 0: `REP0 len=2`
  decodeSymbol true [true, true, false, false] = .ok (.shortrep, []) ∧
  decodeSymbol true [true, true, false, true, false, false, false, false] = .ok (.rep0 2, [])

/-- R90, R93, R107, R198: the fetch of a symbol gives `i` exactly where the stream spells the word of `i` in the cells
of R107, and leaves the range decoder as those decisions leave it. -/
def Obligations.FetchReadsWhatTheStreamSpells : Prop :=
  ∀ (s : State) (i : Instr) (r : Rc),
    fetchSymbol s = .ok i r ↔
      isSymbol i = true ∧ i.wellFormed = true ∧ symbolPossible s i ∧
        ∃ ds, encode i = .decisions ds ∧ spells s.input s.rc (symbolCells (contextOf s) i) ds r

/-! ## The step (spec/46_lzma_sequencer.md R196 to R198, spec/48_host_commands.md) -/

/-- A step runs the decoded instruction: a symbol fetched from the stream, with the range decoder where the fetch
left it and the boundary recorded (log 11); and a command written to `CMD`, with the write no longer pending. -/
def Obligations.StepRunsTheDecodedInstruction : Prop :=
  (∀ (s : State) (i : Instr) (r : Rc), s.events = [] → s.runState = .run → sizeReached s = false →
    fetchSymbol s = .ok i r →
      step s = exec i { s with rc := r, boundaries := boundaryNow s :: s.boundaries }) ∧
  (∀ (s : State) (v : Word) (i : Instr) (es : List Event), s.events = .write 0 v :: es → decodeCommand v = .ok i →
      step s = exec i { s with events := es })

/-- R197, R264, R78: where the declared size is reached the run ends instead; outside a run the engine does nothing. -/
def Obligations.EngineEndsOrRests : Prop :=
  (∀ s : State, s.events = [] → s.runState = .run → s.outSize.toNat < 2 ^ 31 → s.outSize.toNat ≤ s.seq.pos →
    step s = .next { s with ow := owFlush s.ow, runState := .done }) ∧
  (∀ s : State, s.events = [] → s.runState ≠ .run → step s = .next s)

/-- R252: in a run in order, a fetch that does not complete is cut short by the end of `IN`, and the step takes the fault
`TRUNCATED_INPUT`. -/
def Obligations.ExhaustedInputFaults : Prop :=
  ∀ s : State, Inv s → s.events = [] → s.runState = .run → sizeReached s = false →
    (∀ i r, fetchSymbol s ≠ .ok i r) →
      ∃ t, step s = .next t ∧ t.runState = .fault ∧ t.cause = .truncatedInput ∧ t.endMarker = false ∧
        t.cf = s.cf ∧ t.outSize = s.outSize

/-- R65, R214: a step of the run changes no probability cell but those of the symbol's decisions. -/
def Obligations.SymbolTrainsOnlyItsCells : Prop :=
  ∀ (s t : State) (i : Instr) (r : Rc), Inv s → s.events = [] → s.runState = .run → sizeReached s = false →
    fetchSymbol s = .ok i r → step s = .next t → t.runState ≠ .fault →
      ∀ a, some a ∉ symbolCells (contextOf s) i → pmemRead t.rc.pmem a = pmemRead s.rc.pmem a

/-! ## The range decoder (spec/40_range_decoder.md) -/

/-- R121: `RC.INIT` discards one byte and takes the next four most significant first; with fewer than five bytes left
it faults. -/
def Obligations.RcInitPrimes : Prop :=
  (∀ (s : State) (b0 b1 b2 b3 b4 : Byte) (rest : List Byte),
    s.input.drop s.rc.inPos = b0 :: b1 :: b2 :: b3 :: b4 :: rest →
      exec .rcInit s = .next
        { s with
          rc := { s.rc with range := 0xFFFFFFFF, code := b1 ++ b2 ++ b3 ++ b4, inPos := s.rc.inPos + 5 }
          result := .none }) ∧
  (∀ s : State, s.input.length < s.rc.inPos + 5 →
    ∃ t, exec .rcInit s = .next t ∧ Faulted .truncatedInput s t)

/-- R122: `RC.NORM` takes one byte where `RANGE < 2^24`, and faults where there is none. -/
def Obligations.RcNormRenormalises : Prop :=
  (∀ s : State, 2 ^ 24 ≤ s.rc.range.toNat → exec .rcNorm s = .next { s with result := .none }) ∧
  (∀ (s : State) (b : Byte), s.rc.range.toNat < 2 ^ 24 → s.input[s.rc.inPos]? = some b →
    exec .rcNorm s = .next
      { s with
        rc := { s.rc with range := s.rc.range <<< 8, code := (s.rc.code <<< 8) ||| b.setWidth 32,
                          inPos := s.rc.inPos + 1 }
        result := .none }) ∧
  (∀ s : State, s.rc.range.toNat < 2 ^ 24 → s.input.length ≤ s.rc.inPos →
    ∃ t, exec .rcNorm s = .next t ∧ Faulted .truncatedInput s t)

/-- R124: one adaptive decision on the cell `a`: `bound` splits `RANGE`; below it the decision is 0 and the cell moves up,
else it is 1 and the cell moves down; then one `RC.NORM`. Every other cell keeps its value. -/
def Obligations.RcBitDecides : Prop :=
  ∀ (s : State) (a : Nat), a < Config.pmemSize → s.rc.pmem.wf = true →
    let p := (pmemRead s.rc.pmem a).toNat
    let bound := s.rc.range.toNat / 2048 * p
    let bit := decide (bound ≤ s.rc.code.toNat)
    ∃ pmem : Pmem,
      (∀ b, b ≠ a → pmemRead pmem b = pmemRead s.rc.pmem b) ∧
      (pmemRead pmem a).toNat = (if bit then p - p / 32 else p + (2048 - p) / 32) ∧
      ∀ m : Rc,
        m = { range := BitVec.ofNat 32 (if bit then s.rc.range.toNat - bound else bound)
              code := BitVec.ofNat 32 (if bit then s.rc.code.toNat - bound else s.rc.code.toNat)
              inPos := s.rc.inPos
              pmem := pmem } →
          (∀ r, afterNorm s.input m = some r → exec (.rcBit a) s = .next { s with rc := r, result := .bit bit }) ∧
          (afterNorm s.input m = none →
            ∃ t, exec (.rcBit a) s = .next t ∧ Faulted .truncatedInput s t)

/-- R126, R127: one bit of `RC.DIRECT` halves `RANGE` and compares; `RC.DIRECT(n)` returns the `n`-bit number the
stream spells in direct decisions, most significant first; no cell is read or written. It completes wherever `n` bytes
are left, and where the stream spells no number it faults with `TRUNCATED_INPUT`. With `n = 0` nothing changes. -/
def Obligations.RcDirectReadsNumber : Prop :=
  (∀ s : State,
    let half := s.rc.range.toNat / 2
    let bit := decide (half ≤ s.rc.code.toNat)
    ∀ m : Rc,
      m = { s.rc with range := BitVec.ofNat 32 half
                      code := BitVec.ofNat 32 (if bit then s.rc.code.toNat - half else s.rc.code.toNat) } →
        (∀ r, afterNorm s.input m = some r →
          exec (.rcDirect 1) s = .next { s with rc := r, result := .number bit.toNat }) ∧
        (afterNorm s.input m = none → ∃ t, exec (.rcDirect 1) s = .next t ∧ Faulted .truncatedInput s t)) ∧
  (∀ (n v : Nat) (s : State) (r : Rc), v < 2 ^ n →
    spells s.input s.rc (List.replicate n none) (msbBits n v) r →
      exec (.rcDirect n) s = .next { s with rc := r, result := .number v }) ∧
  (∀ (n : Nat) (s : State), s.rc.inPos + n ≤ s.input.length →
    ∃ v r, v < 2 ^ n ∧ exec (.rcDirect n) s = .next { s with rc := r, result := .number v } ∧
      r.pmem = s.rc.pmem) ∧
  (∀ (n : Nat) (s : State),
    (∀ v r, v < 2 ^ n → ¬ spells s.input s.rc (List.replicate n none) (msbBits n v) r) →
      ∃ t, exec (.rcDirect n) s = .next t ∧ Faulted .truncatedInput s t) ∧
  (∀ s : State, exec (.rcDirect 0) s = .next { s with result := .number 0 })

/-- R26, for `RC.INIT`, `RC.NORM` and `RC.BIT`: `CODE < RANGE` holds after `RC.INIT` exactly when `IN[1..4]` are not all
`0xFF`, and a decision in a cell keeps it. Of `RC.DIRECT` what follows from R126: one direct decision keeps it exactly
where not `RANGE` is odd and `CODE = RANGE - 1` (log 23). R125 (c): with `CODE >= RANGE` an adaptive decision is 1, and
where `RC.NORM` takes no byte `CODE >= RANGE` still holds (where it takes one: log 26). -/
def Obligations.CodeStaysBelowRangeInAdaptiveDecisions : Prop :=
  (∀ (inp : List Byte) (r r' : Rc), rcInit inp r = .ok () r' →
    (r'.code.toNat < r'.range.toNat ↔
      ¬ (∀ k, 1 ≤ k → k ≤ 4 → inp[r.inPos + k]? = some 0xFF))) ∧
  (∀ (inp : List Byte) (r r' : Rc), rcNorm inp r = .ok () r' → r.code.toNat < r.range.toNat →
    r'.code.toNat < r'.range.toNat) ∧
  (∀ (inp : List Byte) (a : Nat) (r r' : Rc) (b : Bool), rcBit inp a r = .ok b r' →
    r.code.toNat < r.range.toNat → r'.code.toNat < r'.range.toNat) ∧
  (∀ (inp : List Byte) (v : Nat) (r r' : Rc), rcDirect inp 1 r = .ok v r' → r.code.toNat < r.range.toNat →
    (r'.code.toNat < r'.range.toNat ↔ ¬ (r.range.toNat % 2 = 1 ∧ r.code.toNat + 1 = r.range.toNat))) ∧
  (∀ (inp : List Byte) (a : Nat) (r r' : Rc) (b : Bool), rcBit inp a r = .ok b r' →
    r.range.toNat ≤ r.code.toNat → b = true ∧ (r'.inPos = r.inPos → r'.range.toNat ≤ r'.code.toNat))

/-- R26, for `RC.DIRECT`: the rule says that a direct decision keeps `CODE < RANGE` too. Under the pseudocode of R126 it
does not where `RANGE` is odd and `CODE = RANGE - 1` (log 23). -/
def Obligations.CodeStaysBelowRangeInDirectDecisions : Prop :=
  ∀ (inp : List Byte) (n v : Nat) (r r' : Rc), rcDirect inp n r = .ok v r' → RcOk r →
    r.code.toNat < r.range.toNat → r'.code.toNat < r'.range.toNat

/-- R65: a decision on an address above 7605 stops the model: there is no such cell (log 14). -/
def Obligations.RcBitStopsOnNoCell : Prop :=
  ∀ (s : State) (a : Nat), Config.pmemSize ≤ a → exec (.rcBit a) s = .fault (.pmemAddress a)

/-! ## Bit trees (spec/41_bit_tree.md) -/

/-- R142: `BT.DEC` returns the number the stream spells from the root down, most significant first, in the `n` cells of
the path; it completes wherever `n` bytes are left, and where the stream spells no number it faults with
`TRUNCATED_INPUT`. -/
def Obligations.BtDecReadsNumber : Prop :=
  (∀ (base n v : Nat) (s : State) (r : Rc), v < 2 ^ n →
    spells s.input s.rc (treeCells base 1 (msbBits n v)) (msbBits n v) r →
      exec (.btDec base n) s = .next { s with rc := r, result := .number v }) ∧
  (∀ (base n : Nat) (s : State), base + 2 ^ n ≤ Config.pmemSize → s.rc.inPos + n ≤ s.input.length →
    ∃ v r, v < 2 ^ n ∧ exec (.btDec base n) s = .next { s with rc := r, result := .number v }) ∧
  (∀ (base n : Nat) (s : State), base + 2 ^ n ≤ Config.pmemSize →
    (∀ v r, v < 2 ^ n → ¬ spells s.input s.rc (treeCells base 1 (msbBits n v)) (msbBits n v) r) →
      ∃ t, exec (.btDec base n) s = .next t ∧ Faulted .truncatedInput s t)

/-- R143: `BT.RDEC` likewise, first decision least significant: the first decision has weight 1. -/
def Obligations.BtRdecReadsNumber : Prop :=
  (∀ (base n v : Nat) (s : State) (r : Rc), v < 2 ^ n →
    spells s.input s.rc (treeCells base 1 (lsbBits n v)) (lsbBits n v) r →
      exec (.btRdec base n) s = .next { s with rc := r, result := .number v }) ∧
  (∀ (base n : Nat) (s : State), base + 2 ^ n ≤ Config.pmemSize → s.rc.inPos + n ≤ s.input.length →
    ∃ v r, v < 2 ^ n ∧ exec (.btRdec base n) s = .next { s with rc := r, result := .number v }) ∧
  (∀ (base n : Nat) (s : State), base + 2 ^ n ≤ Config.pmemSize →
    (∀ v r, v < 2 ^ n → ¬ spells s.input s.rc (treeCells base 1 (lsbBits n v)) (lsbBits n v) r) →
      ∃ t, exec (.btRdec base n) s = .next t ∧ Faulted .truncatedInput s t)

/-- R144: for the same decisions `BT.RDEC` returns the bit reversal of what `BT.DEC` returns, with the same effect on the
range decoder. -/
def Obligations.BtRdecIsTheReversal : Prop :=
  ∀ (inp : List Byte) (base n v : Nat) (r r' : Rc), btDec inp base n r = .ok v r' →
    v < 2 ^ n ∧ ∃ w, w < 2 ^ n ∧ btRdec inp base n r = .ok w r' ∧ ∀ k, k < n → w.testBit k = v.testBit (n - 1 - k)

/-! ## Length, literal and distance (spec/42, 43, 45) -/

/-- R151, R152: `LEN.DEC` returns the number 0 to 271 whose length field the stream spells in the cells of `T` and `ps`;
it completes wherever ten bytes are left, and where the stream spells no length it faults with `TRUNCATED_INPUT`. -/
def Obligations.LenDecReadsLength : Prop :=
  (∀ (t : LenTable) (ps : Fin 4) (v : Nat) (s : State) (r : Rc), v ≤ 271 →
    spells s.input s.rc (lenCells t ps v) (lenBits v) r →
      exec (.lenDec t ps) s = .next { s with rc := r, result := .number v }) ∧
  (∀ (t : LenTable) (ps : Fin 4) (s : State), s.rc.inPos + 10 ≤ s.input.length →
    ∃ v r, v ≤ 271 ∧ exec (.lenDec t ps) s = .next { s with rc := r, result := .number v }) ∧
  (∀ (t : LenTable) (ps : Fin 4) (s : State),
    (∀ v r, v ≤ 271 → ¬ spells s.input s.rc (lenCells t ps v) (lenBits v) r) →
      ∃ t', exec (.lenDec t ps) s = .next t' ∧ Faulted .truncatedInput s t')

/-- R162: `LIT.NORMAL` returns the byte whose bits the stream spells in the plain tree of its context; it completes
wherever eight bytes are left, and where the stream spells no byte it faults with `TRUNCATED_INPUT`. -/
def Obligations.LitNormalReadsByte : Prop :=
  (∀ (base : Nat) (b : Byte) (s : State) (r : Rc),
    spells s.input s.rc (treeCells base 1 (msbBits 8 b.toNat)) (msbBits 8 b.toNat) r →
      exec (.litNormal base) s = .next { s with rc := r, result := .byte b }) ∧
  (∀ (base : Nat) (s : State), (Instr.litNormal base).wellFormed = true → s.rc.inPos + 8 ≤ s.input.length →
    ∃ b r, exec (.litNormal base) s = .next { s with rc := r, result := .byte b }) ∧
  (∀ (base : Nat) (s : State), (Instr.litNormal base).wellFormed = true →
    (∀ (b : Byte) (r : Rc),
      ¬ spells s.input s.rc (treeCells base 1 (msbBits 8 b.toNat)) (msbBits 8 b.toNat) r) →
      ∃ t, exec (.litNormal base) s = .next t ∧ Faulted .truncatedInput s t)

/-- R163: `LIT.MATCHED` returns the byte whose bits the stream spells in the banks of the match byte until the first
mismatch, in the plain tree after it; it completes wherever eight bytes are left, and where the stream spells no
byte it faults with `TRUNCATED_INPUT`. -/
def Obligations.LitMatchedReadsByte : Prop :=
  (∀ (base : Nat) (mb b : Byte) (s : State) (r : Rc),
    spells s.input s.rc (matchedCells base mb 1 (msbBits 8 b.toNat)) (msbBits 8 b.toNat) r →
      exec (.litMatched base mb) s = .next { s with rc := r, result := .byte b }) ∧
  (∀ (base : Nat) (mb : Byte) (s : State), (Instr.litMatched base mb).wellFormed = true →
    s.rc.inPos + 8 ≤ s.input.length →
      ∃ b r, exec (.litMatched base mb) s = .next { s with rc := r, result := .byte b }) ∧
  (∀ (base : Nat) (mb : Byte) (s : State), (Instr.litMatched base mb).wellFormed = true →
    (∀ (b : Byte) (r : Rc),
      ¬ spells s.input s.rc (matchedCells base mb 1 (msbBits 8 b.toNat)) (msbBits 8 b.toNat) r) →
      ∃ t, exec (.litMatched base mb) s = .next t ∧ Faulted .truncatedInput s t)

/-- R186: `DIST.DEC` answers for the 32-bit value whose slot and extension the stream spells: the end marker, a
distance, or the fault `INVALID_DISTANCE`; where 36 bytes are left the stream spells one, and where it
spells none the fault is `TRUNCATED_INPUT`. -/
def Obligations.DistDecReadsDistance : Prop :=
  (∀ (len : Nat) (v : Word) (s : State) (r : Rc),
    spells s.input s.rc (distanceCells len v.toNat) (distanceBits v.toNat) r →
      (v = 0xFFFFFFFF → exec (.distDec len) s = .next { s with rc := r, result := .endMarker }) ∧
      (v.toNat < 2 ^ 31 → exec (.distDec len) s = .next { s with rc := r, result := .distance v }) ∧
      (2 ^ 31 ≤ v.toNat → v ≠ 0xFFFFFFFF →
        ∃ t, exec (.distDec len) s = .next t ∧ Faulted .invalidDistance s t)) ∧
  (∀ (len : Nat) (s : State), s.rc.inPos + 36 ≤ s.input.length →
    ∃ (v : Word) (r : Rc), spells s.input s.rc (distanceCells len v.toNat) (distanceBits v.toNat) r) ∧
  (∀ (len : Nat) (s : State),
    (∀ (v : Word) (r : Rc), ¬ spells s.input s.rc (distanceCells len v.toNat) (distanceBits v.toNat) r) →
      ∃ t, exec (.distDec len) s = .next t ∧ Faulted .truncatedInput s t)

/-- R99, R151: the rows `LEN.low`, `LEN.mid`, `LEN.high` return the field's value and change nothing else. -/
def Obligations.LengthRowsReturnValue : Prop :=
  ∀ (s : State),
    (∀ l : BitVec 3, exec (.lenLow l) s = .next { s with result := .number l.toNat }) ∧
    (∀ m : BitVec 3, exec (.lenMid m) s = .next { s with result := .number (8 + m.toNat) }) ∧
    (∀ h : BitVec 8, exec (.lenHigh h) s = .next { s with result := .number (16 + h.toNat) })

/-- R101, R186, R188: each of the rows `DX.slot0` to `DX.slot63` returns the distance its slot and extension spell and
changes nothing else; slot 63 with all extension bits 1 is the end marker; slot 62, and slot 63 otherwise, is the fault
`INVALID_DISTANCE`. -/
def Obligations.SlotRowsReturnDistance : Prop :=
  ∀ (i : Instr) (slot x a : Nat) (s : State), i.dxParts? = some (slot, x, a) →
    slot < 64 ∧
    (slot < 4 → exec i s = .next { s with result := .distance (BitVec.ofNat 32 slot) }) ∧
    (4 ≤ slot → slot < 14 →
      x < 2 ^ (slot / 2 - 1) ∧
        exec i s = .next
          { s with result := .distance (BitVec.ofNat 32 ((2 + slot % 2) * 2 ^ (slot / 2 - 1) + x)) }) ∧
    (14 ≤ slot →
      x < 2 ^ (slot / 2 - 5) ∧ a < 16 ∧
      let v := (2 + slot % 2) * 2 ^ (slot / 2 - 1) + 16 * x + a
      (slot < 62 → exec i s = .next { s with result := .distance (BitVec.ofNat 32 v) }) ∧
      (v = 2 ^ 32 - 1 → exec i s = .next { s with result := .endMarker }) ∧
      (62 ≤ slot → v ≠ 2 ^ 32 - 1 → ∃ t, exec i s = .next t ∧ Faulted .invalidDistance s t))

/-! ## The output window (spec/44_output_window.md) -/

/-- R171, with the flush of R172 inside: `OW.PUT` writes the byte at the cursor and counts it; a window that this fills
goes to `SINK` from `SPOS` up, and both cursors return to 0. -/
def Obligations.OwPutWritesAtCursor : Prop :=
  ∀ (s : State) (b : Byte),
    ∃ t, exec (.owPut b) s = .next t ∧
      (∀ q, winRead t.ow q = if q = s.ow.wpos.val then b else winRead s.ow q) ∧
      t.ow.total = s.ow.total + 1 ∧
      (s.ow.wpos.val + 1 < Config.windowCap →
        t.ow.wpos.val = s.ow.wpos.val + 1 ∧ t.ow.spos = s.ow.spos ∧ t.ow.sink = s.ow.sink) ∧
      (s.ow.wpos.val + 1 = Config.windowCap →
        t.ow.wpos.val = 0 ∧ t.ow.spos.val = 0 ∧
          t.ow.sink = s.ow.sink ++
            (List.range' s.ow.spos.val (Config.windowCap - s.ow.spos.val)).map (winRead t.ow)) ∧
      t = { s with ow := t.ow, result := .none }

/-- R172: `OW.FLUSH` appends `WIN[SPOS .. WPOS-1]` to `SINK` and moves the flush mark to the cursor; `WIN` keeps every
byte. With nothing pending it does nothing. -/
def Obligations.OwFlushDeliversPending : Prop :=
  ∀ s : State, s.ow.spos.val ≤ s.ow.wpos.val →
    ∃ t, exec .owFlush s = .next t ∧
      t.ow.sink = s.ow.sink ++
        (List.range' s.ow.spos.val (s.ow.wpos.val - s.ow.spos.val)).map (winRead s.ow) ∧
      t.ow.wpos = s.ow.wpos ∧ t.ow.spos = s.ow.wpos ∧ t.ow.total = s.ow.total ∧
      (∀ q, winRead t.ow q = winRead s.ow q) ∧
      (s.ow.wpos = s.ow.spos → t.ow = s.ow) ∧
      t = { s with ow := t.ow, result := .none }

/-- R173, R174: `OW.GET(d)` returns the byte `d + 1` below the cursor, wrapping; at `d >= TOTAL` or `d >= WINDOW_CAP` it
faults. -/
def Obligations.OwGetReadsBack : Prop :=
  ∀ (s : State) (d : Word),
    (d.toNat < s.ow.total → d.toNat < Config.windowCap →
      exec (.owGet d) s = .next
        { s with result := .byte (winRead s.ow
                   ((s.ow.wpos.val + Config.windowCap - d.toNat - 1) % Config.windowCap)) }) ∧
    (s.ow.total ≤ d.toNat ∨ Config.windowCap ≤ d.toNat →
      ∃ t, exec (.owGet d) s = .next t ∧ Faulted .windowRange s t)

/-- R176, R178: `OW.COPY(d, len)` appends to the output, one after the other, the byte `d + 1` from its end, seeing the
bytes it has itself put; only the `len` bytes at the cursor of `WIN` change, the cursor moves on by `len`, and bytes
reach `SINK` only where it reaches `WINDOW_CAP`. At a distance out of range it faults. -/
def Obligations.OwCopyAppends : Prop :=
  (∀ (s : State) (d : Word) (len : Nat), s.ow.HoldsOutput → d.toNat < s.ow.total → d.toNat < Config.windowCap →
    ∃ t, exec (.owCopy d len) s = .next t ∧
      t.ow.output = copyOutput d.toNat len s.ow.output ∧ t.ow.HoldsOutput ∧ t.ow.total = s.ow.total + len ∧
      winKept len s t ∧ s.ow.Puts len t.ow ∧ t = { s with ow := t.ow, result := .none }) ∧
  (∀ (s : State) (d : Word) (len : Nat), 1 ≤ len → s.ow.total ≤ d.toNat ∨ Config.windowCap ≤ d.toNat →
    ∃ t, exec (.owCopy d len) s = .next t ∧ Faulted .windowRange s t)

/-- R177: after `OW.COPY(d, len)` output byte `TOTAL0 + i` equals output byte `TOTAL0 + i - d - 1`, bytes the copy wrote
itself included, and the earlier output is as it was. -/
def Obligations.OverlappingCopyRepeats : Prop :=
  ∀ (s t : State) (d : Word) (len : Nat), s.ow.HoldsOutput → d.toNat < s.ow.total → d.toNat < Config.windowCap →
    exec (.owCopy d len) s = .next t →
      (∀ i, i < len → t.ow.output[s.ow.total + i]? = t.ow.output[s.ow.total + i - d.toNat - 1]?) ∧
      t.ow.output.length = s.ow.total + len ∧ t.ow.output.take s.ow.total = s.ow.output

/-! ## The symbols (spec/46_lzma_sequencer.md) -/

/-- R200, R201: `LIT` and `LITM` append their byte: `POS + 1`, `PREV` the byte, `STATE` in the literal column; the
cursor moves on by one, and `SINK` and the flush mark stay unless it reaches `WINDOW_CAP` (R38, R46); the distances
and everything else stay. -/
def Obligations.LiteralsAppendTheirByte : Prop :=
  ∀ (s : State) (b : Byte), s.ow.HoldsOutput →
    ∃ t, exec (.lit b) s = .next t ∧ exec (.litm b) s = .next t ∧
      Appends 1 (s.ow.output ++ [b])
        { s.seq with pos := s.seq.pos + 1, prev := b, state := afterLiteral s.seq.state } s t

/-- R202, R209: `MATCH` with a distance inside the output and the dictionary: the distances move back by one, `REP0` is
the new one, `STATE` in the match column, and the copy is appended, with `SINK` as of R38 and R46. -/
def Obligations.MatchCopies : Prop :=
  ∀ (s : State) (len : Nat) (dist : Word), 2 ≤ len → len ≤ 273 → CanCopy dist s →
    ∃ t, exec (.newMatch len dist) s = .next t ∧
      Copies len { s.seq with rep0 := dist, rep1 := s.seq.rep0, rep2 := s.seq.rep1, rep3 := s.seq.rep2
                              state := afterMatch s.seq.state } s t

/-- R203, R209: `SHORTREP` copies one byte at `REP0`; the distances stay, `STATE` in the short repeat column. -/
def Obligations.ShortRepCopiesOneByte : Prop :=
  ∀ s : State, CanCopy s.seq.rep0 s →
    ∃ t, exec .shortrep s = .next t ∧ Copies 1 { s.seq with state := afterShortRep s.seq.state } s t

/-- R204 to R207, R209: `REP0` to `REP3` copy at the chosen distance, which moves to the front, the ones before it one
back; `STATE` in the long repeat column. -/
def Obligations.RepeatsCopyAndRotate : Prop :=
  ∀ (s : State) (len : Nat), 2 ≤ len → len ≤ 273 →
    (CanCopy s.seq.rep0 s →
      ∃ t, exec (.rep0 len) s = .next t ∧ Copies len { s.seq with state := afterLongRep s.seq.state } s t) ∧
    (CanCopy s.seq.rep1 s →
      ∃ t, exec (.rep1 len) s = .next t ∧
        Copies len { s.seq with state := afterLongRep s.seq.state, rep0 := s.seq.rep1, rep1 := s.seq.rep0 } s t) ∧
    (CanCopy s.seq.rep2 s →
      ∃ t, exec (.rep2 len) s = .next t ∧
        Copies len { s.seq with state := afterLongRep s.seq.state, rep0 := s.seq.rep2, rep1 := s.seq.rep0
                                rep2 := s.seq.rep1 } s t) ∧
    (CanCopy s.seq.rep3 s →
      ∃ t, exec (.rep3 len) s = .next t ∧
        Copies len { s.seq with state := afterLongRep s.seq.state, rep0 := s.seq.rep3, rep1 := s.seq.rep0
                                rep2 := s.seq.rep1, rep3 := s.seq.rep2 } s t)

/-- R208, R197, R211: `EOS`, whatever its length: the distances move back by one, `REP0` is `0xFFFFFFFF`, `STATE` in the
match column, no copy; `END_MARKER` is set and the run ends with all output in `SINK` and the flush mark at the
cursor, which stays. -/
def Obligations.EndMarkerEndsTheRun : Prop :=
  ∀ (s : State) (len : Nat), s.ow.HoldsOutput →
    ∃ t, exec (.eos len) s = .next t ∧
      t.seq = { s.seq with rep0 := 0xFFFFFFFF, rep1 := s.seq.rep0, rep2 := s.seq.rep1, rep3 := s.seq.rep2
                           state := afterMatch s.seq.state } ∧
      t.endMarker = true ∧ t.runState = .done ∧ t.ow.sink = s.ow.output ∧ t.ow.output = s.ow.output ∧
      (∀ q, winRead t.ow q = winRead s.ow q) ∧ t.ow.total = s.ow.total ∧ t.ow.wpos = s.ow.wpos ∧ t.ow.spos = s.ow.wpos ∧
      t = { s with ow := t.ow, seq := t.seq, endMarker := true, runState := .done }

/-- R254, R209: a match or repeat whose distance is not below `POS` and below `DICT_SIZE_CHECK` faults with
`DICT_BOUNDS`; for a new match, one with bit 31 clear. R253, R260: a new
match whose distance has bit 31 set and is not the end marker faults with `INVALID_DISTANCE`, though it would fail the
bounds check too. -/
def Obligations.BadDistancesFault : Prop :=
  ∀ (s : State) (len : Nat),
    let bad := fun d : Word => s.seq.pos ≤ d.toNat ∨ Config.dictSizeCheck ≤ d.toNat
    (∀ dist : Word, dist.toNat < 2 ^ 31 → bad dist →
      ∃ t, exec (.newMatch len dist) s = .next t ∧ Faulted .dictBounds s t) ∧
    (bad s.seq.rep0 → ∃ t, exec .shortrep s = .next t ∧ Faulted .dictBounds s t) ∧
    (bad s.seq.rep0 → ∃ t, exec (.rep0 len) s = .next t ∧ Faulted .dictBounds s t) ∧
    (bad s.seq.rep1 → ∃ t, exec (.rep1 len) s = .next t ∧ Faulted .dictBounds s t) ∧
    (bad s.seq.rep2 → ∃ t, exec (.rep2 len) s = .next t ∧ Faulted .dictBounds s t) ∧
    (bad s.seq.rep3 → ∃ t, exec (.rep3 len) s = .next t ∧ Faulted .dictBounds s t) ∧
    (∀ dist : Word, 2 ^ 31 ≤ dist.toNat → dist ≠ 0xFFFFFFFF →
      ∃ t, exec (.newMatch len dist) s = .next t ∧ Faulted .invalidDistance s t)

/-- R199: `STATE` after each kind of symbol that does not fault, by the table: its rows are `STATE` before, and after a
literal, a match, a long repeat and a short repeat. -/
def Obligations.StateTable : Prop :=
  ∀ (before lit mat rep short : Nat),
    (before, lit, mat, rep, short) ∈
      [(0, 0, 7, 8, 9), (1, 0, 7, 8, 9), (2, 0, 7, 8, 9), (3, 0, 7, 8, 9), (4, 1, 7, 8, 9), (5, 2, 7, 8, 9),
       (6, 3, 7, 8, 9), (7, 4, 10, 11, 11), (8, 5, 10, 11, 11), (9, 6, 10, 11, 11), (10, 4, 10, 11, 11),
       (11, 5, 10, 11, 11)] →
    ∀ (s t : State) (b : Byte) (len : Nat) (dist : Word), s.seq.state.toNat = before → t.runState ≠ .fault →
      (exec (.lit b) s = .next t ∨ exec (.litm b) s = .next t → t.seq.state.toNat = lit) ∧
      (exec (.newMatch len dist) s = .next t ∨ exec (.eos len) s = .next t → t.seq.state.toNat = mat) ∧
      (exec (.rep0 len) s = .next t ∨ exec (.rep1 len) s = .next t ∨ exec (.rep2 len) s = .next t ∨
        exec (.rep3 len) s = .next t → t.seq.state.toNat = rep) ∧
      (exec .shortrep s = .next t → t.seq.state.toNat = short)

/-! ## The checksum framer (spec/47_checksum_frame.md) -/

/-- R232: `CRC32` as a unit operation, by its loop over the bits of each byte, and changing nothing. -/
def Obligations.Crc32Computes : Prop :=
  ∃ c : List Byte → Word,
    c [] = 0xFFFFFFFF ∧
    (∀ (x : List Byte) (b : Byte),
      c (x ++ [b]) =
        (fun c : Word => if c.getLsbD 0 then (c >>> 1) ^^^ 0xEDB88320 else c >>> 1)^[8] (c x ^^^ b.setWidth 32)) ∧
    ∀ (x : List Byte) (s : State), exec (.crc32 x) s = .next { s with result := .word (c x ^^^ 0xFFFFFFFF) }

/-- R234: `CF.STRIP(Y)` checks bytes 0 to 3, little-endian, against the CRC of the rest, and keeps the rest only where
they agree. -/
def Obligations.CfStripChecks : Prop :=
  ∀ s : State,
    (∀ y : List Byte, y.length < 4 →
      exec (.cfStrip y) s = .next
        { s with cf := { status := .short, stored := 0, computed := 0, payload := [] }, result := .none }) ∧
    (∀ (b0 b1 b2 b3 : Byte) (x : List Byte), b3 ++ b2 ++ b1 ++ b0 = crc32 x →
      exec (.cfStrip (b0 :: b1 :: b2 :: b3 :: x)) s = .next
        { s with cf := { status := .ok, stored := crc32 x, computed := crc32 x, payload := x }, result := .none }) ∧
    (∀ (b0 b1 b2 b3 : Byte) (x : List Byte), b3 ++ b2 ++ b1 ++ b0 ≠ crc32 x →
      exec (.cfStrip (b0 :: b1 :: b2 :: b3 :: x)) s = .next
        { s with cf := { status := .mismatch, stored := b3 ++ b2 ++ b1 ++ b0, computed := crc32 x, payload := [] }
                 result := .none })

/-- R236: `CF.ATTACH(X)` returns the CRC of `X` as four bytes little-endian, then `X`, and changes nothing. -/
def Obligations.CfAttachFrames : Prop :=
  ∀ (x : List Byte) (s : State), ∃ b0 b1 b2 b3 : Byte,
    b3 ++ b2 ++ b1 ++ b0 = crc32 x ∧
      exec (.cfAttach x) s = .next { s with result := .bytes (b0 :: b1 :: b2 :: b3 :: x) }

/-- R237: stripping an attached frame gives `X` back with status `OK`; with any one bit of the frame flipped it gives
the empty result, status `MISMATCH`. -/
def Obligations.StripUndoesAttachAndSeesOneBit : Prop :=
  ∀ x : List Byte,
    (cfStrip (cfAttach x)).status = .ok ∧ (cfStrip (cfAttach x)).payload = x ∧
    ∀ (j k : Nat), j < (cfAttach x).length → k < 8 →
      let y := (cfAttach x).modify j (fun b => b ^^^ (1#8 <<< k))
      (cfStrip y).status = .mismatch ∧ (cfStrip y).payload = []

/-! ## The host's commands and the register file (spec/48_host_commands.md, spec/10_state.md R43) -/

/-- R241: `RESET` is accepted in every run state and clears the status and the framer. -/
def Obligations.ResetClearsStatus : Prop :=
  ∀ s : State, ∃ t, exec .reset s = .next t ∧ t.runState = .idle ∧ t.cause = .none ∧ t.endMarker = false ∧
    t.cf = { status := .none, stored := 0, computed := 0, payload := [] }

/-- R242, R281: `START` outside a run, with at least five bytes presented: the init phase, then `RC.INIT`. `WIN` keeps
its bytes. -/
def Obligations.StartBeginsARun : Prop :=
  ∀ (s : State) (b0 b1 b2 b3 b4 : Byte) (rest : List Byte), s.runState ≠ .run →
    s.presented = b0 :: b1 :: b2 :: b3 :: b4 :: rest →
      ∃ t, exec .start s = .next t ∧
        (∀ a, pmemRead t.rc.pmem a = 1024) ∧ t.rc.inPos = 5 ∧ t.rc.range = 0xFFFFFFFF ∧
        t.rc.code = b1 ++ b2 ++ b3 ++ b4 ∧
        t.seq = { state := 0, rep0 := 0, rep1 := 0, rep2 := 0, rep3 := 0, pos := 0, prev := 0 } ∧
        t.ow.total = 0 ∧ t.ow.wpos.val = 0 ∧ t.ow.spos.val = 0 ∧ t.ow.sink = [] ∧
        (∀ q, winRead t.ow q = winRead s.ow q) ∧
        t.cf = { status := .none, stored := 0, computed := 0, payload := [] } ∧
        t.runState = .run ∧ t.cause = .none ∧ t.endMarker = false ∧ t.input = s.presented ∧
        t = { s with rc := t.rc, seq := t.seq, ow := t.ow, cf := t.cf, runState := .run, cause := .none
                     endMarker := false, input := s.presented, boundaries := [] }

/-- R242, R252, R244: `START` with fewer than five bytes presented ends in `TRUNCATED_INPUT` at once; during a run it is
ignored. -/
def Obligations.StartFaultsOrIsIgnored : Prop :=
  (∀ s : State, s.runState ≠ .run → s.presented.length < 5 →
    ∃ t, exec .start s = .next t ∧ t.runState = .fault ∧ t.cause = .truncatedInput ∧ t.endMarker = false ∧
      t.cf = { status := .none, stored := 0, computed := 0, payload := [] } ∧ t.outSize = s.outSize) ∧
  (∀ s : State, s.runState = .run → exec .start s = .next s)

/-- R243: `STRIP` after `DONE` strips `SINK` into the framer's registers and changes nothing else, and a second one
changes nothing; in every other run state it is ignored. -/
def Obligations.StripOnlyAfterDone : Prop :=
  (∀ s : State, s.runState = .done → exec .strip s = .next { s with cf := cfStrip s.ow.sink }) ∧
  (∀ s t : State, s.runState = .done → exec .strip s = .next t → exec .strip t = .next t) ∧
  (∀ s : State, s.runState ≠ .done → exec .strip s = .next s)

/-- R43, R70, R244: a write to `CMD` of 0 or a value above 3, to any register but `CMD` and `OUT_SIZE`, and to `OUT_SIZE`
during a run is ignored; a write to `OUT_SIZE` outside a run sets it and nothing else. -/
def Obligations.WritesTheHostMayMake : Prop :=
  ∀ (s : State) (n : Nat) (v : Word) (es : List Event), s.events = .write n v :: es →
    (n = 0 → v = 0 ∨ 3 < v.toNat → step s = .next { s with events := es }) ∧
    (n ≠ 0 → n ≠ 5 → step s = .next { s with events := es }) ∧
    (n = 5 → s.runState = .run → step s = .next { s with events := es }) ∧
    (n = 5 → s.runState ≠ .run → step s = .next { s with events := es, outSize := v })

/-- R43, R70: what the host reads outside a run, register by register; a read changes no register. The codes in `STATUS`
and `CAUSE` are those of R39, R41 and R251. -/
def Obligations.RegisterFileReads : Prop :=
  [RunState.idle, .run, .done, .fault].map RunState.code = [0, 1, 2, 3] ∧
  [Cause.none, .truncatedInput, .invalidDistance, .dictBounds, .windowRange].map Cause.code = [0, 1, 2, 3, 4] ∧
  [CfStatus.none, .ok, .mismatch, .short].map CfStatus.code = [0, 1, 2, 3] ∧
  ∀ (s : State) (n : Nat) (es : List Event), s.runState ≠ .run → s.events = .read n :: es →
    step s = .next
      { s with
        events := es
        draws := s.draws + 1
        hostData :=
          match n with
          | 0 => 0
          | 1 => BitVec.ofNat 32 (s.runState.code + 4 * s.endMarker.toNat + 16 * s.cf.status.code)
          | 2 => BitVec.ofNat 32 s.cause.code
          | 3 => 0x203
          | 4 => 0x20000
          | 5 => s.outSize
          | 6 => BitVec.ofNat 32 s.seq.pos
          | 7 => BitVec.ofNat 32 (s.seq.pos >>> 32)
          | 8 => BitVec.ofNat 32 s.rc.inPos
          | 9 => BitVec.ofNat 32 (s.rc.inPos >>> 32)
          | 10 => s.rc.range
          | 11 => s.rc.code
          | 12 => (0#16 ++ s.seq.prev ++ 0#4 ++ s.seq.state : BitVec 32)
          | 13 => s.seq.rep0
          | 14 => s.seq.rep1
          | 15 => s.seq.rep2
          | 16 => s.seq.rep3
          | 17 => BitVec.ofNat 32 s.ow.sink.length
          | 18 => BitVec.ofNat 32 (s.ow.sink.length >>> 32)
          | 19 => s.cf.stored
          | 20 => s.cf.computed
          | 21 => BitVec.ofNat 32 s.cf.payload.length
          | 22 => BitVec.ofNat 32 (s.cf.payload.length >>> 32)
          | _ => 0 }

/-- R78, R43, R70: during a run a read of a register that moves gives the value it had at a symbol boundary of the run,
this one or a recorded one (log 11); the others read as they stand, `STATUS` with `RUN_STATE` 1; a read changes no
register. -/
def Obligations.ReadsDuringARun : Prop :=
  ∀ (s : State) (n : Nat) (es : List Event), s.runState = .run → s.events = .read n :: es →
    ∃ b : Boundary,
      (b = { range := s.rc.range, code := s.rc.code, inPos := s.rc.inPos, seq := s.seq
             sinkLen := s.ow.sink.length } ∨ b ∈ s.boundaries) ∧
      step s = .next
        { s with
          events := es
          draws := s.draws + 1
          hostData :=
            match n with
            | 0 => 0
            | 1 => BitVec.ofNat 32 (1 + 4 * s.endMarker.toNat + 16 * s.cf.status.code)
            | 2 => BitVec.ofNat 32 s.cause.code
            | 3 => 0x203
            | 4 => 0x20000
            | 5 => s.outSize
            | 6 => BitVec.ofNat 32 b.seq.pos
            | 7 => BitVec.ofNat 32 (b.seq.pos >>> 32)
            | 8 => BitVec.ofNat 32 b.inPos
            | 9 => BitVec.ofNat 32 (b.inPos >>> 32)
            | 10 => b.range
            | 11 => b.code
            | 12 => (0#16 ++ b.seq.prev ++ 0#4 ++ b.seq.state : BitVec 32)
            | 13 => b.seq.rep0
            | 14 => b.seq.rep1
            | 15 => b.seq.rep2
            | 16 => b.seq.rep3
            | 17 => BitVec.ofNat 32 b.sinkLen
            | 18 => BitVec.ofNat 32 (b.sinkLen >>> 32)
            | 19 => s.cf.stored
            | 20 => s.cf.computed
            | 21 => BitVec.ofNat 32 s.cf.payload.length
            | 22 => BitVec.ofNat 32 (s.cf.payload.length >>> 32)
            | _ => 0 }

/-- R61, R77: `IN` as the host presents it is taken by `START` alone; presenting it changes nothing else (log 7). -/
def Obligations.PresentingInputTouchesNothingElse : Prop :=
  ∀ (s : State) (bytes : List Byte) (es : List Event), s.events = .present bytes :: es →
    step s = .next { s with events := es, presented := bytes }

/-- A unit operation or a row asked for at a unit's own interface runs; a field is read off the stream first (the model's
own events, log 9). -/
def Obligations.UnitInterfaceRunsTheInstruction : Prop :=
  (∀ (s : State) (i : Instr) (es : List Event), s.events = .unit i :: es → step s = exec i { s with events := es }) ∧
  (∀ (s : State) (t : LenTable) (ps : Fin 4) (v : Nat) (r : Rc) (es : List Event),
    s.events = .lenField t ps :: es → v ≤ 271 → spells s.input s.rc (lenCells t ps v) (lenBits v) r →
      step s = .next { s with events := es, rc := r, result := .number v }) ∧
  (∀ (s : State) (len : Nat) (v : Word) (r : Rc) (es : List Event),
    s.events = .dxField len :: es → v.toNat < 2 ^ 31 →
    spells s.input s.rc (distanceCells len v.toNat) (distanceBits v.toNat) r →
      step s = .next { s with events := es, rc := r, result := .distance v })

/-- R48, R280: the registers that have a value after reset read it and nothing is pending. R259: in every state the level
`done` is high exactly in `DONE` and the level `fault` exactly in `FAULT`, so both are low after reset. -/
def Obligations.ResetValues : Prop :=
  (regRead State.reset 1, regRead State.reset 2, regRead State.reset 3, regRead State.reset 4,
    regRead State.reset 19, regRead State.reset 20, regRead State.reset 21, regRead State.reset 22) =
      (0, 0, 0x203, 0x20000, 0, 0, 0, 0) ∧
  State.reset.runState = .idle ∧ State.reset.cf.payload = [] ∧ State.reset.events = [] ∧
  doneLevel State.reset = false ∧ faultLevel State.reset = false ∧
  ∀ s : State, (doneLevel s = true ↔ s.runState = .done) ∧ (faultLevel s = true ↔ s.runState = .fault)

/-! ## The machine as a whole -/

/-- The invariant of LZD holds after power-on. -/
def Obligations.InvariantHoldsAtReset : Prop := Inv State.reset

/-- R25, R30, R31, R34 to R39, R46, R201, R210, R255, R263, R287: every step keeps the invariant, whatever the host does. -/
def Obligations.EveryStepKeepsTheInvariant : Prop :=
  ∀ s t : State, Inv s → step s = .next t → Inv t

/-- Every step keeps the memories in canonical form, whatever acts: the engine, the host, or a unit's own interface. -/
def Obligations.EveryStepKeepsMemoryCanonical : Prop :=
  ∀ s t : State, Memory.wf s = true → step s = .next t → Memory.wf t = true

/-- R256: under the invariant a step always has a next state: nothing but the faults of R251, which are taken, stops a
run. -/
def Obligations.RunsNeverGetStuck : Prop :=
  ∀ s : State, Inv s → ∃ t, step s = .next t

/-- R130, R213, R294: a step of a run ends it, or takes at least one byte of `IN`, or narrows `RANGE`; so every run on a
finite `IN` ends, in `DONE` or in `FAULT`. -/
def Obligations.EveryRunEnds : Prop :=
  (∀ s t : State, Inv s → s.events = [] → s.runState = .run → step s = .next t →
    t.runState ≠ .run ∨ (s.rc.inPos < t.rc.inPos ∧ t.rc.inPos ≤ s.input.length) ∨
      (t.rc.inPos = s.rc.inPos ∧ t.rc.range.toNat < s.rc.range.toNat)) ∧
  (∀ s : State, Inv s → s.events = [] → s.runState = .run →
    ∃ (n : Nat) (t : State), Sys2Proof.core.run n s = .next t ∧ (t.runState = .done ∨ t.runState = .fault))

/-- R211, R245, R210: what the step that ends a run without fault leaves: all output in `SINK`, `SINK_LEN = POS`; with a
declared size, `END_MARKER` clear says `OUT_SIZE <= POS <= OUT_SIZE + 272`, set says `POS < OUT_SIZE`. -/
def Obligations.EndedRunResults : Prop :=
  ∀ s t : State, Inv s → s.events = [] → s.runState = .run → step s = .next t → t.runState = .done →
    t.ow.sink = s.ow.output ∧ t.ow.sink.length = t.seq.pos ∧ t.cause = .none ∧ t.outSize = s.outSize ∧
      (t.outSize.toNat < 2 ^ 31 →
        (t.endMarker = false → t.outSize.toNat ≤ t.seq.pos ∧ t.seq.pos ≤ t.outSize.toNat + 272) ∧
        (t.endMarker = true → t.seq.pos < t.outSize.toNat)) ∧
      (2 ^ 31 ≤ t.outSize.toNat → t.endMarker = true)

/-- R246: the run is a function of `IN` and `OUT_SIZE`: two instances outside a run with the same `IN` presented and the
same `OUT_SIZE`, started, are in the same run after every number of steps, whatever they did before. -/
def Obligations.RunIsAFunctionOfInAndOutSize : Prop :=
  ∀ s t : State, s.runState ≠ .run → t.runState ≠ .run → s.presented = t.presented → s.outSize = t.outSize →
    ∀ n : Nat, ∃ s' t', Sys2Proof.core.run (n + 1) (startNext s) = .next s' ∧
      Sys2Proof.core.run (n + 1) (startNext t) = .next t' ∧ SameRun s' t'
end

