-- ==== Sys2Proof/Laws/Bits.lean ====
section
/-! SUPPORT. Bits as decisions: the number a decision string spells, the strings of a number (Decode.lean), and
streams that spell a string in given cells (Safety.lean). -/

namespace Sys2Proof.Machine

/-- The number decisions spell below the bits `m`, first decision most significant. -/
def bitsFrom (m : Nat) (ds : List Bool) : Nat := ds.foldl (fun m b => 2 * m + b.toNat) m

/-- The number decisions spell, first decision least significant. -/
def bitsRev : List Bool → Nat
  | [] => 0
  | b :: ds => b.toNat + 2 * bitsRev ds

@[simp] theorem bitsFrom_nil (m : Nat) : bitsFrom m [] = m := rfl
@[simp] theorem bitsFrom_cons (m : Nat) (b : Bool) (ds : List Bool) :
    bitsFrom m (b :: ds) = bitsFrom (2 * m + b.toNat) ds := rfl

theorem toNat_le_one (b : Bool) : b.toNat ≤ 1 := by cases b <;> decide

theorem bitsFrom_eq (ds : List Bool) : ∀ m, bitsFrom m ds = m * 2 ^ ds.length + bitsFrom 0 ds := by
  induction ds with
  | nil => intro m; simp
  | cons b ds ih =>
    intro m
    rw [bitsFrom_cons, bitsFrom_cons, ih, ih (2 * 0 + b.toNat), List.length_cons, Nat.pow_succ]
    ring

theorem bitsFrom_lt (ds : List Bool) : bitsFrom 0 ds < 2 ^ ds.length := by
  induction ds with
  | nil => simp
  | cons b ds ih =>
    rw [bitsFrom_cons, bitsFrom_eq, List.length_cons, Nat.pow_succ]
    have := toNat_le_one b
    have : (2 * 0 + b.toNat) * 2 ^ ds.length ≤ 1 * 2 ^ ds.length := Nat.mul_le_mul_right _ (by omega)
    omega

theorem bitsRev_lt (ds : List Bool) : bitsRev ds < 2 ^ ds.length := by
  induction ds with
  | nil => simp [bitsRev]
  | cons b ds ih =>
    have := toNat_le_one b
    rw [bitsRev, List.length_cons, Nat.pow_succ]; omega

@[simp] theorem msbBits_length (n v : Nat) : (msbBits n v).length = n := by
  induction n with
  | zero => rfl
  | succ n ih => simp [msbBits, ih]

@[simp] theorem lsbBits_length (n v : Nat) : (lsbBits n v).length = n := by
  induction n generalizing v with
  | zero => rfl
  | succ n ih => simp [lsbBits, ih]

theorem bitsFrom_msbBits (n : Nat) : ∀ v, bitsFrom 0 (msbBits n v) = v % 2 ^ n := by
  induction n with
  | zero => intro v; simp [msbBits, Nat.mod_one]
  | succ n ih =>
    intro v
    rw [msbBits, bitsFrom_cons, bitsFrom_eq, msbBits_length, ih, Nat.pow_succ, Nat.mod_mul,
      Nat.testBit_eq_decide_div_mod_eq]
    have h2 : v / 2 ^ n % 2 = 0 ∨ v / 2 ^ n % 2 = 1 := by omega
    rcases h2 with h | h
    · simp [h]
    · simp [h]; omega

theorem msbBits_congr (n : Nat) : ∀ (v w : Nat), v % 2 ^ n = w % 2 ^ n → msbBits n v = msbBits n w := by
  induction n with
  | zero => intros; rfl
  | succ n ih =>
    intro v w h
    rw [msbBits, msbBits]
    have h1 : v % 2 ^ n = w % 2 ^ n := by
      have := congrArg (· % 2 ^ n) h
      simpa [Nat.pow_succ, Nat.mod_mul_right_mod] using this
    have h2 : v.testBit n = w.testBit n := by
      have := congrArg (fun x => x.testBit n) h
      simpa [Nat.testBit_mod_two_pow] using this
    rw [h2, ih v w h1]

theorem msbBits_bitsFrom : ∀ (ds : List Bool) (m : Nat), msbBits ds.length (bitsFrom m ds) = ds := by
  intro ds
  induction ds with
  | nil => intro m; rfl
  | cons b ds ih =>
    intro m
    rw [List.length_cons, msbBits, bitsFrom_cons, ih]
    congr 1
    rw [bitsFrom_eq, Nat.testBit_eq_decide_div_mod_eq]
    have hlt := bitsFrom_lt ds
    rw [Nat.add_comm, Nat.add_mul_div_right _ _ (Nat.two_pow_pos _), Nat.div_eq_of_lt hlt]
    cases b <;> simp

theorem lsbBits_bitsRev : ∀ (ds : List Bool), lsbBits ds.length (bitsRev ds) = ds := by
  intro ds
  induction ds with
  | nil => rfl
  | cons b ds ih =>
    have h : (b.toNat + 2 * bitsRev ds) / 2 = bitsRev ds := by have := toNat_le_one b; omega
    rw [List.length_cons, lsbBits, bitsRev, h, ih]
    congr 1
    cases b <;> simp [Nat.testBit_zero]

theorem bitsRev_lsbBits (n : Nat) : ∀ v, bitsRev (lsbBits n v) = v % 2 ^ n := by
  induction n with
  | zero => intro v; simp [lsbBits, bitsRev, Nat.mod_one]
  | succ n ih =>
    intro v
    rw [lsbBits, bitsRev, ih, Nat.pow_succ', Nat.mod_mul, Nat.testBit_zero]
    have h2 : v % 2 = 0 ∨ v % 2 = 1 := by omega
    rcases h2 with h | h <;> simp [h]

/-! ## Reading a string of decisions -/

theorem readMsb_append (n : Nat) : ∀ (bs rest : List Bool) (acc : Nat), bs.length = n →
    readMsb n acc (bs ++ rest) = .ok (bitsFrom acc bs, rest) := by
  induction n with
  | zero => intro bs rest acc h; simp [List.length_eq_zero_iff.mp h, readMsb]
  | succ n ih =>
    intro bs rest acc h
    cases bs with
    | nil => simp at h
    | cons b bs => simp only [List.cons_append, readMsb, bitsFrom_cons]; exact ih _ _ _ (by simpa using h)

theorem readLsb_append (n : Nat) : ∀ (bs rest : List Bool), bs.length = n →
    readLsb n (bs ++ rest) = .ok (bitsRev bs, rest) := by
  induction n with
  | zero => intro bs rest h; simp [List.length_eq_zero_iff.mp h, readLsb, bitsRev]
  | succ n ih =>
    intro bs rest h
    cases bs with
    | nil => simp at h
    | cons b bs => simp only [List.cons_append, readLsb, ih bs rest (by simpa using h), bitsRev]

theorem readMsb_ok (n : Nat) : ∀ (ds : List Bool) (acc : Nat) {v : Nat} {rest : List Bool},
    readMsb n acc ds = .ok (v, rest) → ∃ bs, bs.length = n ∧ ds = bs ++ rest ∧ v = bitsFrom acc bs := by
  induction n with
  | zero =>
    intro ds acc v rest h
    simp only [readMsb, Except.ok.injEq, Prod.mk.injEq] at h
    exact ⟨[], rfl, by simp [h.2], by simp [h.1]⟩
  | succ n ih =>
    intro ds acc v rest h
    cases ds with
    | nil => simp [readMsb] at h
    | cons b ds =>
      obtain ⟨bs, h1, h2, h3⟩ := ih ds _ (by simpa [readMsb] using h)
      exact ⟨b :: bs, by simp [h1], by simp [h2], by simp [h3]⟩

theorem readLsb_ok (n : Nat) : ∀ (ds : List Bool) {v : Nat} {rest : List Bool},
    readLsb n ds = .ok (v, rest) → ∃ bs, bs.length = n ∧ ds = bs ++ rest ∧ v = bitsRev bs := by
  induction n with
  | zero =>
    intro ds v rest h
    simp only [readLsb, Except.ok.injEq, Prod.mk.injEq] at h
    exact ⟨[], rfl, by simp [h.2], by simp [h.1, bitsRev]⟩
  | succ n ih =>
    intro ds v rest h
    cases ds with
    | nil => simp [readLsb] at h
    | cons b ds =>
      simp only [readLsb] at h
      split at h
      · rename_i v' rest' he
        obtain ⟨bs, h1, h2, h3⟩ := ih ds he
        simp only [Except.ok.injEq, Prod.mk.injEq] at h
        exact ⟨b :: bs, by simp [h1], by simp [h2, h.2], by simp [bitsRev, ← h.1, h3]⟩
      · simp at h

/-! ## Outcomes of operations -/

theorem Res.bind_eq_ok {σ α β : Type} {r : Res σ α} {k : α → σ → Res σ β} {b : β} {s' : σ} :
    r.bind k = .ok b s' ↔ ∃ a s, r = .ok a s ∧ k a s = .ok b s' := by
  cases r <;> simp [Res.bind]

theorem Res.bind_eq_raise {σ α β : Type} {r : Res σ α} {k : α → σ → Res σ β} {c : Cause} {s' : σ} :
    r.bind k = .raise c s' ↔ r = .raise c s' ∨ ∃ a s, r = .ok a s ∧ k a s = .raise c s' := by
  cases r <;> simp [Res.bind]

theorem Res.bind_eq_stop {σ α β : Type} {r : Res σ α} {k : α → σ → Res σ β} {f : Fault} :
    r.bind k = .stop f ↔ r = .stop f ∨ ∃ a s, r = .ok a s ∧ k a s = .stop f := by
  cases r <;> simp [Res.bind]

/-! ## Streams that spell decisions -/

theorem spells_append {inp : List Byte} : ∀ {c₁ c₂ : List (Option Nat)} {d₁ d₂ : List Bool} {r r' : Rc},
    c₁.length = d₁.length →
    (spells inp r (c₁ ++ c₂) (d₁ ++ d₂) r' ↔ ∃ m, spells inp r c₁ d₁ m ∧ spells inp m c₂ d₂ r')
  | [], c₂, [], d₂, r, r', _ => by simp [spells]
  | c :: c₁, c₂, d :: d₁, d₂, r, r', h => by
    have h' : c₁.length = d₁.length := by simpa using h
    simp only [List.cons_append, spells, spells_append h']
    constructor
    · rintro ⟨m, h1, m', h2, h3⟩; exact ⟨m', ⟨m, h1, h2⟩, h3⟩
    · rintro ⟨m', ⟨m, h1, h2⟩, h3⟩; exact ⟨m, h1, m', h2, h3⟩

@[simp] theorem treeCells_length (base : Nat) : ∀ (ds : List Bool) (m : Nat), (treeCells base m ds).length = ds.length
  | [], _ => rfl
  | _ :: ds, m => by simp [treeCells, treeCells_length base ds]

@[simp] theorem matchedCells_length (base : Nat) : ∀ (ds : List Bool) (mb : Byte) (sym : Nat),
    (matchedCells base mb sym ds).length = ds.length
  | [], _, _ => rfl
  | b :: ds, mb, sym => by
    simp only [matchedCells, List.length_cons]
    split <;> simp [matchedCells_length base ds]

/-- `BT.DEC`'s walk spells the node it reaches. -/
theorem walkTree_eq_ok {inp : List Byte} {base : Nat} : ∀ {k m v : Nat} {r r' : Rc},
    walkTree inp base k m r = .ok v r' ↔
      ∃ ds, ds.length = k ∧ spells inp r (treeCells base m ds) ds r' ∧ v = bitsFrom m ds
  | 0, m, v, r, r' => by
    simp only [walkTree, Res.ok.injEq]
    constructor
    · rintro ⟨rfl, rfl⟩; exact ⟨[], rfl, by simp [treeCells, spells], rfl⟩
    · rintro ⟨ds, h, h2, h3⟩
      have : ds = [] := List.length_eq_zero_iff.mp h
      subst this
      simp only [treeCells, spells] at h2
      exact ⟨by simp [h3], h2.symm⟩
  | k + 1, m, v, r, r' => by
    simp only [walkTree, Res.bind_eq_ok, walkTree_eq_ok (k := k)]
    constructor
    · rintro ⟨b, s, h1, ds, h2, h3, h4⟩
      exact ⟨b :: ds, by simp [h2], by simp only [treeCells, spells, decideAt]; exact ⟨s, h1, h3⟩, h4⟩
    · rintro ⟨ds, h1, h2, h3⟩
      cases ds with
      | nil => simp at h1
      | cons b ds =>
        simp only [treeCells, spells, decideAt] at h2
        obtain ⟨s, h4, h5⟩ := h2
        exact ⟨b, s, h4, ds, by simpa using h1, h5, h3⟩

/-- `BT.RDEC`'s walk spells its result, first decision least significant. -/
theorem walkReverse_eq_ok {inp : List Byte} {base : Nat} : ∀ {k m v : Nat} {r r' : Rc},
    walkReverse inp base k m r = .ok v r' ↔
      ∃ ds, ds.length = k ∧ spells inp r (treeCells base m ds) ds r' ∧ v = bitsRev ds
  | 0, m, v, r, r' => by
    simp only [walkReverse, Res.ok.injEq]
    constructor
    · rintro ⟨rfl, rfl⟩; exact ⟨[], rfl, by simp [treeCells, spells], rfl⟩
    · rintro ⟨ds, h, h2, h3⟩
      have : ds = [] := List.length_eq_zero_iff.mp h
      subst this
      simp only [treeCells, spells] at h2
      exact ⟨by simp [h3, bitsRev], h2.symm⟩
  | k + 1, m, v, r, r' => by
    simp only [walkReverse, Res.bind_eq_ok, walkReverse_eq_ok (k := k), Res.ok.injEq]
    constructor
    · rintro ⟨b, s, h1, w, s', ⟨ds, h2, h3, h4⟩, h5, h6⟩
      subst h6
      exact ⟨b :: ds, by simp [h2], by simp only [treeCells, spells, decideAt]; exact ⟨s, h1, h3⟩,
        by simp [bitsRev, ← h5, h4]⟩
    · rintro ⟨ds, h1, h2, h3⟩
      cases ds with
      | nil => simp at h1
      | cons b ds =>
        simp only [treeCells, spells, decideAt] at h2
        obtain ⟨s, h4, h5⟩ := h2
        exact ⟨b, s, h4, _, r', ⟨ds, by simpa using h1, h5, rfl⟩, by simp [h3, bitsRev], rfl⟩

/-- `RC.DIRECT` spells its result in no cell, first bit most significant. -/
theorem directBits_eq_ok {inp : List Byte} : ∀ {k acc v : Nat} {r r' : Rc},
    directBits inp k acc r = .ok v r' ↔
      ∃ ds, ds.length = k ∧ spells inp r (List.replicate k none) ds r' ∧ v = bitsFrom acc ds
  | 0, m, v, r, r' => by
    simp only [directBits, Res.ok.injEq]
    constructor
    · rintro ⟨rfl, rfl⟩; exact ⟨[], rfl, by simp [spells], rfl⟩
    · rintro ⟨ds, h, h2, h3⟩
      have : ds = [] := List.length_eq_zero_iff.mp h
      subst this
      simp only [List.replicate_zero, spells] at h2
      exact ⟨by simp [h3], h2.symm⟩
  | k + 1, m, v, r, r' => by
    simp only [directBits, Res.bind_eq_ok, directBits_eq_ok (k := k)]
    constructor
    · rintro ⟨b, s, h1, ds, h2, h3, h4⟩
      exact ⟨b :: ds, by simp [h2],
        by simp only [List.replicate_succ, spells, decideAt]; exact ⟨s, h1, h3⟩, h4⟩
    · rintro ⟨ds, h1, h2, h3⟩
      cases ds with
      | nil => simp at h1
      | cons b ds =>
        simp only [List.replicate_succ, spells, decideAt] at h2
        obtain ⟨s, h4, h5⟩ := h2
        exact ⟨b, s, h4, ds, by simpa using h1, h5, h3⟩

/-- `LIT.MATCHED`'s walk spells the node it reaches, in the banks of the match byte. -/
theorem walkMatched_eq_ok {inp : List Byte} {base : Nat} : ∀ {k : Nat} {mb : Byte} {sym v : Nat} {r r' : Rc},
    walkMatched inp base k mb sym r = .ok v r' ↔
      ∃ ds, ds.length = k ∧ spells inp r (matchedCells base mb sym ds) ds r' ∧ v = bitsFrom sym ds
  | 0, mb, m, v, r, r' => by
    simp only [walkMatched, Res.ok.injEq]
    constructor
    · rintro ⟨rfl, rfl⟩; exact ⟨[], rfl, by simp [matchedCells, spells], rfl⟩
    · rintro ⟨ds, h, h2, h3⟩
      have : ds = [] := List.length_eq_zero_iff.mp h
      subst this
      simp only [matchedCells, spells] at h2
      exact ⟨by simp [h3], h2.symm⟩
  | k + 1, mb, m, v, r, r' => by
    simp only [walkMatched, Res.bind_eq_ok]
    constructor
    · rintro ⟨b, s, h1, h2⟩
      split at h2
      · rename_i hb
        obtain ⟨ds, h3, h4, h5⟩ := walkMatched_eq_ok.mp h2
        exact ⟨b :: ds, by simp [h3],
          by simp only [matchedCells, spells, decideAt, hb, if_true] at h1 ⊢; exact ⟨s, h1, h4⟩, h5⟩
      · rename_i hb
        obtain ⟨ds, h3, h4, h5⟩ := walkTree_eq_ok.mp h2
        exact ⟨b :: ds, by simp [h3],
          by simp only [matchedCells, spells, decideAt, hb, if_false]; exact ⟨s, h1, h4⟩, h5⟩
    · rintro ⟨ds, h1, h2, h3⟩
      cases ds with
      | nil => simp at h1
      | cons b ds =>
        simp only [matchedCells, spells, decideAt] at h2
        obtain ⟨s, h4, h5⟩ := h2
        refine ⟨b, s, h4, ?_⟩
        split
        · rename_i hb
          rw [if_pos hb] at h5
          exact walkMatched_eq_ok.mpr ⟨ds, by simpa using h1, h5, h3⟩
        · rename_i hb
          rw [if_neg hb] at h5
          exact walkTree_eq_ok.mpr ⟨ds, by simpa using h1, h5, h3⟩

end Sys2Proof.Machine
end

