-- ==== Sys2Proof/Laws/Memory.lean ====
section
/-! SUPPORT. The laws of the two memories: what a read gives after a write, and that every operation that writes
keeps the canonical form (Safety.lean). -/

namespace Sys2Proof.Machine

variable {α : Type}

/-! ## Lists of (address, value) -/

theorem risingFrom_mono {lo lo' : Nat} (h : lo' ≤ lo) :
    ∀ {l : List (Nat × α)}, risingFrom lo l = true → risingFrom lo' l = true
  | [], _ => rfl
  | (a, v) :: rest, hl => by
    simp only [risingFrom, Bool.and_eq_true, decide_eq_true_eq] at hl ⊢
    exact ⟨Nat.le_trans h hl.1, hl.2⟩

theorem listRead_below {lo a : Nat} (h : a < lo) :
    ∀ {l : List (Nat × α)}, risingFrom lo l = true → listRead l a = none
  | [], _ => rfl
  | (b, v) :: rest, hl => by
    simp only [risingFrom, Bool.and_eq_true, decide_eq_true_eq] at hl
    have h1 : a ≠ b := by omega
    have h2 : a < b := by omega
    simp [listRead, h1, h2]

/-- A write is read back at its address, and no other address reads differently. -/
theorem listRead_listWrite (a : Nat) (v : α) (b : Nat) :
    ∀ (l : List (Nat × α)), listRead (listWrite l a v) b = if b = a then some v else listRead l b
  | [] => by
    by_cases h : b = a <;> by_cases h2 : b < a <;> simp [listWrite, listRead, h]
  | (c, w) :: rest => by
    have ih := listRead_listWrite a v b rest
    simp only [listWrite]
    by_cases hac : a = c
    · subst hac
      by_cases hb : b = a
      · simp [listRead, hb]
      · simp [listRead, hb]
    · by_cases hlt : a < c
      · simp only [hac, hlt, if_true, if_false, listRead]
        by_cases hb : b = a
        · simp [hb]
        · by_cases hba : b < a
          · have h1 : b ≠ c := by omega
            have h2 : b < c := by omega
            simp [hb, hba, h1, h2]
          · simp [hb, hba]
      · simp only [hac, hlt, if_false, listRead, ih]
        by_cases hbc : b = c
        · have : b ≠ a := by omega
          simp [hbc, show c ≠ a from fun h => hac h.symm]
        · by_cases hbc2 : b < c
          · have : b ≠ a := by omega
            simp [hbc, hbc2, this]
          · simp [hbc, hbc2]

theorem risingFrom_listWrite {lo a : Nat} (v : α) (h : lo ≤ a) :
    ∀ {l : List (Nat × α)}, risingFrom lo l = true → risingFrom lo (listWrite l a v) = true
  | [], _ => by simp [listWrite, risingFrom, h]
  | (c, w) :: rest, hl => by
    simp only [risingFrom, Bool.and_eq_true, decide_eq_true_eq] at hl
    simp only [listWrite]
    by_cases hac : a = c
    · subst hac; simp [risingFrom, hl]
    · by_cases hlt : a < c
      · simp only [hac, hlt, if_true, if_false, risingFrom, Bool.and_eq_true, decide_eq_true_eq]
        exact ⟨h, by omega, hl.2⟩
      · simp only [hac, hlt, if_false, risingFrom, Bool.and_eq_true, decide_eq_true_eq]
        exact ⟨hl.1, risingFrom_listWrite v (by omega) hl.2⟩

theorem all_listWrite {p : Nat × α → Bool} {a : Nat} {v : α} (h : p (a, v) = true) :
    ∀ {l : List (Nat × α)}, l.all p = true → (listWrite l a v).all p = true
  | [], _ => by simp [listWrite, h]
  | (c, w) :: rest, hl => by
    simp only [List.all_cons, Bool.and_eq_true] at hl
    simp only [listWrite]
    by_cases hac : a = c
    · simp only [hac, if_true, List.all_cons, Bool.and_eq_true]; exact ⟨hac ▸ h, hl.2⟩
    · by_cases hlt : a < c
      · simp only [hac, hlt, if_true, if_false, List.all_cons, Bool.and_eq_true]; exact ⟨h, hl⟩
      · simp only [hac, hlt, if_false, List.all_cons, Bool.and_eq_true]
        exact ⟨hl.1, all_listWrite h hl.2⟩

/-- An erased address is unlisted, and no other address reads differently. -/
theorem listRead_listErase (a b : Nat) :
    ∀ {lo : Nat} {l : List (Nat × α)}, risingFrom lo l = true →
      listRead (listErase l a) b = if b = a then none else listRead l b
  | _, [], _ => by simp [listErase, listRead]
  | lo, (c, w) :: rest, hl => by
    simp only [risingFrom, Bool.and_eq_true, decide_eq_true_eq] at hl
    have ih := listRead_listErase a b hl.2
    simp only [listErase]
    by_cases hac : a = c
    · subst hac
      by_cases hb : b = a
      · simp [hb, listRead_below (Nat.lt_succ_self a) hl.2]
      · by_cases hlt : b < a
        · simp [hb, hlt, listRead, listRead_below (show b < a + 1 by omega) hl.2]
        · simp [hb, hlt, listRead]
    · by_cases hlt : a < c
      · simp only [hac, hlt, if_true, if_false]
        by_cases hb : b = a
        · simp [hb, listRead, hac, hlt]
        · simp [hb]
      · simp only [hac, hlt, if_false, listRead, ih]
        by_cases hbc : b = c
        · simp [hbc, show c ≠ a from fun h => hac h.symm]
        · by_cases hbc2 : b < c
          · have : b ≠ a := by omega
            simp [hbc, hbc2, this]
          · simp [hbc, hbc2]

theorem risingFrom_listErase (a : Nat) :
    ∀ {lo : Nat} {l : List (Nat × α)}, risingFrom lo l = true → risingFrom lo (listErase l a) = true
  | _, [], _ => rfl
  | lo, (c, w) :: rest, hl => by
    have h0 := hl
    simp only [risingFrom, Bool.and_eq_true, decide_eq_true_eq] at hl
    simp only [listErase]
    by_cases hac : a = c
    · simp only [hac, if_true]; exact risingFrom_mono (by omega) hl.2
    · by_cases hlt : a < c
      · simp only [hac, hlt, if_true, if_false]; exact h0
      · simp only [hac, hlt, if_false, risingFrom, Bool.and_eq_true, decide_eq_true_eq]
        exact ⟨hl.1, risingFrom_listErase a hl.2⟩

theorem all_listErase {p : Nat × α → Bool} (a : Nat) :
    ∀ {l : List (Nat × α)}, l.all p = true → (listErase l a).all p = true
  | [], _ => rfl
  | (c, w) :: rest, hl => by
    simp only [List.all_cons, Bool.and_eq_true] at hl
    simp only [listErase]
    by_cases hac : a = c
    · simp only [hac, if_true]; exact hl.2
    · by_cases hlt : a < c
      · simp only [hac, hlt, if_true, if_false, List.all_cons, Bool.and_eq_true]; exact hl
      · simp only [hac, hlt, if_false, List.all_cons, Bool.and_eq_true]
        exact ⟨hl.1, all_listErase a hl.2⟩

/-! ## `PMEM` -/

theorem pmemWrite_base (m : Pmem) (a : Nat) (v : Prob) : (pmemWrite m a v).base = m.base := by
  unfold pmemWrite; split <;> rfl

/-- `PMEM` after a write (R65): the value at the address written, every other cell as before. -/
theorem pmemRead_pmemWrite (m : Pmem) (hm : m.wf = true) (a : Nat) (v : Prob) (b : Nat) :
    pmemRead (pmemWrite m a v) b = if b = a then v else pmemRead m b := by
  have hr : risingFrom 0 m.cells = true := by
    simp only [Pmem.wf, Bool.and_eq_true] at hm; exact hm.1.1
  unfold pmemWrite pmemRead
  split
  · rename_i h
    simp only [listRead_listErase a b hr, h.1, pmemUnlisted]
    by_cases hb : b = a <;> simp [hb, h.2]
  · simp only [listRead_listWrite]
    by_cases hb : b = a <;> simp [hb]

/-- `RC.BIT`'s write keeps the canonical form. -/
theorem Pmem.wf_pmemWrite {m : Pmem} (hm : m.wf = true) {a : Nat} (ha : a < Config.pmemSize) (v : Prob) :
    (pmemWrite m a v).wf = true := by
  simp only [Pmem.wf, Bool.and_eq_true, Bool.or_eq_true] at hm
  obtain ⟨⟨h1, h2⟩, h3⟩ := hm
  unfold pmemWrite
  split
  · rename_i h
    simp only [Pmem.wf, Bool.and_eq_true, Bool.or_eq_true]
    exact ⟨⟨risingFrom_listErase a h1, all_listErase a h2⟩, h3.imp id (all_listErase a)⟩
  · rename_i h
    simp only [Pmem.wf, Bool.and_eq_true, Bool.or_eq_true]
    refine ⟨⟨risingFrom_listWrite v (Nat.zero_le a) h1, all_listWrite (by simpa using ha) h2⟩, ?_⟩
    by_cases hb : m.base = .init
    · refine Or.inr (all_listWrite ?_ ?_)
      · simp only [bne_iff_ne]; exact fun hv => h ⟨hb, hv⟩
      · simpa [hb] using h3
    · exact Or.inl (by simpa using hb)

/-- `PMEM` after the init phase of `START`, and wherever nothing is listed. -/
theorem Pmem.wf_nil (base : PmemBase) : ({ base := base, cells := [] } : Pmem).wf = true := by
  simp [Pmem.wf, risingFrom]

/-! ## `WIN` -/

/-- `WIN` after `OW.PUT` (R171): the byte at the cursor, every other byte as before. -/
theorem winRead_owPut (b : Byte) (o : Ow) (q : Nat) :
    winRead (owPut b o) q = if q = o.wpos.val then b else winRead o q := by
  have key : ∀ o' : Ow, o'.win = listWrite o.win o.wpos.val b → o'.winDraw = o.winDraw →
      winRead o' q = if q = o.wpos.val then b else winRead o q := by
    intro o' h1 h2
    simp only [winRead, h1, h2, listRead_listWrite]
    by_cases hq : q = o.wpos.val <;> simp [hq]
  apply key
  · unfold owPut owFlushAt; dsimp only; split <;> (try split) <;> rfl
  · unfold owPut owFlushAt; dsimp only; split <;> (try split) <;> rfl

/-- `OW.FLUSH` does not erase `WIN` (R172). -/
theorem owFlushAt_win (w : Nat) (o : Ow) : (owFlushAt w o).win = o.win := by
  unfold owFlushAt; split <;> rfl

theorem winRead_owFlush (o : Ow) (q : Nat) : winRead (owFlush o) q = winRead o q := by
  unfold winRead owFlush owFlushAt; split <;> rfl

theorem Ow.wf_owFlush {o : Ow} (h : o.wf = true) : (owFlush o).wf = true := by
  simpa [Ow.wf, owFlush, owFlushAt_win] using h

theorem Ow.wf_owPut {o : Ow} (h : o.wf = true) (b : Byte) : (owPut b o).wf = true := by
  have hw : (owPut b o).win = listWrite o.win o.wpos.val b := by
    unfold owPut; dsimp only; split
    · rw [owFlushAt_win]
    · rfl
  simp only [Ow.wf, Bool.and_eq_true] at h ⊢
  rw [hw]
  exact ⟨risingFrom_listWrite b (Nat.zero_le _) h.1, all_listWrite (by simp) h.2⟩

theorem Ow.wf_owCopy (d : Word) : ∀ (n : Nat) {o o' : Ow} {u : Unit}, o.wf = true → owCopy d n o = .ok u o' →
    o'.wf = true
  | 0, o, o', u, h, he => by simp only [owCopy, Res.ok.injEq] at he; exact he.2 ▸ h
  | n + 1, o, o', u, h, he => by
    simp only [owCopy, owGet] at he
    split at he
    · simp [Res.bind] at he
    · simp only [Res.bind] at he
      exact Ow.wf_owCopy d n (Ow.wf_owPut h _) he

/-- The memories of the machine after power-on are in canonical form. -/
theorem State.reset_memory_wf : Memory.wf State.reset = true := by decide

end Sys2Proof.Machine
end

