-- ==== Sys2Proof/Laws/Ops.lean ====
section
/-! SUPPORT. What each operation of the decoders can do, said once: what it returns and what stream makes it return
that; what one decision does to the range decoder, and from that what any spelled string does. -/

namespace Sys2Proof.Machine

/-! ## What the decoders return -/

theorem walkTree_value {inp : List Byte} {base k : Nat} {r r' : Rc} {v : Nat} :
    (v < 2 ^ k ∧ walkTree inp base k 1 r = .ok (2 ^ k + v) r') ↔
      (v < 2 ^ k ∧ spells inp r (treeCells base 1 (msbBits k v)) (msbBits k v) r') := by
  constructor
  · rintro ⟨hv, h⟩
    obtain ⟨ds, h1, h2, h3⟩ := walkTree_eq_ok.mp h
    rw [bitsFrom_eq, h1, Nat.one_mul] at h3
    have hb : msbBits k v = ds := by
      have : v = bitsFrom 0 ds := by omega
      rw [this, ← h1]; exact msbBits_bitsFrom ds 0
    exact ⟨hv, by rw [hb]; exact h2⟩
  · rintro ⟨hv, h⟩
    refine ⟨hv, walkTree_eq_ok.mpr ⟨_, msbBits_length k v, h, ?_⟩⟩
    rw [bitsFrom_eq, msbBits_length, bitsFrom_msbBits, Nat.mod_eq_of_lt hv, Nat.one_mul]

/-- A walk from the root reaches a leaf. -/
theorem walkTree_leaf {inp : List Byte} {base k m : Nat} {r r' : Rc} (h : walkTree inp base k 1 r = .ok m r') :
    ∃ v, v < 2 ^ k ∧ m = 2 ^ k + v := by
  obtain ⟨ds, h1, _, h3⟩ := walkTree_eq_ok.mp h
  rw [bitsFrom_eq, h1, Nat.one_mul] at h3
  exact ⟨bitsFrom 0 ds, h1 ▸ bitsFrom_lt ds, h3⟩

/-- `BT.DEC` returns `v` exactly on a stream that spells the `n` bits of `v`, most significant first (R142, R144). -/
theorem btDec_eq_ok {inp : List Byte} {base n v : Nat} {r r' : Rc} :
    btDec inp base n r = .ok v r' ↔
      v < 2 ^ n ∧ spells inp r (treeCells base 1 (msbBits n v)) (msbBits n v) r' := by
  rw [← walkTree_value]
  simp only [btDec, Res.bind_eq_ok, Res.ok.injEq]
  constructor
  · rintro ⟨m, s, h1, h2, rfl⟩
    obtain ⟨w, hw, rfl⟩ := walkTree_leaf h1
    have : v = w := by omega
    subst this
    exact ⟨hw, h1⟩
  · rintro ⟨hv, h⟩
    exact ⟨_, _, h, by omega, rfl⟩

/-- `BT.RDEC` returns `v` exactly on a stream that spells the `n` bits of `v`, least significant first (R143). -/
theorem btRdec_eq_ok {inp : List Byte} {base n v : Nat} {r r' : Rc} :
    btRdec inp base n r = .ok v r' ↔
      v < 2 ^ n ∧ spells inp r (treeCells base 1 (lsbBits n v)) (lsbBits n v) r' := by
  rw [btRdec, walkReverse_eq_ok]
  constructor
  · rintro ⟨ds, h1, h2, rfl⟩
    refine ⟨h1 ▸ bitsRev_lt ds, ?_⟩
    rw [show lsbBits n (bitsRev ds) = ds from h1 ▸ lsbBits_bitsRev ds]; exact h2
  · rintro ⟨hv, h⟩
    exact ⟨_, lsbBits_length n v, h, by rw [bitsRev_lsbBits, Nat.mod_eq_of_lt hv]⟩

/-- `RC.DIRECT` returns `v` exactly on a stream that spells the `n` bits of `v` in no cell (R126). -/
theorem rcDirect_eq_ok {inp : List Byte} {n v : Nat} {r r' : Rc} :
    rcDirect inp n r = .ok v r' ↔
      v < 2 ^ n ∧ spells inp r (List.replicate n none) (msbBits n v) r' := by
  rw [rcDirect, directBits_eq_ok]
  constructor
  · rintro ⟨ds, h1, h2, rfl⟩
    refine ⟨h1 ▸ bitsFrom_lt ds, ?_⟩
    rw [show msbBits n (bitsFrom 0 ds) = ds from h1 ▸ msbBits_bitsFrom ds 0]; exact h2
  · rintro ⟨hv, h⟩
    exact ⟨_, msbBits_length n v, h, by rw [bitsFrom_msbBits, Nat.mod_eq_of_lt hv]⟩

theorem ofNat8_eq_iff (v : Nat) (hv : v < 2 ^ 8) (b : Byte) : BitVec.ofNat 8 (2 ^ 8 + v) = b ↔ v = b.toNat := by
  constructor
  · rintro rfl; simp [BitVec.toNat_ofNat]; omega
  · rintro rfl; apply BitVec.eq_of_toNat_eq; simpa using hv

/-- `LIT.NORMAL` returns `b` exactly on a stream that spells the eight bits of `b` in the plain tree (R162). -/
theorem litNormal_eq_ok {inp : List Byte} {base : Nat} {b : Byte} {r r' : Rc} :
    litNormal inp base r = .ok b r' ↔
      spells inp r (treeCells base 1 (msbBits 8 b.toNat)) (msbBits 8 b.toNat) r' := by
  simp only [litNormal, Res.bind_eq_ok, Res.ok.injEq]
  constructor
  · rintro ⟨m, s, h1, h2, rfl⟩
    obtain ⟨w, hw, rfl⟩ := walkTree_leaf h1
    rw [ofNat8_eq_iff w hw] at h2
    subst h2
    exact (walkTree_value.mp ⟨hw, h1⟩).2
  · intro h
    have hb : b.toNat < 2 ^ 8 := b.isLt
    exact ⟨_, _, (walkTree_value.mpr ⟨hb, h⟩).2, (ofNat8_eq_iff _ hb b).mpr rfl, rfl⟩

/-- `LIT.MATCHED` returns `b` exactly on a stream that spells the eight bits of `b` in the banks of `mb` (R163). -/
theorem litMatched_eq_ok {inp : List Byte} {base : Nat} {mb b : Byte} {r r' : Rc} :
    litMatched inp base mb r = .ok b r' ↔
      spells inp r (matchedCells base mb 1 (msbBits 8 b.toNat)) (msbBits 8 b.toNat) r' := by
  have hb : b.toNat < 2 ^ 8 := b.isLt
  simp only [litMatched, Res.bind_eq_ok, Res.ok.injEq, walkMatched_eq_ok]
  constructor
  · rintro ⟨m, s, ⟨ds, h1, h2, h3⟩, h4, rfl⟩
    have hlt := bitsFrom_lt ds
    rw [bitsFrom_eq, h1, Nat.one_mul] at h3
    rw [h1] at hlt
    subst h3
    rw [ofNat8_eq_iff _ hlt] at h4
    have hd : msbBits 8 b.toNat = ds := by rw [← h4, ← h1]; exact msbBits_bitsFrom ds 0
    rw [hd]; exact h2
  · intro h
    refine ⟨_, _, ⟨_, msbBits_length 8 _, h, rfl⟩, ?_, rfl⟩
    rw [bitsFrom_eq, msbBits_length, Nat.one_mul, bitsFrom_msbBits, Nat.mod_eq_of_lt hb]
    exact (ofNat8_eq_iff _ hb b).mpr rfl

/-- `LEN.DEC` returns `v` exactly on a stream that spells the length field of `v`; `v` is 0 to 271 (R151, R152). -/
theorem lenDec_eq_ok {inp : List Byte} {t : LenTable} {ps : Fin 4} {v : Nat} {r r' : Rc} :
    lenDec inp t ps r = .ok v r' ↔ v ≤ 271 ∧ spells inp r (lenCells t ps v) (lenBits v) r' := by
  simp only [lenDec, Res.bind_eq_ok]
  constructor
  · rintro ⟨c0, r1, h1, h2⟩
    cases c0 with
    | false =>
      obtain ⟨hv, hs⟩ := btDec_eq_ok.mp h2
      have hv : v < 8 := hv
      refine ⟨by omega, ?_⟩
      simp only [lenCells, lenBits, hv, if_true, spells, decideAt]
      exact ⟨r1, h1, hs⟩
    | true =>
      simp only [Res.bind_eq_ok] at h2
      obtain ⟨c1, r2, h3, h4⟩ := h2
      cases c1 with
      | false =>
        simp only [Res.bind_eq_ok, Res.ok.injEq] at h4
        obtain ⟨w, s, h5, rfl, rfl⟩ := h4
        obtain ⟨hv, hs⟩ := btDec_eq_ok.mp h5
        have hv : w < 8 := hv
        refine ⟨by omega, ?_⟩
        have e1 : ¬ (8 + w < 8) := by omega
        have e2 : 8 + w < 16 := by omega
        simp only [lenCells, lenBits, e1, e2, if_true, if_false, spells, decideAt, Nat.add_sub_cancel_left]
        exact ⟨r1, h1, r2, h3, hs⟩
      | true =>
        simp only [Res.bind_eq_ok, Res.ok.injEq] at h4
        obtain ⟨w, s, h5, rfl, rfl⟩ := h4
        obtain ⟨hv, hs⟩ := btDec_eq_ok.mp h5
        have hv : w < 256 := hv
        refine ⟨by omega, ?_⟩
        have e1 : ¬ (16 + w < 8) := by omega
        have e2 : ¬ (16 + w < 16) := by omega
        simp only [lenCells, lenBits, e1, e2, if_false, spells, decideAt, Nat.add_sub_cancel_left]
        exact ⟨r1, h1, r2, h3, hs⟩
  · rintro ⟨hv, h⟩
    simp only [lenCells, lenBits] at h
    by_cases e1 : v < 8
    · simp only [e1, if_true, spells, decideAt] at h
      obtain ⟨m, h1, h2⟩ := h
      exact ⟨false, m, h1, btDec_eq_ok.mpr ⟨e1, h2⟩⟩
    · by_cases e2 : v < 16
      · simp only [e1, e2, if_true, if_false, spells, decideAt] at h
        obtain ⟨m, h1, m2, h2, h3⟩ := h
        refine ⟨true, m, h1, ?_⟩
        simp only [Res.bind_eq_ok]
        refine ⟨false, m2, h2, ?_⟩
        simp only [Res.bind_eq_ok, Res.ok.injEq]
        exact ⟨v - 8, r', btDec_eq_ok.mpr ⟨by omega, h3⟩, by omega, rfl⟩
      · simp only [e1, e2, if_false, spells, decideAt] at h
        obtain ⟨m, h1, m2, h2, h3⟩ := h
        refine ⟨true, m, h1, ?_⟩
        simp only [Res.bind_eq_ok]
        refine ⟨true, m2, h2, ?_⟩
        simp only [Res.bind_eq_ok, Res.ok.injEq]
        exact ⟨v - 16, r', btDec_eq_ok.mpr ⟨by omega, h3⟩, by omega, rfl⟩

/-! ## Slots and distances (R101) -/

/-- Slot, reverse tree or direct bits, and alignment bits that a slot row can have (R101). -/
def dxPartsOk (p : Nat × Nat × Nat) : Prop :=
  p.1 < 64 ∧
    (if p.1 < Config.startPosModelIndex then p.2.1 = 0 ∧ p.2.2 = 0
     else if p.1 < Config.endPosModelIndex then p.2.1 < 2 ^ slotBits p.1 ∧ p.2.2 = 0
     else p.2.1 < 2 ^ (slotBits p.1 - Config.alignBits) ∧ p.2.2 < 2 ^ Config.alignBits)

theorem slotBase_eq {k b : Nat} (hk : 2 ≤ k) (hb : b < 2) : slotBase (2 * k + b) = (2 + b) * 2 ^ (k - 1) := by
  have h1 : ¬ (2 * k + b < Config.startPosModelIndex) := by simp only [Config.startPosModelIndex]; omega
  have h2 : slotBits (2 * k + b) = k - 1 := by simp only [slotBits]; omega
  have h3 : (2 ||| ((2 * k + b) &&& 1)) = 2 + b := by
    have : (2 * k + b) &&& 1 = b := by rw [Nat.and_one_is_mod]; omega
    rw [this]; interval_cases b <;> rfl
  rw [slotBase, if_neg h1, h2, h3, Nat.shiftLeft_eq]

/-- The slot of a distance in slot `2k + b`. -/
theorem slotOf_eq {k b y : Nat} (hk : 2 ≤ k) (hb : b < 2) (hy : y < 2 ^ (k - 1)) :
    slotOf ((2 + b) * 2 ^ (k - 1) + y) = 2 * k + b := by
  obtain ⟨j, rfl⟩ : ∃ j, k = j + 2 := ⟨k - 2, by omega⟩
  have hp : 2 ^ (j + 2) = 2 * 2 ^ (j + 1) := by ring
  have hp2 : 2 ^ (j + 2 + 1) = 4 * 2 ^ (j + 1) := by ring
  have hj : j + 2 - 1 = j + 1 := by omega
  have h2 : 2 ≤ 2 ^ (j + 1) := by
    calc 2 = 2 ^ 1 := rfl
      _ ≤ 2 ^ (j + 1) := Nat.pow_le_pow_right (by omega) (by omega)
  rw [hj] at hy ⊢
  have hm : (2 + b) * 2 ^ (j + 1) = 2 * 2 ^ (j + 1) + b * 2 ^ (j + 1) := by ring
  have hb2 : b * 2 ^ (j + 1) ≤ 1 * 2 ^ (j + 1) := Nat.mul_le_mul_right _ (by omega)
  have hlog : Nat.log2 ((2 + b) * 2 ^ (j + 1) + y) = j + 2 := by
    rw [Nat.log2_eq_iff (by omega)]
    constructor <;> omega
  have h4 : ¬ ((2 + b) * 2 ^ (j + 1) + y < Config.startPosModelIndex) := by
    simp only [Config.startPosModelIndex]; omega
  rw [slotOf, if_neg h4, hlog, Nat.and_one_is_mod, Nat.shiftRight_eq_div_pow, show j + 2 - 1 = j + 1 from hj,
    Nat.add_comm _ y, Nat.add_mul_div_right _ _ (Nat.two_pow_pos _), Nat.div_eq_of_lt hy]
  omega

/-- A distance of 4 or more lies in slot `2k + b` for its top bit `k` and the bit `b` below it. -/
theorem exists_slot {v : Nat} (hv : 4 ≤ v) :
    ∃ k b y, 2 ≤ k ∧ b < 2 ∧ y < 2 ^ (k - 1) ∧ v = (2 + b) * 2 ^ (k - 1) + y ∧ k = Nat.log2 v := by
  have hne : v ≠ 0 := by omega
  obtain ⟨h1, h2⟩ := (Nat.log2_eq_iff hne).mp rfl
  have hk : 2 ≤ Nat.log2 v := by
    by_contra h
    have : 2 ^ (Nat.log2 v + 1) ≤ 2 ^ 2 := Nat.pow_le_pow_right (by omega) (by omega)
    omega
  obtain ⟨j, hj⟩ : ∃ j, Nat.log2 v = j + 1 := ⟨Nat.log2 v - 1, by omega⟩
  rw [hj] at h1 h2 hk
  have e1 : 2 ^ (j + 1) = 2 * 2 ^ j := by ring
  have e2 : 2 ^ (j + 1 + 1) = 4 * 2 ^ j := by ring
  refine ⟨j + 1, (v - 2 ^ (j + 1)) / 2 ^ j, (v - 2 ^ (j + 1)) % 2 ^ j, hk, ?_, ?_, ?_, hj.symm⟩
  · exact Nat.div_lt_of_lt_mul (by omega)
  · exact Nat.mod_lt _ (Nat.two_pow_pos _)
  · have := Nat.div_add_mod (v - 2 ^ (j + 1)) (2 ^ j)
    rw [Nat.add_sub_cancel, Nat.add_mul, Nat.mul_comm ((v - 2 ^ (j + 1)) / 2 ^ j)]
    omega

/-- A slot row's parts are the parts of its distance, which is below 2^32 (R187). -/
theorem dxPartsOf_slotDistance {slot x a : Nat} (h : dxPartsOk (slot, x, a)) :
    dxPartsOf (slotDistance slot x a) = (slot, x, a) ∧ slotDistance slot x a < 2 ^ 32 := by
  obtain ⟨h64, h⟩ := h
  simp only at h64 h
  by_cases h4 : slot < Config.startPosModelIndex
  · rw [if_pos h4] at h
    obtain ⟨rfl, rfl⟩ := h
    simp only [Config.startPosModelIndex] at h4
    interval_cases slot <;> decide
  · rw [if_neg h4] at h
    have hs : 4 ≤ slot := by simpa [Config.startPosModelIndex] using h4
    obtain ⟨k, b, hb, rfl⟩ : ∃ k b, b < 2 ∧ slot = 2 * k + b := ⟨slot / 2, slot % 2, by omega, by omega⟩
    have hk : 2 ≤ k := by omega
    have hk32 : k ≤ 31 := by omega
    have hbits : slotBits (2 * k + b) = k - 1 := by simp only [slotBits]; omega
    have hpow : 2 ^ (k - 1) ≤ 2 ^ 30 := Nat.pow_le_pow_right (by omega) (by omega)
    have hlt : ∀ y, y < 2 ^ (k - 1) → (2 + b) * 2 ^ (k - 1) + y < 2 ^ 32 := by
      intro y hy
      have : (2 + b) * 2 ^ (k - 1) ≤ 3 * 2 ^ (k - 1) := Nat.mul_le_mul_right _ (by omega)
      omega
    rw [hbits] at h
    by_cases h14 : 2 * k + b < Config.endPosModelIndex
    · rw [if_pos h14] at h
      obtain ⟨hx, rfl⟩ := h
      rw [slotDistance, if_neg h4, if_pos h14, slotBase_eq hk hb]
      refine ⟨?_, hlt x hx⟩
      simp only [dxPartsOf, slotOf_eq hk hb hx, h14, if_true, slotBase_eq hk hb, Nat.add_sub_cancel_left]
    · rw [if_neg h14] at h
      obtain ⟨hx, ha⟩ := h
      have hk5 : 7 ≤ k := by simp only [Config.endPosModelIndex] at h14; omega
      simp only [Config.alignBits] at hx ha ⊢
      have hsplit : 2 ^ (k - 1) = 2 ^ (k - 1 - 4) * 2 ^ 4 := by rw [← Nat.pow_add]; congr 1; omega
      have hy : x * 2 ^ 4 + a < 2 ^ (k - 1) := by
        have : (x + 1) * 2 ^ 4 ≤ 2 ^ (k - 1 - 4) * 2 ^ 4 := Nat.mul_le_mul_right _ hx
        omega
      rw [slotDistance, if_neg h4, if_neg h14, slotBase_eq hk hb, Nat.shiftLeft_eq, Nat.add_assoc]
      refine ⟨?_, hlt _ hy⟩
      simp only [dxPartsOf, slotOf_eq hk hb hy, h14, if_false, slotBase_eq hk hb, Nat.add_sub_cancel_left,
        Config.alignBits, Nat.shiftRight_eq_div_pow]
      refine Prod.ext rfl (Prod.ext ?_ ?_) <;> dsimp only <;> omega

/-- A distance is the distance of its parts, which a slot row can have (R187). -/
theorem slotDistance_dxPartsOf {v : Nat} (hv : v < 2 ^ 32) :
    dxPartsOk (dxPartsOf v) ∧
      slotDistance (dxPartsOf v).1 (dxPartsOf v).2.1 (dxPartsOf v).2.2 = v := by
  by_cases h4 : v < 4
  · interval_cases v <;> refine ⟨by unfold dxPartsOk; decide, by decide⟩
  · obtain ⟨k, b, y, hk, hb, hy, rfl, hlog⟩ := exists_slot (by omega : 4 ≤ v)
    have hk32 : k < 32 := by rw [hlog]; exact (Nat.log2_lt (by omega)).mpr hv
    have hbits : slotBits (2 * k + b) = k - 1 := by simp only [slotBits]; omega
    have h4' : ¬ (2 * k + b < Config.startPosModelIndex) := by simp only [Config.startPosModelIndex]; omega
    by_cases h14 : 2 * k + b < Config.endPosModelIndex
    · simp only [dxPartsOf, slotOf_eq hk hb hy, h14, if_true, slotBase_eq hk hb, Nat.add_sub_cancel_left, dxPartsOk,
        h4', if_false, hbits, slotDistance, and_true]
      exact ⟨by omega, hy⟩
    · have hk5 : 7 ≤ k := by simp only [Config.endPosModelIndex] at h14; omega
      have hsplit : 2 ^ (k - 1) = 2 ^ (k - 1 - 4) * 2 ^ 4 := by rw [← Nat.pow_add]; congr 1; omega
      simp only [dxPartsOf, slotOf_eq hk hb hy, h14, if_false, slotBase_eq hk hb, Nat.add_sub_cancel_left, dxPartsOk,
        h4', hbits, slotDistance, Config.alignBits, Nat.shiftRight_eq_div_pow, Nat.shiftLeft_eq]
      refine ⟨⟨by omega, ?_, Nat.mod_lt _ (by decide)⟩, by omega⟩
      exact Nat.div_lt_of_lt_mul (by rw [Nat.mul_comm]; omega)

/-- `DIST.DEC`'s decisions come to `p` exactly on a stream that spells slot and extension `p` (R186). -/
theorem distParts_eq_ok {inp : List Byte} {len : Nat} {p : Nat × Nat × Nat} {r r' : Rc} :
    distParts inp len r = .ok p r' ↔
      dxPartsOk p ∧ spells inp r (dxCells len p.1 p.2.1 p.2.2) (dxBits p.1 p.2.1 p.2.2) r' := by
  obtain ⟨slot, x, a⟩ := p
  simp only [distParts, Res.bind_eq_ok, btDec_eq_ok]
  have hlen : (treeCells (posSlotTree len) 1 (msbBits 6 slot)).length = (msbBits 6 slot).length := by simp
  simp only [dxCells, dxBits, dxPartsOk, spells_append hlen]
  constructor
  · rintro ⟨s, r1, ⟨h1, h2⟩, h3⟩
    split at h3
    · rename_i hs
      simp only [Res.ok.injEq, Prod.mk.injEq] at h3
      obtain ⟨⟨rfl, rfl, rfl⟩, rfl⟩ := h3
      simp only [hs, if_true, and_self, and_true]
      exact ⟨h1, r1, h2, by simp [spells]⟩
    · rename_i hs
      split at h3
      · rename_i hs2
        simp only [Res.bind_eq_ok, Res.ok.injEq, Prod.mk.injEq, btRdec_eq_ok] at h3
        obtain ⟨y, r2, ⟨h4, h5⟩, ⟨rfl, rfl, rfl⟩, rfl⟩ := h3
        simp only [hs, hs2, if_true, if_false, and_true]
        exact ⟨⟨h1, h4⟩, r1, h2, h5⟩
      · rename_i hs2
        simp only [Res.bind_eq_ok, Res.ok.injEq, Prod.mk.injEq, btRdec_eq_ok, rcDirect_eq_ok] at h3
        obtain ⟨y, r2, ⟨h4, h5⟩, z, r3, ⟨h6, h7⟩, ⟨rfl, rfl, rfl⟩, rfl⟩ := h3
        simp only [hs, hs2, if_false]
        refine ⟨⟨h1, h4, h6⟩, r1, h2, ?_⟩
        rw [spells_append (by simp)]
        exact ⟨r2, h5, h7⟩
  · rintro ⟨⟨h1, hp⟩, r1, h2, h3⟩
    refine ⟨slot, r1, ⟨h1, h2⟩, ?_⟩
    split at hp
    · rename_i hs
      simp only [hs, if_true, spells] at h3 ⊢
      simp [h3, hp]
    · rename_i hs
      split at hp
      · rename_i hs2
        simp only [hs, hs2, if_true, if_false] at h3 ⊢
        simp only [Res.bind_eq_ok, btRdec_eq_ok, Res.ok.injEq]
        exact ⟨x, r', ⟨hp.1, h3⟩, by simp [hp.2], rfl⟩
      · rename_i hs2
        simp only [hs, hs2, if_false] at h3 ⊢
        rw [spells_append (by simp)] at h3
        obtain ⟨m, h4, h5⟩ := h3
        simp only [Res.bind_eq_ok, btRdec_eq_ok, rcDirect_eq_ok, Res.ok.injEq]
        exact ⟨x, m, ⟨hp.1, h4⟩, a, r', ⟨hp.2, h5⟩, rfl, rfl⟩

end Sys2Proof.Machine
end

