-- ==== Sys2Proof/Laws/Decisions.lean ====
section
/-! SUPPORT. What one decision does to the range decoder (spec/40_range_decoder.md R122 to R128), said once, and from
that what a spelled string of decisions does. -/

namespace Sys2Proof.Machine

theorem nextByte_eq_ok {inp : List Byte} {r r' : Rc} {b : Byte} :
    nextByte inp r = .ok b r' ↔ inp[r.inPos]? = some b ∧ r' = { r with inPos := r.inPos + 1 } := by
  unfold nextByte
  cases inp[r.inPos]? <;> simp [eq_comm]

theorem topMask_eq_zero (w : Word) : w &&& Config.topMask = 0 ↔ w.toNat < 2 ^ 24 := by
  have h : w &&& Config.topMask = (w >>> 24) <<< 24 := by
    apply BitVec.eq_of_getLsbD_eq
    intro i hi
    have hm : Config.topMask.getLsbD i = decide (24 ≤ i) := by
      have : ∀ j : Fin 32, Config.topMask.getLsbD j.val = decide (24 ≤ j.val) := by decide
      exact this ⟨i, hi⟩
    simp only [BitVec.getLsbD_and, hm, BitVec.getLsbD_shiftLeft, BitVec.getLsbD_ushiftRight, hi, decide_true,
      Bool.true_and]
    by_cases h : i < 24
    · simp [h]
    · simp [h, show 24 ≤ i by omega, show 24 + (i - 24) = i by omega]
  rw [h]
  constructor
  · intro h0
    have := congrArg BitVec.toNat h0
    simp only [BitVec.toNat_shiftLeft, BitVec.toNat_ushiftRight, Nat.shiftRight_eq_div_pow, Nat.shiftLeft_eq,
      BitVec.toNat_ofNat, BitVec.ofNat_eq_ofNat] at this
    have := w.isLt
    omega
  · intro h0
    apply BitVec.eq_of_toNat_eq
    simp only [BitVec.toNat_shiftLeft, BitVec.toNat_ushiftRight, Nat.shiftRight_eq_div_pow, Nat.shiftLeft_eq,
      BitVec.toNat_ofNat, BitVec.ofNat_eq_ofNat]
    rw [Nat.div_eq_of_lt h0]

/-- All that `RC.NORM` can do (R122). -/
theorem rcNorm_cases (inp : List Byte) (r : Rc) :
    (2 ^ 24 ≤ r.range.toNat ∧ rcNorm inp r = .ok () r) ∨
    (r.range.toNat < 2 ^ 24 ∧ ∃ b, inp[r.inPos]? = some b ∧
      rcNorm inp r = .ok () { r with inPos := r.inPos + 1, code := shiftIn r.code b, range := r.range <<< 8 }) ∨
    (r.range.toNat < 2 ^ 24 ∧ inp[r.inPos]? = none ∧ rcNorm inp r = .raise .truncatedInput r) := by
  unfold rcNorm nextByte
  by_cases h : r.range &&& Config.topMask = 0
  · have h1 := (topMask_eq_zero _).mp h
    rw [if_pos h]
    cases hb : inp[r.inPos]? with
    | none => exact Or.inr (Or.inr ⟨h1, rfl, rfl⟩)
    | some b => exact Or.inr (Or.inl ⟨h1, b, rfl, rfl⟩)
  · rw [if_neg h]
    exact Or.inl ⟨by have := mt (topMask_eq_zero _).mpr h; omega, rfl⟩

/-- A decision before its `RC.NORM`: the interval and the cell (R124, R126), and the bit. -/
def decideCore (cell : Option Nat) (r : Rc) : Bool × Rc :=
  match cell with
  | some a =>
    let p := pmemRead r.pmem a
    let bound := rcBound r.range p
    if r.code < bound then (false, { r with range := bound, pmem := pmemWrite r.pmem a (probAfter0 p) })
    else (true, { r with range := r.range - bound, code := r.code - bound, pmem := pmemWrite r.pmem a (probAfter1 p) })
  | none =>
    let half := r.range >>> 1
    if half ≤ r.code then (true, { r with range := half, code := r.code - half })
    else (false, { r with range := half })

/-- A decision is its core and one `RC.NORM`; a cell that does not exist stops it. -/
theorem decideAt_eq (inp : List Byte) (cell : Option Nat) (r : Rc) (h : ∀ a, cell = some a → a < Config.pmemSize) :
    decideAt inp cell r = (rcNorm inp (decideCore cell r).2).bind fun _ r' => .ok (decideCore cell r).1 r' := by
  cases cell with
  | some a =>
    simp only [decideAt, rcBit, h a rfl, if_true, decideCore]
    split <;> rfl
  | none =>
    simp only [decideAt, directBit, decideCore]
    split <;> rfl

theorem decideAt_cell {inp : List Byte} {cell : Option Nat} {r m : Rc} {d : Bool}
    (h : decideAt inp cell r = .ok d m) : ∀ a, cell = some a → a < Config.pmemSize := by
  rintro a rfl
  by_contra hc
  simp [decideAt, rcBit, hc] at h

/-! ## Probabilities (R30) -/

theorem probAfter0_toNat {p : Prob} (h1 : 31 ≤ p.toNat) (h2 : p.toNat ≤ 2017) :
    (probAfter0 p).toNat = p.toNat + (2048 - p.toNat) / 32 := by
  have h : p.toNat + (2048 - p.toNat) / 32 < 2 ^ 11 := by omega
  rw [probAfter0, BitVec.toNat_ofNat, Config.probOne, Config.moveBits, Nat.shiftRight_eq_div_pow]
  exact Nat.mod_eq_of_lt h

theorem probAfter1_toNat {p : Prob} (h2 : p.toNat ≤ 2017) : (probAfter1 p).toNat = p.toNat - p.toNat / 32 := by
  have h : p.toNat - p.toNat / 32 < 2 ^ 11 := by omega
  rw [probAfter1, BitVec.toNat_ofNat, Config.moveBits, Nat.shiftRight_eq_div_pow]
  exact Nat.mod_eq_of_lt h

theorem probAfter0_bounds {p : Prob} (h1 : 31 ≤ p.toNat) (h2 : p.toNat ≤ 2017) :
    31 ≤ (probAfter0 p).toNat ∧ (probAfter0 p).toNat ≤ 2017 := by
  rw [probAfter0_toNat h1 h2]; omega

theorem probAfter1_bounds {p : Prob} (h1 : 31 ≤ p.toNat) (h2 : p.toNat ≤ 2017) :
    31 ≤ (probAfter1 p).toNat ∧ (probAfter1 p).toNat ≤ 2017 := by
  rw [probAfter1_toNat h2]; omega

/-- `bound` as a number: no wrap-around (R124, R129). -/
theorem rcBound_toNat (range : Word) (p : Prob) : (rcBound range p).toNat = range.toNat / 2048 * p.toNat := by
  have h1 := range.isLt
  have h2 := p.isLt
  have h3 : range.toNat / 2048 * p.toNat ≤ (2 ^ 21 - 1) * (2 ^ 11 - 1) := Nat.mul_le_mul (by omega) (by omega)
  simp only [rcBound, BitVec.toNat_mul, BitVec.toNat_ushiftRight, Config.probBits, BitVec.toNat_setWidth,
    Nat.shiftRight_eq_div_pow]
  rw [show (2 : Nat) ^ 11 = 2048 from rfl, Nat.mod_eq_of_lt (by omega : p.toNat < 2 ^ 32), Nat.mod_eq_of_lt (by omega)]

/-- `bound` is never 0 and never reaches `RANGE` (R125 a). -/
theorem rcBound_bounds {range : Word} {p : Prob} (hr : 2 ^ 24 ≤ range.toNat) (h1 : 31 ≤ p.toNat)
    (h2 : p.toNat ≤ 2017) :
    253952 ≤ (rcBound range p).toNat ∧ (rcBound range p).toNat + 253952 ≤ range.toNat := by
  rw [rcBound_toNat]
  have h3 : 8192 ≤ range.toNat / 2048 := by omega
  have h4 : 8192 * 31 ≤ range.toNat / 2048 * p.toNat := Nat.mul_le_mul h3 h1
  have h5 : range.toNat / 2048 * p.toNat ≤ range.toNat / 2048 * 2017 := Nat.mul_le_mul_left _ h2
  have h6 : range.toNat / 2048 * 2048 ≤ range.toNat := Nat.div_mul_le_self _ _
  constructor
  · omega
  · omega

/-- What the core of a decision keeps: the interval stays above 2^16 and shrinks, the cells stay in bounds. -/
theorem decideCore_ok {cell : Option Nat} {r : Rc} (h : RcOk r) (hc : ∀ a, cell = some a → a < Config.pmemSize) :
    let m := (decideCore cell r).2
    m.pmem.wf = true ∧ (∀ a, 31 ≤ (pmemRead m.pmem a).toNat ∧ (pmemRead m.pmem a).toNat ≤ 2017) ∧
      2 ^ 16 ≤ m.range.toNat ∧ m.range.toNat < r.range.toNat ∧ m.inPos = r.inPos := by
  cases cell with
  | some a =>
    have ha := hc a rfl
    have hp := h.probs a
    have hb := rcBound_bounds h.range hp.1 hp.2
    have hrl := r.range.isLt
    have hbl := (rcBound r.range (pmemRead r.pmem a)).isLt
    have pm : ∀ v : Prob, 31 ≤ v.toNat → v.toNat ≤ 2017 →
        ∀ b, 31 ≤ (pmemRead (pmemWrite r.pmem a v) b).toNat ∧ (pmemRead (pmemWrite r.pmem a v) b).toNat ≤ 2017 := by
      intro v h1 h2 b
      rw [pmemRead_pmemWrite r.pmem h.wf]
      split
      · exact ⟨h1, h2⟩
      · exact h.probs b
    simp only [decideCore]
    split
    · have hq := probAfter0_bounds hp.1 hp.2
      exact ⟨Pmem.wf_pmemWrite h.wf ha _, pm _ hq.1 hq.2, by dsimp only; omega, by dsimp only; omega, rfl⟩
    · have hq := probAfter1_bounds hp.1 hp.2
      have hs : (r.range - rcBound r.range (pmemRead r.pmem a)).toNat =
          r.range.toNat - (rcBound r.range (pmemRead r.pmem a)).toNat := BitVec.toNat_sub_of_le (by
            rw [BitVec.le_def]; omega)
      exact ⟨Pmem.wf_pmemWrite h.wf ha _, pm _ hq.1 hq.2, by dsimp only; rw [hs]; omega,
        by dsimp only; rw [hs]; omega, rfl⟩
  | none =>
    have hr := h.range
    have hhalf : (r.range >>> 1).toNat = r.range.toNat / 2 := by
      rw [BitVec.toNat_ushiftRight, Nat.shiftRight_eq_div_pow]
    simp only [decideCore]
    split
    · exact ⟨h.wf, h.probs, by dsimp only; omega, by dsimp only; omega, rfl⟩
    · exact ⟨h.wf, h.probs, by dsimp only; omega, by dsimp only; omega, rfl⟩

/-- The core of a decision leaves every other cell alone (R124, R126). -/
theorem decideCore_pmem {cell : Option Nat} {r : Rc} (hwf : r.pmem.wf = true) {b : Nat} (hb : cell ≠ some b) :
    pmemRead (decideCore cell r).2.pmem b = pmemRead r.pmem b := by
  cases cell with
  | some a =>
    have hba : b ≠ a := fun h => hb (by rw [h])
    simp only [decideCore]
    split <;> simp only [pmemRead_pmemWrite r.pmem hwf, hba, if_false]
  | none =>
    simp only [decideCore]
    split <;> rfl

/-- All that one decision can do (R124 to R128): it keeps the range decoder in order, takes at most one byte, narrows
`RANGE` where it takes none, and leaves every other cell alone. -/
theorem decideAt_ok {inp : List Byte} {cell : Option Nat} {r m : Rc} {d : Bool} (h : RcOk r)
    (hd : decideAt inp cell r = .ok d m) :
    RcOk m ∧ (m.inPos = r.inPos ∧ m.range.toNat < r.range.toNat ∨ m.inPos = r.inPos + 1 ∧ r.inPos < inp.length) ∧
      (∀ b, cell ≠ some b → pmemRead m.pmem b = pmemRead r.pmem b) := by
  have hc := decideAt_cell hd
  rw [decideAt_eq inp cell r hc, Res.bind_eq_ok] at hd
  obtain ⟨_, m', h1, h2⟩ := hd
  simp only [Res.ok.injEq] at h2
  obtain ⟨-, rfl⟩ := h2
  obtain ⟨k1, k2, k3, k4, k5⟩ := decideCore_ok h hc
  have kp : ∀ b, cell ≠ some b → pmemRead (decideCore cell r).2.pmem b = pmemRead r.pmem b :=
    fun b hb => decideCore_pmem h.wf hb
  rcases rcNorm_cases inp (decideCore cell r).2 with ⟨g1, g2⟩ | ⟨g1, b, g2, g3⟩ | ⟨_, _, g3⟩
  · rw [g2] at h1
    simp only [Res.ok.injEq, true_and] at h1
    subst h1
    exact ⟨⟨k1, g1, k2⟩, Or.inl ⟨k5, k4⟩, kp⟩
  · rw [g3] at h1
    simp only [Res.ok.injEq, true_and] at h1
    subst h1
    have hlt : (decideCore cell r).2.inPos < inp.length := by
      by_contra hge
      rw [List.getElem?_eq_none (by omega)] at g2
      exact absurd g2 (by simp)
    refine ⟨⟨k1, ?_, k2⟩, Or.inr ⟨by dsimp only; omega, by omega⟩, kp⟩
    dsimp only
    rw [BitVec.toNat_shiftLeft, Nat.shiftLeft_eq, Nat.mod_eq_of_lt (by omega)]
    omega
  · rw [g3] at h1
    simp at h1

/-- A decision in a cell that exists completes, or finds `IN` exhausted (R124, R252). -/
theorem decideAt_cases (inp : List Byte) (cell : Option Nat) (r : Rc) (h : ∀ a, cell = some a → a < Config.pmemSize) :
    (∃ d m, decideAt inp cell r = .ok d m) ∨
      ∃ m, decideAt inp cell r = .raise .truncatedInput m ∧ inp.length ≤ r.inPos := by
  rw [decideAt_eq inp cell r h]
  have hin : (decideCore cell r).2.inPos = r.inPos := by
    cases cell <;> simp only [decideCore] <;> split <;> rfl
  rcases rcNorm_cases inp (decideCore cell r).2 with ⟨_, g2⟩ | ⟨_, b, _, g3⟩ | ⟨_, g2, g3⟩
  · exact Or.inl ⟨_, _, by rw [g2]; rfl⟩
  · exact Or.inl ⟨_, _, by rw [g3]; rfl⟩
  · refine Or.inr ⟨_, by rw [g3]; rfl, ?_⟩
    have := List.getElem?_eq_none_iff.mp g2
    omega

/-- All that a spelled string of decisions can do: what each does, together. -/
theorem spells_ok {inp : List Byte} : ∀ {cells : List (Option Nat)} {ds : List Bool} {r r' : Rc}, RcOk r →
    spells inp r cells ds r' →
    RcOk r' ∧ r.inPos ≤ r'.inPos ∧ (r.inPos ≤ inp.length → r'.inPos ≤ inp.length) ∧
      (r'.inPos = r.inPos → cells ≠ [] → r'.range.toNat < r.range.toNat) ∧
      (∀ b, some b ∉ cells → pmemRead r'.pmem b = pmemRead r.pmem b)
  | [], [], r, r', h, hs => by
    simp only [spells] at hs
    subst hs
    exact ⟨h, Nat.le_refl _, id, fun _ hc => absurd rfl hc, fun _ _ => rfl⟩
  | c :: cells, d :: ds, r, r', h, hs => by
    obtain ⟨m, h1, h2⟩ := hs
    obtain ⟨a1, a2, a3⟩ := decideAt_ok h h1
    obtain ⟨b1, b2, b3, b4, b5⟩ := spells_ok a1 h2
    refine ⟨b1, by omega, by omega, ?_, ?_⟩
    · intro he _
      have hm : m.inPos = r.inPos := by omega
      have hlt : m.range.toNat < r.range.toNat := by omega
      by_cases hc : cells = []
      · subst hc
        cases ds with
        | nil => simp only [spells] at h2; subst h2; exact hlt
        | cons _ _ => simp [spells] at h2
      · have := b4 (by omega) hc
        omega
    · intro b hb
      simp only [List.mem_cons, not_or] at hb
      rw [b5 b hb.2, a3 b (fun h => hb.1 h.symm)]
  | [], _ :: _, _, _, _, hs => by simp [spells] at hs
  | _ :: _, [], _, _, _, hs => by simp [spells] at hs

end Sys2Proof.Machine
end

