-- ==== Sys2Proof/Laws/Decode.lean ====
section
/-! SUPPORT. What the decoder reads off the strings the encoder writes, field by field (Decode.lean). -/

namespace Sys2Proof.Machine

set_option Elab.async false

/-! ## The rows of the slots -/

theorem dxFieldOf_0 (x a : Nat) : dxFieldOf 0 x a = some .dxSlot0 := rfl
theorem dxFieldOf_1 (x a : Nat) : dxFieldOf 1 x a = some .dxSlot1 := rfl
theorem dxFieldOf_2 (x a : Nat) : dxFieldOf 2 x a = some .dxSlot2 := rfl
theorem dxFieldOf_3 (x a : Nat) : dxFieldOf 3 x a = some .dxSlot3 := rfl
theorem dxFieldOf_4 (x a : Nat) : dxFieldOf 4 x a = some (.dxSlot4 (BitVec.ofNat 1 x)) := rfl
theorem dxFieldOf_5 (x a : Nat) : dxFieldOf 5 x a = some (.dxSlot5 (BitVec.ofNat 1 x)) := rfl
theorem dxFieldOf_6 (x a : Nat) : dxFieldOf 6 x a = some (.dxSlot6 (BitVec.ofNat 2 x)) := rfl
theorem dxFieldOf_7 (x a : Nat) : dxFieldOf 7 x a = some (.dxSlot7 (BitVec.ofNat 2 x)) := rfl
theorem dxFieldOf_8 (x a : Nat) : dxFieldOf 8 x a = some (.dxSlot8 (BitVec.ofNat 3 x)) := rfl
theorem dxFieldOf_9 (x a : Nat) : dxFieldOf 9 x a = some (.dxSlot9 (BitVec.ofNat 3 x)) := rfl
theorem dxFieldOf_10 (x a : Nat) : dxFieldOf 10 x a = some (.dxSlot10 (BitVec.ofNat 4 x)) := rfl
theorem dxFieldOf_11 (x a : Nat) : dxFieldOf 11 x a = some (.dxSlot11 (BitVec.ofNat 4 x)) := rfl
theorem dxFieldOf_12 (x a : Nat) : dxFieldOf 12 x a = some (.dxSlot12 (BitVec.ofNat 5 x)) := rfl
theorem dxFieldOf_13 (x a : Nat) : dxFieldOf 13 x a = some (.dxSlot13 (BitVec.ofNat 5 x)) := rfl
theorem dxFieldOf_14 (x a : Nat) : dxFieldOf 14 x a = some (.dxSlot14 (BitVec.ofNat 2 x) (BitVec.ofNat 4 a)) := rfl
theorem dxFieldOf_15 (x a : Nat) : dxFieldOf 15 x a = some (.dxSlot15 (BitVec.ofNat 2 x) (BitVec.ofNat 4 a)) := rfl
theorem dxFieldOf_16 (x a : Nat) : dxFieldOf 16 x a = some (.dxSlot16 (BitVec.ofNat 3 x) (BitVec.ofNat 4 a)) := rfl
theorem dxFieldOf_17 (x a : Nat) : dxFieldOf 17 x a = some (.dxSlot17 (BitVec.ofNat 3 x) (BitVec.ofNat 4 a)) := rfl
theorem dxFieldOf_18 (x a : Nat) : dxFieldOf 18 x a = some (.dxSlot18 (BitVec.ofNat 4 x) (BitVec.ofNat 4 a)) := rfl
theorem dxFieldOf_19 (x a : Nat) : dxFieldOf 19 x a = some (.dxSlot19 (BitVec.ofNat 4 x) (BitVec.ofNat 4 a)) := rfl
theorem dxFieldOf_20 (x a : Nat) : dxFieldOf 20 x a = some (.dxSlot20 (BitVec.ofNat 5 x) (BitVec.ofNat 4 a)) := rfl
theorem dxFieldOf_21 (x a : Nat) : dxFieldOf 21 x a = some (.dxSlot21 (BitVec.ofNat 5 x) (BitVec.ofNat 4 a)) := rfl
theorem dxFieldOf_22 (x a : Nat) : dxFieldOf 22 x a = some (.dxSlot22 (BitVec.ofNat 6 x) (BitVec.ofNat 4 a)) := rfl
theorem dxFieldOf_23 (x a : Nat) : dxFieldOf 23 x a = some (.dxSlot23 (BitVec.ofNat 6 x) (BitVec.ofNat 4 a)) := rfl
theorem dxFieldOf_24 (x a : Nat) : dxFieldOf 24 x a = some (.dxSlot24 (BitVec.ofNat 7 x) (BitVec.ofNat 4 a)) := rfl
theorem dxFieldOf_25 (x a : Nat) : dxFieldOf 25 x a = some (.dxSlot25 (BitVec.ofNat 7 x) (BitVec.ofNat 4 a)) := rfl
theorem dxFieldOf_26 (x a : Nat) : dxFieldOf 26 x a = some (.dxSlot26 (BitVec.ofNat 8 x) (BitVec.ofNat 4 a)) := rfl
theorem dxFieldOf_27 (x a : Nat) : dxFieldOf 27 x a = some (.dxSlot27 (BitVec.ofNat 8 x) (BitVec.ofNat 4 a)) := rfl
theorem dxFieldOf_28 (x a : Nat) : dxFieldOf 28 x a = some (.dxSlot28 (BitVec.ofNat 9 x) (BitVec.ofNat 4 a)) := rfl
theorem dxFieldOf_29 (x a : Nat) : dxFieldOf 29 x a = some (.dxSlot29 (BitVec.ofNat 9 x) (BitVec.ofNat 4 a)) := rfl
theorem dxFieldOf_30 (x a : Nat) : dxFieldOf 30 x a = some (.dxSlot30 (BitVec.ofNat 10 x) (BitVec.ofNat 4 a)) := rfl
theorem dxFieldOf_31 (x a : Nat) : dxFieldOf 31 x a = some (.dxSlot31 (BitVec.ofNat 10 x) (BitVec.ofNat 4 a)) := rfl
theorem dxFieldOf_32 (x a : Nat) : dxFieldOf 32 x a = some (.dxSlot32 (BitVec.ofNat 11 x) (BitVec.ofNat 4 a)) := rfl
theorem dxFieldOf_33 (x a : Nat) : dxFieldOf 33 x a = some (.dxSlot33 (BitVec.ofNat 11 x) (BitVec.ofNat 4 a)) := rfl
theorem dxFieldOf_34 (x a : Nat) : dxFieldOf 34 x a = some (.dxSlot34 (BitVec.ofNat 12 x) (BitVec.ofNat 4 a)) := rfl
theorem dxFieldOf_35 (x a : Nat) : dxFieldOf 35 x a = some (.dxSlot35 (BitVec.ofNat 12 x) (BitVec.ofNat 4 a)) := rfl
theorem dxFieldOf_36 (x a : Nat) : dxFieldOf 36 x a = some (.dxSlot36 (BitVec.ofNat 13 x) (BitVec.ofNat 4 a)) := rfl
theorem dxFieldOf_37 (x a : Nat) : dxFieldOf 37 x a = some (.dxSlot37 (BitVec.ofNat 13 x) (BitVec.ofNat 4 a)) := rfl
theorem dxFieldOf_38 (x a : Nat) : dxFieldOf 38 x a = some (.dxSlot38 (BitVec.ofNat 14 x) (BitVec.ofNat 4 a)) := rfl
theorem dxFieldOf_39 (x a : Nat) : dxFieldOf 39 x a = some (.dxSlot39 (BitVec.ofNat 14 x) (BitVec.ofNat 4 a)) := rfl
theorem dxFieldOf_40 (x a : Nat) : dxFieldOf 40 x a = some (.dxSlot40 (BitVec.ofNat 15 x) (BitVec.ofNat 4 a)) := rfl
theorem dxFieldOf_41 (x a : Nat) : dxFieldOf 41 x a = some (.dxSlot41 (BitVec.ofNat 15 x) (BitVec.ofNat 4 a)) := rfl
theorem dxFieldOf_42 (x a : Nat) : dxFieldOf 42 x a = some (.dxSlot42 (BitVec.ofNat 16 x) (BitVec.ofNat 4 a)) := rfl
theorem dxFieldOf_43 (x a : Nat) : dxFieldOf 43 x a = some (.dxSlot43 (BitVec.ofNat 16 x) (BitVec.ofNat 4 a)) := rfl
theorem dxFieldOf_44 (x a : Nat) : dxFieldOf 44 x a = some (.dxSlot44 (BitVec.ofNat 17 x) (BitVec.ofNat 4 a)) := rfl
theorem dxFieldOf_45 (x a : Nat) : dxFieldOf 45 x a = some (.dxSlot45 (BitVec.ofNat 17 x) (BitVec.ofNat 4 a)) := rfl
theorem dxFieldOf_46 (x a : Nat) : dxFieldOf 46 x a = some (.dxSlot46 (BitVec.ofNat 18 x) (BitVec.ofNat 4 a)) := rfl
theorem dxFieldOf_47 (x a : Nat) : dxFieldOf 47 x a = some (.dxSlot47 (BitVec.ofNat 18 x) (BitVec.ofNat 4 a)) := rfl
theorem dxFieldOf_48 (x a : Nat) : dxFieldOf 48 x a = some (.dxSlot48 (BitVec.ofNat 19 x) (BitVec.ofNat 4 a)) := rfl
theorem dxFieldOf_49 (x a : Nat) : dxFieldOf 49 x a = some (.dxSlot49 (BitVec.ofNat 19 x) (BitVec.ofNat 4 a)) := rfl
theorem dxFieldOf_50 (x a : Nat) : dxFieldOf 50 x a = some (.dxSlot50 (BitVec.ofNat 20 x) (BitVec.ofNat 4 a)) := rfl
theorem dxFieldOf_51 (x a : Nat) : dxFieldOf 51 x a = some (.dxSlot51 (BitVec.ofNat 20 x) (BitVec.ofNat 4 a)) := rfl
theorem dxFieldOf_52 (x a : Nat) : dxFieldOf 52 x a = some (.dxSlot52 (BitVec.ofNat 21 x) (BitVec.ofNat 4 a)) := rfl
theorem dxFieldOf_53 (x a : Nat) : dxFieldOf 53 x a = some (.dxSlot53 (BitVec.ofNat 21 x) (BitVec.ofNat 4 a)) := rfl
theorem dxFieldOf_54 (x a : Nat) : dxFieldOf 54 x a = some (.dxSlot54 (BitVec.ofNat 22 x) (BitVec.ofNat 4 a)) := rfl
theorem dxFieldOf_55 (x a : Nat) : dxFieldOf 55 x a = some (.dxSlot55 (BitVec.ofNat 22 x) (BitVec.ofNat 4 a)) := rfl
theorem dxFieldOf_56 (x a : Nat) : dxFieldOf 56 x a = some (.dxSlot56 (BitVec.ofNat 23 x) (BitVec.ofNat 4 a)) := rfl
theorem dxFieldOf_57 (x a : Nat) : dxFieldOf 57 x a = some (.dxSlot57 (BitVec.ofNat 23 x) (BitVec.ofNat 4 a)) := rfl
theorem dxFieldOf_58 (x a : Nat) : dxFieldOf 58 x a = some (.dxSlot58 (BitVec.ofNat 24 x) (BitVec.ofNat 4 a)) := rfl
theorem dxFieldOf_59 (x a : Nat) : dxFieldOf 59 x a = some (.dxSlot59 (BitVec.ofNat 24 x) (BitVec.ofNat 4 a)) := rfl
theorem dxFieldOf_60 (x a : Nat) : dxFieldOf 60 x a = some (.dxSlot60 (BitVec.ofNat 25 x) (BitVec.ofNat 4 a)) := rfl
theorem dxFieldOf_61 (x a : Nat) : dxFieldOf 61 x a = some (.dxSlot61 (BitVec.ofNat 25 x) (BitVec.ofNat 4 a)) := rfl
theorem dxFieldOf_62 (x a : Nat) : dxFieldOf 62 x a = some (.dxSlot62 (BitVec.ofNat 26 x) (BitVec.ofNat 4 a)) := rfl
theorem dxFieldOf_63 (x a : Nat) : dxFieldOf 63 x a = some (.dxSlot63 (BitVec.ofNat 26 x) (BitVec.ofNat 4 a)) := rfl

theorem dxPartsOk_mid {slot x n : Nat} (h4 : 4 ≤ slot) (h14 : slot < 14) (hn : slotBits slot = n) (hx : x < 2 ^ n) :
    dxPartsOk (slot, x, 0) := by
  simp only [dxPartsOk, Config.startPosModelIndex, Config.endPosModelIndex]
  rw [if_neg (by omega), if_pos h14, hn]
  exact ⟨by omega, hx, trivial⟩

theorem dxPartsOk_high {slot x a n : Nat} (h14 : 14 ≤ slot) (h64 : slot < 64) (hn : slotBits slot - 4 = n)
    (hx : x < 2 ^ n) (ha : a < 2 ^ 4) : dxPartsOk (slot, x, a) := by
  simp only [dxPartsOk, Config.startPosModelIndex, Config.endPosModelIndex, Config.alignBits]
  rw [if_neg (by omega), if_neg (by omega), hn]
  exact ⟨h64, hx, ha⟩

theorem ofNat_toNat_self {n : Nat} (b : BitVec n) : BitVec.ofNat n b.toNat = b := by simp

theorem dxRow_0 : dxPartsOk (0, 0, 0) ∧ dxFieldOf 0 0 0 = some (.dxSlot0) :=
  ⟨⟨by norm_num, rfl, rfl⟩, rfl⟩
theorem dxRow_1 : dxPartsOk (1, 0, 0) ∧ dxFieldOf 1 0 0 = some (.dxSlot1) :=
  ⟨⟨by norm_num, rfl, rfl⟩, rfl⟩
theorem dxRow_2 : dxPartsOk (2, 0, 0) ∧ dxFieldOf 2 0 0 = some (.dxSlot2) :=
  ⟨⟨by norm_num, rfl, rfl⟩, rfl⟩
theorem dxRow_3 : dxPartsOk (3, 0, 0) ∧ dxFieldOf 3 0 0 = some (.dxSlot3) :=
  ⟨⟨by norm_num, rfl, rfl⟩, rfl⟩
theorem dxRow_4 (r : BitVec 1) : dxPartsOk (4, r.toNat, 0) ∧ dxFieldOf 4 r.toNat 0 = some (.dxSlot4 r) :=
  ⟨dxPartsOk_mid (by norm_num) (by norm_num) rfl r.isLt, by rw [dxFieldOf_4, ofNat_toNat_self]⟩
theorem dxRow_5 (r : BitVec 1) : dxPartsOk (5, r.toNat, 0) ∧ dxFieldOf 5 r.toNat 0 = some (.dxSlot5 r) :=
  ⟨dxPartsOk_mid (by norm_num) (by norm_num) rfl r.isLt, by rw [dxFieldOf_5, ofNat_toNat_self]⟩
theorem dxRow_6 (r : BitVec 2) : dxPartsOk (6, r.toNat, 0) ∧ dxFieldOf 6 r.toNat 0 = some (.dxSlot6 r) :=
  ⟨dxPartsOk_mid (by norm_num) (by norm_num) rfl r.isLt, by rw [dxFieldOf_6, ofNat_toNat_self]⟩
theorem dxRow_7 (r : BitVec 2) : dxPartsOk (7, r.toNat, 0) ∧ dxFieldOf 7 r.toNat 0 = some (.dxSlot7 r) :=
  ⟨dxPartsOk_mid (by norm_num) (by norm_num) rfl r.isLt, by rw [dxFieldOf_7, ofNat_toNat_self]⟩
theorem dxRow_8 (r : BitVec 3) : dxPartsOk (8, r.toNat, 0) ∧ dxFieldOf 8 r.toNat 0 = some (.dxSlot8 r) :=
  ⟨dxPartsOk_mid (by norm_num) (by norm_num) rfl r.isLt, by rw [dxFieldOf_8, ofNat_toNat_self]⟩
theorem dxRow_9 (r : BitVec 3) : dxPartsOk (9, r.toNat, 0) ∧ dxFieldOf 9 r.toNat 0 = some (.dxSlot9 r) :=
  ⟨dxPartsOk_mid (by norm_num) (by norm_num) rfl r.isLt, by rw [dxFieldOf_9, ofNat_toNat_self]⟩
theorem dxRow_10 (r : BitVec 4) : dxPartsOk (10, r.toNat, 0) ∧ dxFieldOf 10 r.toNat 0 = some (.dxSlot10 r) :=
  ⟨dxPartsOk_mid (by norm_num) (by norm_num) rfl r.isLt, by rw [dxFieldOf_10, ofNat_toNat_self]⟩
theorem dxRow_11 (r : BitVec 4) : dxPartsOk (11, r.toNat, 0) ∧ dxFieldOf 11 r.toNat 0 = some (.dxSlot11 r) :=
  ⟨dxPartsOk_mid (by norm_num) (by norm_num) rfl r.isLt, by rw [dxFieldOf_11, ofNat_toNat_self]⟩
theorem dxRow_12 (r : BitVec 5) : dxPartsOk (12, r.toNat, 0) ∧ dxFieldOf 12 r.toNat 0 = some (.dxSlot12 r) :=
  ⟨dxPartsOk_mid (by norm_num) (by norm_num) rfl r.isLt, by rw [dxFieldOf_12, ofNat_toNat_self]⟩
theorem dxRow_13 (r : BitVec 5) : dxPartsOk (13, r.toNat, 0) ∧ dxFieldOf 13 r.toNat 0 = some (.dxSlot13 r) :=
  ⟨dxPartsOk_mid (by norm_num) (by norm_num) rfl r.isLt, by rw [dxFieldOf_13, ofNat_toNat_self]⟩
theorem dxRow_14 (d : BitVec 2) (a : BitVec 4) : dxPartsOk (14, d.toNat, a.toNat) ∧ dxFieldOf 14 d.toNat a.toNat = some (.dxSlot14 d a) :=
  ⟨dxPartsOk_high (by norm_num) (by norm_num) rfl d.isLt a.isLt, by rw [dxFieldOf_14, ofNat_toNat_self, ofNat_toNat_self]⟩
theorem dxRow_15 (d : BitVec 2) (a : BitVec 4) : dxPartsOk (15, d.toNat, a.toNat) ∧ dxFieldOf 15 d.toNat a.toNat = some (.dxSlot15 d a) :=
  ⟨dxPartsOk_high (by norm_num) (by norm_num) rfl d.isLt a.isLt, by rw [dxFieldOf_15, ofNat_toNat_self, ofNat_toNat_self]⟩
theorem dxRow_16 (d : BitVec 3) (a : BitVec 4) : dxPartsOk (16, d.toNat, a.toNat) ∧ dxFieldOf 16 d.toNat a.toNat = some (.dxSlot16 d a) :=
  ⟨dxPartsOk_high (by norm_num) (by norm_num) rfl d.isLt a.isLt, by rw [dxFieldOf_16, ofNat_toNat_self, ofNat_toNat_self]⟩
theorem dxRow_17 (d : BitVec 3) (a : BitVec 4) : dxPartsOk (17, d.toNat, a.toNat) ∧ dxFieldOf 17 d.toNat a.toNat = some (.dxSlot17 d a) :=
  ⟨dxPartsOk_high (by norm_num) (by norm_num) rfl d.isLt a.isLt, by rw [dxFieldOf_17, ofNat_toNat_self, ofNat_toNat_self]⟩
theorem dxRow_18 (d : BitVec 4) (a : BitVec 4) : dxPartsOk (18, d.toNat, a.toNat) ∧ dxFieldOf 18 d.toNat a.toNat = some (.dxSlot18 d a) :=
  ⟨dxPartsOk_high (by norm_num) (by norm_num) rfl d.isLt a.isLt, by rw [dxFieldOf_18, ofNat_toNat_self, ofNat_toNat_self]⟩
theorem dxRow_19 (d : BitVec 4) (a : BitVec 4) : dxPartsOk (19, d.toNat, a.toNat) ∧ dxFieldOf 19 d.toNat a.toNat = some (.dxSlot19 d a) :=
  ⟨dxPartsOk_high (by norm_num) (by norm_num) rfl d.isLt a.isLt, by rw [dxFieldOf_19, ofNat_toNat_self, ofNat_toNat_self]⟩
theorem dxRow_20 (d : BitVec 5) (a : BitVec 4) : dxPartsOk (20, d.toNat, a.toNat) ∧ dxFieldOf 20 d.toNat a.toNat = some (.dxSlot20 d a) :=
  ⟨dxPartsOk_high (by norm_num) (by norm_num) rfl d.isLt a.isLt, by rw [dxFieldOf_20, ofNat_toNat_self, ofNat_toNat_self]⟩
theorem dxRow_21 (d : BitVec 5) (a : BitVec 4) : dxPartsOk (21, d.toNat, a.toNat) ∧ dxFieldOf 21 d.toNat a.toNat = some (.dxSlot21 d a) :=
  ⟨dxPartsOk_high (by norm_num) (by norm_num) rfl d.isLt a.isLt, by rw [dxFieldOf_21, ofNat_toNat_self, ofNat_toNat_self]⟩
theorem dxRow_22 (d : BitVec 6) (a : BitVec 4) : dxPartsOk (22, d.toNat, a.toNat) ∧ dxFieldOf 22 d.toNat a.toNat = some (.dxSlot22 d a) :=
  ⟨dxPartsOk_high (by norm_num) (by norm_num) rfl d.isLt a.isLt, by rw [dxFieldOf_22, ofNat_toNat_self, ofNat_toNat_self]⟩
theorem dxRow_23 (d : BitVec 6) (a : BitVec 4) : dxPartsOk (23, d.toNat, a.toNat) ∧ dxFieldOf 23 d.toNat a.toNat = some (.dxSlot23 d a) :=
  ⟨dxPartsOk_high (by norm_num) (by norm_num) rfl d.isLt a.isLt, by rw [dxFieldOf_23, ofNat_toNat_self, ofNat_toNat_self]⟩
theorem dxRow_24 (d : BitVec 7) (a : BitVec 4) : dxPartsOk (24, d.toNat, a.toNat) ∧ dxFieldOf 24 d.toNat a.toNat = some (.dxSlot24 d a) :=
  ⟨dxPartsOk_high (by norm_num) (by norm_num) rfl d.isLt a.isLt, by rw [dxFieldOf_24, ofNat_toNat_self, ofNat_toNat_self]⟩
theorem dxRow_25 (d : BitVec 7) (a : BitVec 4) : dxPartsOk (25, d.toNat, a.toNat) ∧ dxFieldOf 25 d.toNat a.toNat = some (.dxSlot25 d a) :=
  ⟨dxPartsOk_high (by norm_num) (by norm_num) rfl d.isLt a.isLt, by rw [dxFieldOf_25, ofNat_toNat_self, ofNat_toNat_self]⟩
theorem dxRow_26 (d : BitVec 8) (a : BitVec 4) : dxPartsOk (26, d.toNat, a.toNat) ∧ dxFieldOf 26 d.toNat a.toNat = some (.dxSlot26 d a) :=
  ⟨dxPartsOk_high (by norm_num) (by norm_num) rfl d.isLt a.isLt, by rw [dxFieldOf_26, ofNat_toNat_self, ofNat_toNat_self]⟩
theorem dxRow_27 (d : BitVec 8) (a : BitVec 4) : dxPartsOk (27, d.toNat, a.toNat) ∧ dxFieldOf 27 d.toNat a.toNat = some (.dxSlot27 d a) :=
  ⟨dxPartsOk_high (by norm_num) (by norm_num) rfl d.isLt a.isLt, by rw [dxFieldOf_27, ofNat_toNat_self, ofNat_toNat_self]⟩
theorem dxRow_28 (d : BitVec 9) (a : BitVec 4) : dxPartsOk (28, d.toNat, a.toNat) ∧ dxFieldOf 28 d.toNat a.toNat = some (.dxSlot28 d a) :=
  ⟨dxPartsOk_high (by norm_num) (by norm_num) rfl d.isLt a.isLt, by rw [dxFieldOf_28, ofNat_toNat_self, ofNat_toNat_self]⟩
theorem dxRow_29 (d : BitVec 9) (a : BitVec 4) : dxPartsOk (29, d.toNat, a.toNat) ∧ dxFieldOf 29 d.toNat a.toNat = some (.dxSlot29 d a) :=
  ⟨dxPartsOk_high (by norm_num) (by norm_num) rfl d.isLt a.isLt, by rw [dxFieldOf_29, ofNat_toNat_self, ofNat_toNat_self]⟩
theorem dxRow_30 (d : BitVec 10) (a : BitVec 4) : dxPartsOk (30, d.toNat, a.toNat) ∧ dxFieldOf 30 d.toNat a.toNat = some (.dxSlot30 d a) :=
  ⟨dxPartsOk_high (by norm_num) (by norm_num) rfl d.isLt a.isLt, by rw [dxFieldOf_30, ofNat_toNat_self, ofNat_toNat_self]⟩
theorem dxRow_31 (d : BitVec 10) (a : BitVec 4) : dxPartsOk (31, d.toNat, a.toNat) ∧ dxFieldOf 31 d.toNat a.toNat = some (.dxSlot31 d a) :=
  ⟨dxPartsOk_high (by norm_num) (by norm_num) rfl d.isLt a.isLt, by rw [dxFieldOf_31, ofNat_toNat_self, ofNat_toNat_self]⟩
theorem dxRow_32 (d : BitVec 11) (a : BitVec 4) : dxPartsOk (32, d.toNat, a.toNat) ∧ dxFieldOf 32 d.toNat a.toNat = some (.dxSlot32 d a) :=
  ⟨dxPartsOk_high (by norm_num) (by norm_num) rfl d.isLt a.isLt, by rw [dxFieldOf_32, ofNat_toNat_self, ofNat_toNat_self]⟩
theorem dxRow_33 (d : BitVec 11) (a : BitVec 4) : dxPartsOk (33, d.toNat, a.toNat) ∧ dxFieldOf 33 d.toNat a.toNat = some (.dxSlot33 d a) :=
  ⟨dxPartsOk_high (by norm_num) (by norm_num) rfl d.isLt a.isLt, by rw [dxFieldOf_33, ofNat_toNat_self, ofNat_toNat_self]⟩
theorem dxRow_34 (d : BitVec 12) (a : BitVec 4) : dxPartsOk (34, d.toNat, a.toNat) ∧ dxFieldOf 34 d.toNat a.toNat = some (.dxSlot34 d a) :=
  ⟨dxPartsOk_high (by norm_num) (by norm_num) rfl d.isLt a.isLt, by rw [dxFieldOf_34, ofNat_toNat_self, ofNat_toNat_self]⟩
theorem dxRow_35 (d : BitVec 12) (a : BitVec 4) : dxPartsOk (35, d.toNat, a.toNat) ∧ dxFieldOf 35 d.toNat a.toNat = some (.dxSlot35 d a) :=
  ⟨dxPartsOk_high (by norm_num) (by norm_num) rfl d.isLt a.isLt, by rw [dxFieldOf_35, ofNat_toNat_self, ofNat_toNat_self]⟩
theorem dxRow_36 (d : BitVec 13) (a : BitVec 4) : dxPartsOk (36, d.toNat, a.toNat) ∧ dxFieldOf 36 d.toNat a.toNat = some (.dxSlot36 d a) :=
  ⟨dxPartsOk_high (by norm_num) (by norm_num) rfl d.isLt a.isLt, by rw [dxFieldOf_36, ofNat_toNat_self, ofNat_toNat_self]⟩
theorem dxRow_37 (d : BitVec 13) (a : BitVec 4) : dxPartsOk (37, d.toNat, a.toNat) ∧ dxFieldOf 37 d.toNat a.toNat = some (.dxSlot37 d a) :=
  ⟨dxPartsOk_high (by norm_num) (by norm_num) rfl d.isLt a.isLt, by rw [dxFieldOf_37, ofNat_toNat_self, ofNat_toNat_self]⟩
theorem dxRow_38 (d : BitVec 14) (a : BitVec 4) : dxPartsOk (38, d.toNat, a.toNat) ∧ dxFieldOf 38 d.toNat a.toNat = some (.dxSlot38 d a) :=
  ⟨dxPartsOk_high (by norm_num) (by norm_num) rfl d.isLt a.isLt, by rw [dxFieldOf_38, ofNat_toNat_self, ofNat_toNat_self]⟩
theorem dxRow_39 (d : BitVec 14) (a : BitVec 4) : dxPartsOk (39, d.toNat, a.toNat) ∧ dxFieldOf 39 d.toNat a.toNat = some (.dxSlot39 d a) :=
  ⟨dxPartsOk_high (by norm_num) (by norm_num) rfl d.isLt a.isLt, by rw [dxFieldOf_39, ofNat_toNat_self, ofNat_toNat_self]⟩
theorem dxRow_40 (d : BitVec 15) (a : BitVec 4) : dxPartsOk (40, d.toNat, a.toNat) ∧ dxFieldOf 40 d.toNat a.toNat = some (.dxSlot40 d a) :=
  ⟨dxPartsOk_high (by norm_num) (by norm_num) rfl d.isLt a.isLt, by rw [dxFieldOf_40, ofNat_toNat_self, ofNat_toNat_self]⟩
theorem dxRow_41 (d : BitVec 15) (a : BitVec 4) : dxPartsOk (41, d.toNat, a.toNat) ∧ dxFieldOf 41 d.toNat a.toNat = some (.dxSlot41 d a) :=
  ⟨dxPartsOk_high (by norm_num) (by norm_num) rfl d.isLt a.isLt, by rw [dxFieldOf_41, ofNat_toNat_self, ofNat_toNat_self]⟩
theorem dxRow_42 (d : BitVec 16) (a : BitVec 4) : dxPartsOk (42, d.toNat, a.toNat) ∧ dxFieldOf 42 d.toNat a.toNat = some (.dxSlot42 d a) :=
  ⟨dxPartsOk_high (by norm_num) (by norm_num) rfl d.isLt a.isLt, by rw [dxFieldOf_42, ofNat_toNat_self, ofNat_toNat_self]⟩
theorem dxRow_43 (d : BitVec 16) (a : BitVec 4) : dxPartsOk (43, d.toNat, a.toNat) ∧ dxFieldOf 43 d.toNat a.toNat = some (.dxSlot43 d a) :=
  ⟨dxPartsOk_high (by norm_num) (by norm_num) rfl d.isLt a.isLt, by rw [dxFieldOf_43, ofNat_toNat_self, ofNat_toNat_self]⟩
theorem dxRow_44 (d : BitVec 17) (a : BitVec 4) : dxPartsOk (44, d.toNat, a.toNat) ∧ dxFieldOf 44 d.toNat a.toNat = some (.dxSlot44 d a) :=
  ⟨dxPartsOk_high (by norm_num) (by norm_num) rfl d.isLt a.isLt, by rw [dxFieldOf_44, ofNat_toNat_self, ofNat_toNat_self]⟩
theorem dxRow_45 (d : BitVec 17) (a : BitVec 4) : dxPartsOk (45, d.toNat, a.toNat) ∧ dxFieldOf 45 d.toNat a.toNat = some (.dxSlot45 d a) :=
  ⟨dxPartsOk_high (by norm_num) (by norm_num) rfl d.isLt a.isLt, by rw [dxFieldOf_45, ofNat_toNat_self, ofNat_toNat_self]⟩
theorem dxRow_46 (d : BitVec 18) (a : BitVec 4) : dxPartsOk (46, d.toNat, a.toNat) ∧ dxFieldOf 46 d.toNat a.toNat = some (.dxSlot46 d a) :=
  ⟨dxPartsOk_high (by norm_num) (by norm_num) rfl d.isLt a.isLt, by rw [dxFieldOf_46, ofNat_toNat_self, ofNat_toNat_self]⟩
theorem dxRow_47 (d : BitVec 18) (a : BitVec 4) : dxPartsOk (47, d.toNat, a.toNat) ∧ dxFieldOf 47 d.toNat a.toNat = some (.dxSlot47 d a) :=
  ⟨dxPartsOk_high (by norm_num) (by norm_num) rfl d.isLt a.isLt, by rw [dxFieldOf_47, ofNat_toNat_self, ofNat_toNat_self]⟩
theorem dxRow_48 (d : BitVec 19) (a : BitVec 4) : dxPartsOk (48, d.toNat, a.toNat) ∧ dxFieldOf 48 d.toNat a.toNat = some (.dxSlot48 d a) :=
  ⟨dxPartsOk_high (by norm_num) (by norm_num) rfl d.isLt a.isLt, by rw [dxFieldOf_48, ofNat_toNat_self, ofNat_toNat_self]⟩
theorem dxRow_49 (d : BitVec 19) (a : BitVec 4) : dxPartsOk (49, d.toNat, a.toNat) ∧ dxFieldOf 49 d.toNat a.toNat = some (.dxSlot49 d a) :=
  ⟨dxPartsOk_high (by norm_num) (by norm_num) rfl d.isLt a.isLt, by rw [dxFieldOf_49, ofNat_toNat_self, ofNat_toNat_self]⟩
theorem dxRow_50 (d : BitVec 20) (a : BitVec 4) : dxPartsOk (50, d.toNat, a.toNat) ∧ dxFieldOf 50 d.toNat a.toNat = some (.dxSlot50 d a) :=
  ⟨dxPartsOk_high (by norm_num) (by norm_num) rfl d.isLt a.isLt, by rw [dxFieldOf_50, ofNat_toNat_self, ofNat_toNat_self]⟩
theorem dxRow_51 (d : BitVec 20) (a : BitVec 4) : dxPartsOk (51, d.toNat, a.toNat) ∧ dxFieldOf 51 d.toNat a.toNat = some (.dxSlot51 d a) :=
  ⟨dxPartsOk_high (by norm_num) (by norm_num) rfl d.isLt a.isLt, by rw [dxFieldOf_51, ofNat_toNat_self, ofNat_toNat_self]⟩
theorem dxRow_52 (d : BitVec 21) (a : BitVec 4) : dxPartsOk (52, d.toNat, a.toNat) ∧ dxFieldOf 52 d.toNat a.toNat = some (.dxSlot52 d a) :=
  ⟨dxPartsOk_high (by norm_num) (by norm_num) rfl d.isLt a.isLt, by rw [dxFieldOf_52, ofNat_toNat_self, ofNat_toNat_self]⟩
theorem dxRow_53 (d : BitVec 21) (a : BitVec 4) : dxPartsOk (53, d.toNat, a.toNat) ∧ dxFieldOf 53 d.toNat a.toNat = some (.dxSlot53 d a) :=
  ⟨dxPartsOk_high (by norm_num) (by norm_num) rfl d.isLt a.isLt, by rw [dxFieldOf_53, ofNat_toNat_self, ofNat_toNat_self]⟩
theorem dxRow_54 (d : BitVec 22) (a : BitVec 4) : dxPartsOk (54, d.toNat, a.toNat) ∧ dxFieldOf 54 d.toNat a.toNat = some (.dxSlot54 d a) :=
  ⟨dxPartsOk_high (by norm_num) (by norm_num) rfl d.isLt a.isLt, by rw [dxFieldOf_54, ofNat_toNat_self, ofNat_toNat_self]⟩
theorem dxRow_55 (d : BitVec 22) (a : BitVec 4) : dxPartsOk (55, d.toNat, a.toNat) ∧ dxFieldOf 55 d.toNat a.toNat = some (.dxSlot55 d a) :=
  ⟨dxPartsOk_high (by norm_num) (by norm_num) rfl d.isLt a.isLt, by rw [dxFieldOf_55, ofNat_toNat_self, ofNat_toNat_self]⟩
theorem dxRow_56 (d : BitVec 23) (a : BitVec 4) : dxPartsOk (56, d.toNat, a.toNat) ∧ dxFieldOf 56 d.toNat a.toNat = some (.dxSlot56 d a) :=
  ⟨dxPartsOk_high (by norm_num) (by norm_num) rfl d.isLt a.isLt, by rw [dxFieldOf_56, ofNat_toNat_self, ofNat_toNat_self]⟩
theorem dxRow_57 (d : BitVec 23) (a : BitVec 4) : dxPartsOk (57, d.toNat, a.toNat) ∧ dxFieldOf 57 d.toNat a.toNat = some (.dxSlot57 d a) :=
  ⟨dxPartsOk_high (by norm_num) (by norm_num) rfl d.isLt a.isLt, by rw [dxFieldOf_57, ofNat_toNat_self, ofNat_toNat_self]⟩
theorem dxRow_58 (d : BitVec 24) (a : BitVec 4) : dxPartsOk (58, d.toNat, a.toNat) ∧ dxFieldOf 58 d.toNat a.toNat = some (.dxSlot58 d a) :=
  ⟨dxPartsOk_high (by norm_num) (by norm_num) rfl d.isLt a.isLt, by rw [dxFieldOf_58, ofNat_toNat_self, ofNat_toNat_self]⟩
theorem dxRow_59 (d : BitVec 24) (a : BitVec 4) : dxPartsOk (59, d.toNat, a.toNat) ∧ dxFieldOf 59 d.toNat a.toNat = some (.dxSlot59 d a) :=
  ⟨dxPartsOk_high (by norm_num) (by norm_num) rfl d.isLt a.isLt, by rw [dxFieldOf_59, ofNat_toNat_self, ofNat_toNat_self]⟩
theorem dxRow_60 (d : BitVec 25) (a : BitVec 4) : dxPartsOk (60, d.toNat, a.toNat) ∧ dxFieldOf 60 d.toNat a.toNat = some (.dxSlot60 d a) :=
  ⟨dxPartsOk_high (by norm_num) (by norm_num) rfl d.isLt a.isLt, by rw [dxFieldOf_60, ofNat_toNat_self, ofNat_toNat_self]⟩
theorem dxRow_61 (d : BitVec 25) (a : BitVec 4) : dxPartsOk (61, d.toNat, a.toNat) ∧ dxFieldOf 61 d.toNat a.toNat = some (.dxSlot61 d a) :=
  ⟨dxPartsOk_high (by norm_num) (by norm_num) rfl d.isLt a.isLt, by rw [dxFieldOf_61, ofNat_toNat_self, ofNat_toNat_self]⟩
theorem dxRow_62 (d : BitVec 26) (a : BitVec 4) : dxPartsOk (62, d.toNat, a.toNat) ∧ dxFieldOf 62 d.toNat a.toNat = some (.dxSlot62 d a) :=
  ⟨dxPartsOk_high (by norm_num) (by norm_num) rfl d.isLt a.isLt, by rw [dxFieldOf_62, ofNat_toNat_self, ofNat_toNat_self]⟩
theorem dxRow_63 (d : BitVec 26) (a : BitVec 4) : dxPartsOk (63, d.toNat, a.toNat) ∧ dxFieldOf 63 d.toNat a.toNat = some (.dxSlot63 d a) :=
  ⟨dxPartsOk_high (by norm_num) (by norm_num) rfl d.isLt a.isLt, by rw [dxFieldOf_63, ofNat_toNat_self, ofNat_toNat_self]⟩

/-- The parts of a slot row are parts a slot row can have, and make that row. -/
theorem dxParts_row {i : Instr} {slot x a : Nat} (h : i.dxParts? = some (slot, x, a)) :
    dxPartsOk (slot, x, a) ∧ dxFieldOf slot x a = some i := by
  cases i with
  | dxSlot0 => cases h; exact dxRow_0
  | dxSlot1 => cases h; exact dxRow_1
  | dxSlot2 => cases h; exact dxRow_2
  | dxSlot3 => cases h; exact dxRow_3
  | dxSlot4 r => cases h; exact dxRow_4 r
  | dxSlot5 r => cases h; exact dxRow_5 r
  | dxSlot6 r => cases h; exact dxRow_6 r
  | dxSlot7 r => cases h; exact dxRow_7 r
  | dxSlot8 r => cases h; exact dxRow_8 r
  | dxSlot9 r => cases h; exact dxRow_9 r
  | dxSlot10 r => cases h; exact dxRow_10 r
  | dxSlot11 r => cases h; exact dxRow_11 r
  | dxSlot12 r => cases h; exact dxRow_12 r
  | dxSlot13 r => cases h; exact dxRow_13 r
  | dxSlot14 d a => cases h; exact dxRow_14 d a
  | dxSlot15 d a => cases h; exact dxRow_15 d a
  | dxSlot16 d a => cases h; exact dxRow_16 d a
  | dxSlot17 d a => cases h; exact dxRow_17 d a
  | dxSlot18 d a => cases h; exact dxRow_18 d a
  | dxSlot19 d a => cases h; exact dxRow_19 d a
  | dxSlot20 d a => cases h; exact dxRow_20 d a
  | dxSlot21 d a => cases h; exact dxRow_21 d a
  | dxSlot22 d a => cases h; exact dxRow_22 d a
  | dxSlot23 d a => cases h; exact dxRow_23 d a
  | dxSlot24 d a => cases h; exact dxRow_24 d a
  | dxSlot25 d a => cases h; exact dxRow_25 d a
  | dxSlot26 d a => cases h; exact dxRow_26 d a
  | dxSlot27 d a => cases h; exact dxRow_27 d a
  | dxSlot28 d a => cases h; exact dxRow_28 d a
  | dxSlot29 d a => cases h; exact dxRow_29 d a
  | dxSlot30 d a => cases h; exact dxRow_30 d a
  | dxSlot31 d a => cases h; exact dxRow_31 d a
  | dxSlot32 d a => cases h; exact dxRow_32 d a
  | dxSlot33 d a => cases h; exact dxRow_33 d a
  | dxSlot34 d a => cases h; exact dxRow_34 d a
  | dxSlot35 d a => cases h; exact dxRow_35 d a
  | dxSlot36 d a => cases h; exact dxRow_36 d a
  | dxSlot37 d a => cases h; exact dxRow_37 d a
  | dxSlot38 d a => cases h; exact dxRow_38 d a
  | dxSlot39 d a => cases h; exact dxRow_39 d a
  | dxSlot40 d a => cases h; exact dxRow_40 d a
  | dxSlot41 d a => cases h; exact dxRow_41 d a
  | dxSlot42 d a => cases h; exact dxRow_42 d a
  | dxSlot43 d a => cases h; exact dxRow_43 d a
  | dxSlot44 d a => cases h; exact dxRow_44 d a
  | dxSlot45 d a => cases h; exact dxRow_45 d a
  | dxSlot46 d a => cases h; exact dxRow_46 d a
  | dxSlot47 d a => cases h; exact dxRow_47 d a
  | dxSlot48 d a => cases h; exact dxRow_48 d a
  | dxSlot49 d a => cases h; exact dxRow_49 d a
  | dxSlot50 d a => cases h; exact dxRow_50 d a
  | dxSlot51 d a => cases h; exact dxRow_51 d a
  | dxSlot52 d a => cases h; exact dxRow_52 d a
  | dxSlot53 d a => cases h; exact dxRow_53 d a
  | dxSlot54 d a => cases h; exact dxRow_54 d a
  | dxSlot55 d a => cases h; exact dxRow_55 d a
  | dxSlot56 d a => cases h; exact dxRow_56 d a
  | dxSlot57 d a => cases h; exact dxRow_57 d a
  | dxSlot58 d a => cases h; exact dxRow_58 d a
  | dxSlot59 d a => cases h; exact dxRow_59 d a
  | dxSlot60 d a => cases h; exact dxRow_60 d a
  | dxSlot61 d a => cases h; exact dxRow_61 d a
  | dxSlot62 d a => cases h; exact dxRow_62 d a
  | dxSlot63 d a => cases h; exact dxRow_63 d a
  | _ => cases h

/-- The word of a slot row is its slot and extension. -/
theorem encode_dxParts {i : Instr} {slot x a : Nat} (h : i.dxParts? = some (slot, x, a)) :
    encode i = .decisions (dxBits slot x a) := by
  cases i with
  | dxSlot0 => cases h; rfl
  | dxSlot1 => cases h; rfl
  | dxSlot2 => cases h; rfl
  | dxSlot3 => cases h; rfl
  | dxSlot4 r => cases h; rfl
  | dxSlot5 r => cases h; rfl
  | dxSlot6 r => cases h; rfl
  | dxSlot7 r => cases h; rfl
  | dxSlot8 r => cases h; rfl
  | dxSlot9 r => cases h; rfl
  | dxSlot10 r => cases h; rfl
  | dxSlot11 r => cases h; rfl
  | dxSlot12 r => cases h; rfl
  | dxSlot13 r => cases h; rfl
  | dxSlot14 d a => cases h; rfl
  | dxSlot15 d a => cases h; rfl
  | dxSlot16 d a => cases h; rfl
  | dxSlot17 d a => cases h; rfl
  | dxSlot18 d a => cases h; rfl
  | dxSlot19 d a => cases h; rfl
  | dxSlot20 d a => cases h; rfl
  | dxSlot21 d a => cases h; rfl
  | dxSlot22 d a => cases h; rfl
  | dxSlot23 d a => cases h; rfl
  | dxSlot24 d a => cases h; rfl
  | dxSlot25 d a => cases h; rfl
  | dxSlot26 d a => cases h; rfl
  | dxSlot27 d a => cases h; rfl
  | dxSlot28 d a => cases h; rfl
  | dxSlot29 d a => cases h; rfl
  | dxSlot30 d a => cases h; rfl
  | dxSlot31 d a => cases h; rfl
  | dxSlot32 d a => cases h; rfl
  | dxSlot33 d a => cases h; rfl
  | dxSlot34 d a => cases h; rfl
  | dxSlot35 d a => cases h; rfl
  | dxSlot36 d a => cases h; rfl
  | dxSlot37 d a => cases h; rfl
  | dxSlot38 d a => cases h; rfl
  | dxSlot39 d a => cases h; rfl
  | dxSlot40 d a => cases h; rfl
  | dxSlot41 d a => cases h; rfl
  | dxSlot42 d a => cases h; rfl
  | dxSlot43 d a => cases h; rfl
  | dxSlot44 d a => cases h; rfl
  | dxSlot45 d a => cases h; rfl
  | dxSlot46 d a => cases h; rfl
  | dxSlot47 d a => cases h; rfl
  | dxSlot48 d a => cases h; rfl
  | dxSlot49 d a => cases h; rfl
  | dxSlot50 d a => cases h; rfl
  | dxSlot51 d a => cases h; rfl
  | dxSlot52 d a => cases h; rfl
  | dxSlot53 d a => cases h; rfl
  | dxSlot54 d a => cases h; rfl
  | dxSlot55 d a => cases h; rfl
  | dxSlot56 d a => cases h; rfl
  | dxSlot57 d a => cases h; rfl
  | dxSlot58 d a => cases h; rfl
  | dxSlot59 d a => cases h; rfl
  | dxSlot60 d a => cases h; rfl
  | dxSlot61 d a => cases h; rfl
  | dxSlot62 d a => cases h; rfl
  | dxSlot63 d a => cases h; rfl
  | _ => cases h

/-! ## Fields -/

/-- The length field reads back as the row of its value. -/
theorem decodeLenField_lenBits {v : Nat} (hv : v ≤ 271) (rest : List Bool) :
    decodeLenField (lenBits v ++ rest) = .ok (lenFieldOf v, rest) ∧ (lenFieldOf v).lenValue? = some v := by
  unfold lenBits lenFieldOf
  split
  · rename_i h
    simp only [List.cons_append, decodeLenField]
    rw [readMsb_append 3 _ rest 0 (msbBits_length 3 v), bitsFrom_msbBits, Nat.mod_eq_of_lt (by omega)]
    exact ⟨rfl, by simp [Instr.lenValue?]; omega⟩
  · split
    · simp only [List.cons_append, decodeLenField]
      rw [readMsb_append 3 _ rest 0 (msbBits_length 3 _), bitsFrom_msbBits, Nat.mod_eq_of_lt (by omega)]
      exact ⟨rfl, by simp [Instr.lenValue?]; omega⟩
    · simp only [List.cons_append, decodeLenField]
      rw [readMsb_append 8 _ rest 0 (msbBits_length 8 _), bitsFrom_msbBits, Nat.mod_eq_of_lt (by omega)]
      exact ⟨rfl, by simp [Instr.lenValue?]; omega⟩

/-- The slot and extension read back as their parts. -/
theorem decodeDxParts_dxBits {slot x a : Nat} (h : dxPartsOk (slot, x, a)) (rest : List Bool) :
    decodeDxParts (dxBits slot x a ++ rest) = .ok ((slot, x, a), rest) := by
  obtain ⟨h1, h2⟩ := h
  simp only at h1 h2
  unfold dxBits decodeDxParts
  rw [List.append_assoc, readMsb_append 6 _ _ 0 (msbBits_length 6 slot), bitsFrom_msbBits,
    Nat.mod_eq_of_lt (by omega)]
  dsimp only
  split at h2
  · rename_i hs; simp [hs, h2]
  · rename_i hs
    split at h2
    · rename_i hs2
      simp only [hs, hs2, if_true, if_false]
      rw [readLsb_append _ _ _ (lsbBits_length _ x), bitsRev_lsbBits, Nat.mod_eq_of_lt h2.1]
      simp [h2.2]
    · rename_i hs2
      simp only [hs, hs2, if_false]
      rw [List.append_assoc, readMsb_append _ _ _ 0 (msbBits_length _ x), bitsFrom_msbBits,
        Nat.mod_eq_of_lt h2.1]
      dsimp only
      rw [readLsb_append _ _ _ (lsbBits_length _ a), bitsRev_lsbBits, Nat.mod_eq_of_lt h2.2]

/-- A decision string that reads as slot and extension begins with theirs. -/
theorem decodeDxParts_ok {ds rest : List Bool} {p : Nat × Nat × Nat} (h : decodeDxParts ds = .ok (p, rest)) :
    dxPartsOk p ∧ ds = dxBits p.1 p.2.1 p.2.2 ++ rest := by
  unfold decodeDxParts at h
  split at h
  · simp at h
  · rename_i slot ds1 h1
    obtain ⟨bs, b1, rfl, rfl⟩ := readMsb_ok 6 _ _ h1
    have hlt := bitsFrom_lt bs
    have hb : msbBits 6 (bitsFrom 0 bs) = bs := b1 ▸ msbBits_bitsFrom bs 0
    rw [b1] at hlt
    split at h
    · rename_i hs
      simp only [Except.ok.injEq, Prod.mk.injEq] at h
      obtain ⟨rfl, rfl⟩ := h
      simp [dxPartsOk, dxBits, hs, hb]; omega
    · rename_i hs
      split at h
      · rename_i hs2
        split at h
        · simp at h
        · rename_i x ds2 h2
          obtain ⟨cs, c1, rfl, rfl⟩ := readLsb_ok _ _ h2
          simp only [Except.ok.injEq, Prod.mk.injEq] at h
          obtain ⟨rfl, rfl⟩ := h
          have hc : lsbBits (slotBits (bitsFrom 0 bs)) (bitsRev cs) = cs := c1 ▸ lsbBits_bitsRev cs
          have hx := bitsRev_lt cs
          rw [c1] at hx
          refine ⟨⟨hlt, ?_⟩, ?_⟩
          · simp only [hs, hs2, if_true, if_false]; exact ⟨hx, trivial⟩
          · simp only [dxBits, hs, hs2, if_true, if_false, hb, hc, List.append_assoc]
      · rename_i hs2
        split at h
        · simp at h
        · rename_i x ds2 h2
          obtain ⟨cs, c1, rfl, rfl⟩ := readMsb_ok _ _ _ h2
          split at h
          · simp at h
          · rename_i a ds3 h3
            obtain ⟨es, e1, rfl, rfl⟩ := readLsb_ok _ _ h3
            simp only [Except.ok.injEq, Prod.mk.injEq] at h
            obtain ⟨rfl, rfl⟩ := h
            have hc : msbBits (slotBits (bitsFrom 0 bs) - Config.alignBits) (bitsFrom 0 cs) = cs :=
              c1 ▸ msbBits_bitsFrom cs 0
            have he : lsbBits Config.alignBits (bitsRev es) = es := e1 ▸ lsbBits_bitsRev es
            have hx := bitsFrom_lt cs
            have ha := bitsRev_lt es
            rw [c1] at hx
            rw [e1] at ha
            refine ⟨⟨hlt, ?_⟩, ?_⟩
            · simp only [hs, hs2, if_false]; exact ⟨hx, ha⟩
            · simp only [dxBits, hs, hs2, if_false, hb, hc, he, List.append_assoc]

/-- A decision string that reads as a length field begins with the field of its value. -/
theorem decodeLenField_ok {ds rest : List Bool} {f : Instr} (h : decodeLenField ds = .ok (f, rest)) :
    ∃ v, v ≤ 271 ∧ f.lenValue? = some v ∧ ds = lenBits v ++ rest := by
  have key : ∀ (n k : Nat) (ds1 : List Bool) (v : Nat), readMsb n 0 ds1 = .ok (v, rest) →
      v < 2 ^ n ∧ ds1 = msbBits n v ++ rest := by
    intro n k ds1 v hr
    obtain ⟨bs, b1, rfl, rfl⟩ := readMsb_ok n _ _ hr
    exact ⟨b1 ▸ bitsFrom_lt bs, by rw [show msbBits n (bitsFrom 0 bs) = bs from b1 ▸ msbBits_bitsFrom bs 0]⟩
  unfold decodeLenField at h
  split at h
  · split at h
    · rename_i v rest' h1
      simp only [Except.ok.injEq, Prod.mk.injEq] at h
      obtain ⟨rfl, rfl⟩ := h
      obtain ⟨k1, rfl⟩ := key 3 0 _ _ h1
      exact ⟨v, by omega, by simp [Instr.lenValue?]; omega, by rw [lenBits, if_pos (by omega)]; rfl⟩
    · simp at h
  · split at h
    · rename_i v rest' h1
      simp only [Except.ok.injEq, Prod.mk.injEq] at h
      obtain ⟨rfl, rfl⟩ := h
      obtain ⟨k1, rfl⟩ := key 3 0 _ _ h1
      exact ⟨8 + v, by omega, by simp [Instr.lenValue?]; omega,
        by rw [lenBits, if_neg (by omega), if_pos (by omega), Nat.add_sub_cancel_left]; rfl⟩
    · simp at h
  · split at h
    · rename_i v rest' h1
      simp only [Except.ok.injEq, Prod.mk.injEq] at h
      obtain ⟨rfl, rfl⟩ := h
      obtain ⟨k1, rfl⟩ := key 8 0 _ _ h1
      exact ⟨16 + v, by omega, by simp [Instr.lenValue?]; omega,
        by rw [lenBits, if_neg (by omega), if_neg (by omega), Nat.add_sub_cancel_left]; rfl⟩
    · simp at h
  · simp at h

end Sys2Proof.Machine
end

