-- ==== Sys2Proof/Laws/State.lean ====
section
/-! SUPPORT. What each named update of the state leaves in each field, by computation, so that no proof unfolds a
record update. -/

namespace Sys2Proof.Machine

/-! ## `unspecify` -/

@[simp] theorem unspecify_rc (s : State) : (unspecify s).rc = freeRc s.draws := rfl
@[simp] theorem unspecify_seq (s : State) : (unspecify s).seq = freeSeq s.draws := rfl
@[simp] theorem unspecify_ow (s : State) : (unspecify s).ow = freeOw s.draws := rfl
@[simp] theorem unspecify_cf (s : State) : (unspecify s).cf = s.cf := rfl
@[simp] theorem unspecify_runState (s : State) : (unspecify s).runState = s.runState := rfl
@[simp] theorem unspecify_cause (s : State) : (unspecify s).cause = s.cause := rfl
@[simp] theorem unspecify_endMarker (s : State) : (unspecify s).endMarker = s.endMarker := rfl
@[simp] theorem unspecify_outSize (s : State) : (unspecify s).outSize = s.outSize := rfl
@[simp] theorem unspecify_input (s : State) : (unspecify s).input = s.input := rfl
@[simp] theorem unspecify_presented (s : State) : (unspecify s).presented = s.presented := rfl
@[simp] theorem unspecify_result (s : State) : (unspecify s).result = s.result := rfl
@[simp] theorem unspecify_hostData (s : State) : (unspecify s).hostData = s.hostData := rfl
@[simp] theorem unspecify_boundaries (s : State) : (unspecify s).boundaries = s.boundaries := rfl
@[simp] theorem unspecify_draws (s : State) : (unspecify s).draws = s.draws + 1 := rfl
@[simp] theorem unspecify_events (s : State) : (unspecify s).events = s.events := rfl

/-! ## `takeFault` -/

@[simp] theorem takeFault_rc (c : Cause) (s : State) : (takeFault c s).rc = freeRc s.draws := rfl
@[simp] theorem takeFault_seq (c : Cause) (s : State) : (takeFault c s).seq = freeSeq s.draws := rfl
@[simp] theorem takeFault_ow (c : Cause) (s : State) : (takeFault c s).ow = freeOw s.draws := rfl
@[simp] theorem takeFault_cf (c : Cause) (s : State) : (takeFault c s).cf = s.cf := rfl
@[simp] theorem takeFault_runState (c : Cause) (s : State) : (takeFault c s).runState = .fault := rfl
@[simp] theorem takeFault_cause (c : Cause) (s : State) : (takeFault c s).cause = c := rfl
@[simp] theorem takeFault_endMarker (c : Cause) (s : State) : (takeFault c s).endMarker = s.endMarker := rfl
@[simp] theorem takeFault_outSize (c : Cause) (s : State) : (takeFault c s).outSize = s.outSize := rfl
@[simp] theorem takeFault_input (c : Cause) (s : State) : (takeFault c s).input = s.input := rfl
@[simp] theorem takeFault_presented (c : Cause) (s : State) : (takeFault c s).presented = s.presented := rfl
@[simp] theorem takeFault_result (c : Cause) (s : State) : (takeFault c s).result = s.result := rfl
@[simp] theorem takeFault_hostData (c : Cause) (s : State) : (takeFault c s).hostData = s.hostData := rfl
@[simp] theorem takeFault_boundaries (c : Cause) (s : State) : (takeFault c s).boundaries = s.boundaries := rfl
@[simp] theorem takeFault_draws (c : Cause) (s : State) : (takeFault c s).draws = s.draws + 1 := rfl
@[simp] theorem takeFault_events (c : Cause) (s : State) : (takeFault c s).events = s.events := rfl

/-! ## `endRun` -/

@[simp] theorem endRun_rc (s : State) : (endRun s).rc = s.rc := rfl
@[simp] theorem endRun_seq (s : State) : (endRun s).seq = s.seq := rfl
@[simp] theorem endRun_ow (s : State) : (endRun s).ow = owFlush s.ow := rfl
@[simp] theorem endRun_cf (s : State) : (endRun s).cf = s.cf := rfl
@[simp] theorem endRun_runState (s : State) : (endRun s).runState = .done := rfl
@[simp] theorem endRun_cause (s : State) : (endRun s).cause = s.cause := rfl
@[simp] theorem endRun_endMarker (s : State) : (endRun s).endMarker = s.endMarker := rfl
@[simp] theorem endRun_outSize (s : State) : (endRun s).outSize = s.outSize := rfl
@[simp] theorem endRun_input (s : State) : (endRun s).input = s.input := rfl
@[simp] theorem endRun_presented (s : State) : (endRun s).presented = s.presented := rfl
@[simp] theorem endRun_result (s : State) : (endRun s).result = s.result := rfl
@[simp] theorem endRun_hostData (s : State) : (endRun s).hostData = s.hostData := rfl
@[simp] theorem endRun_boundaries (s : State) : (endRun s).boundaries = s.boundaries := rfl
@[simp] theorem endRun_draws (s : State) : (endRun s).draws = s.draws := rfl
@[simp] theorem endRun_events (s : State) : (endRun s).events = s.events := rfl

/-! ## `resetCommand` -/

@[simp] theorem resetCommand_rc (s : State) : (resetCommand s).rc = freeRc s.draws := rfl
@[simp] theorem resetCommand_seq (s : State) : (resetCommand s).seq = freeSeq s.draws := rfl
@[simp] theorem resetCommand_ow (s : State) : (resetCommand s).ow = freeOw s.draws := rfl
@[simp] theorem resetCommand_cf (s : State) : (resetCommand s).cf = cfCleared := rfl
@[simp] theorem resetCommand_runState (s : State) : (resetCommand s).runState = .idle := rfl
@[simp] theorem resetCommand_cause (s : State) : (resetCommand s).cause = .none := rfl
@[simp] theorem resetCommand_endMarker (s : State) : (resetCommand s).endMarker = false := rfl
@[simp] theorem resetCommand_outSize (s : State) : (resetCommand s).outSize = Config.freeWord s.draws 5 := rfl
@[simp] theorem resetCommand_input (s : State) : (resetCommand s).input = s.input := rfl
@[simp] theorem resetCommand_presented (s : State) : (resetCommand s).presented = s.presented := rfl
@[simp] theorem resetCommand_result (s : State) : (resetCommand s).result = s.result := rfl
@[simp] theorem resetCommand_hostData (s : State) : (resetCommand s).hostData = s.hostData := rfl
@[simp] theorem resetCommand_boundaries (s : State) : (resetCommand s).boundaries = [] := rfl
@[simp] theorem resetCommand_draws (s : State) : (resetCommand s).draws = s.draws + 1 := rfl
@[simp] theorem resetCommand_events (s : State) : (resetCommand s).events = s.events := rfl

/-! ## `initPhase` -/

@[simp] theorem initPhase_rc (s : State) : (initPhase s).rc = { s.rc with inPos := 0, pmem := { base := .init, cells := [] } } := rfl
@[simp] theorem initPhase_seq (s : State) : (initPhase s).seq = { state := 0, rep0 := 0, rep1 := 0, rep2 := 0, rep3 := 0, pos := 0, prev := 0 } := rfl
@[simp] theorem initPhase_ow (s : State) : (initPhase s).ow = { s.ow with wpos := 0, spos := 0, total := 0, sink := [] } := rfl
@[simp] theorem initPhase_cf (s : State) : (initPhase s).cf = cfCleared := rfl
@[simp] theorem initPhase_runState (s : State) : (initPhase s).runState = .run := rfl
@[simp] theorem initPhase_cause (s : State) : (initPhase s).cause = .none := rfl
@[simp] theorem initPhase_endMarker (s : State) : (initPhase s).endMarker = false := rfl
@[simp] theorem initPhase_outSize (s : State) : (initPhase s).outSize = s.outSize := rfl
@[simp] theorem initPhase_input (s : State) : (initPhase s).input = s.presented := rfl
@[simp] theorem initPhase_presented (s : State) : (initPhase s).presented = s.presented := rfl
@[simp] theorem initPhase_result (s : State) : (initPhase s).result = s.result := rfl
@[simp] theorem initPhase_hostData (s : State) : (initPhase s).hostData = s.hostData := rfl
@[simp] theorem initPhase_boundaries (s : State) : (initPhase s).boundaries = [] := rfl
@[simp] theorem initPhase_draws (s : State) : (initPhase s).draws = s.draws := rfl
@[simp] theorem initPhase_events (s : State) : (initPhase s).events = s.events := rfl

/-! ## `putLiteral` -/

@[simp] theorem putLiteral_rc (b : Byte) (s : State) : (putLiteral b s).rc = s.rc := rfl
@[simp] theorem putLiteral_seq (b : Byte) (s : State) : (putLiteral b s).seq = { s.seq with pos := s.seq.pos + 1, prev := b, state := afterLiteral s.seq.state } := rfl
@[simp] theorem putLiteral_ow (b : Byte) (s : State) : (putLiteral b s).ow = owPut b s.ow := rfl
@[simp] theorem putLiteral_cf (b : Byte) (s : State) : (putLiteral b s).cf = s.cf := rfl
@[simp] theorem putLiteral_runState (b : Byte) (s : State) : (putLiteral b s).runState = s.runState := rfl
@[simp] theorem putLiteral_cause (b : Byte) (s : State) : (putLiteral b s).cause = s.cause := rfl
@[simp] theorem putLiteral_endMarker (b : Byte) (s : State) : (putLiteral b s).endMarker = s.endMarker := rfl
@[simp] theorem putLiteral_outSize (b : Byte) (s : State) : (putLiteral b s).outSize = s.outSize := rfl
@[simp] theorem putLiteral_input (b : Byte) (s : State) : (putLiteral b s).input = s.input := rfl
@[simp] theorem putLiteral_presented (b : Byte) (s : State) : (putLiteral b s).presented = s.presented := rfl
@[simp] theorem putLiteral_result (b : Byte) (s : State) : (putLiteral b s).result = s.result := rfl
@[simp] theorem putLiteral_hostData (b : Byte) (s : State) : (putLiteral b s).hostData = s.hostData := rfl
@[simp] theorem putLiteral_boundaries (b : Byte) (s : State) : (putLiteral b s).boundaries = s.boundaries := rfl
@[simp] theorem putLiteral_draws (b : Byte) (s : State) : (putLiteral b s).draws = s.draws := rfl
@[simp] theorem putLiteral_events (b : Byte) (s : State) : (putLiteral b s).events = s.events := rfl

/-! ## `endByMarker` -/

@[simp] theorem endByMarker_rc (s : State) : (endByMarker s).rc = s.rc := rfl
@[simp] theorem endByMarker_seq (s : State) : (endByMarker s).seq = { matchSeq s.seq with rep0 := Config.endMarkerDistance } := rfl
@[simp] theorem endByMarker_ow (s : State) : (endByMarker s).ow = owFlush s.ow := rfl
@[simp] theorem endByMarker_cf (s : State) : (endByMarker s).cf = s.cf := rfl
@[simp] theorem endByMarker_runState (s : State) : (endByMarker s).runState = .done := rfl
@[simp] theorem endByMarker_cause (s : State) : (endByMarker s).cause = s.cause := rfl
@[simp] theorem endByMarker_endMarker (s : State) : (endByMarker s).endMarker = true := rfl
@[simp] theorem endByMarker_outSize (s : State) : (endByMarker s).outSize = s.outSize := rfl
@[simp] theorem endByMarker_input (s : State) : (endByMarker s).input = s.input := rfl
@[simp] theorem endByMarker_presented (s : State) : (endByMarker s).presented = s.presented := rfl
@[simp] theorem endByMarker_result (s : State) : (endByMarker s).result = s.result := rfl
@[simp] theorem endByMarker_hostData (s : State) : (endByMarker s).hostData = s.hostData := rfl
@[simp] theorem endByMarker_boundaries (s : State) : (endByMarker s).boundaries = s.boundaries := rfl
@[simp] theorem endByMarker_draws (s : State) : (endByMarker s).draws = s.draws := rfl
@[simp] theorem endByMarker_events (s : State) : (endByMarker s).events = s.events := rfl

/-! ## `passBoundary` -/

@[simp] theorem passBoundary_rc (s : State) : (passBoundary s).rc = s.rc := rfl
@[simp] theorem passBoundary_seq (s : State) : (passBoundary s).seq = s.seq := rfl
@[simp] theorem passBoundary_ow (s : State) : (passBoundary s).ow = s.ow := rfl
@[simp] theorem passBoundary_cf (s : State) : (passBoundary s).cf = s.cf := rfl
@[simp] theorem passBoundary_runState (s : State) : (passBoundary s).runState = s.runState := rfl
@[simp] theorem passBoundary_cause (s : State) : (passBoundary s).cause = s.cause := rfl
@[simp] theorem passBoundary_endMarker (s : State) : (passBoundary s).endMarker = s.endMarker := rfl
@[simp] theorem passBoundary_outSize (s : State) : (passBoundary s).outSize = s.outSize := rfl
@[simp] theorem passBoundary_input (s : State) : (passBoundary s).input = s.input := rfl
@[simp] theorem passBoundary_presented (s : State) : (passBoundary s).presented = s.presented := rfl
@[simp] theorem passBoundary_result (s : State) : (passBoundary s).result = s.result := rfl
@[simp] theorem passBoundary_hostData (s : State) : (passBoundary s).hostData = s.hostData := rfl
@[simp] theorem passBoundary_boundaries (s : State) : (passBoundary s).boundaries = boundaryNow s :: s.boundaries := rfl
@[simp] theorem passBoundary_draws (s : State) : (passBoundary s).draws = s.draws := rfl
@[simp] theorem passBoundary_events (s : State) : (passBoundary s).events = s.events := rfl

/-! ## `hostRead` -/

@[simp] theorem hostRead_rc (n : Nat) (s : State) : (hostRead n s).rc = s.rc := rfl
@[simp] theorem hostRead_seq (n : Nat) (s : State) : (hostRead n s).seq = s.seq := rfl
@[simp] theorem hostRead_ow (n : Nat) (s : State) : (hostRead n s).ow = s.ow := rfl
@[simp] theorem hostRead_cf (n : Nat) (s : State) : (hostRead n s).cf = s.cf := rfl
@[simp] theorem hostRead_runState (n : Nat) (s : State) : (hostRead n s).runState = s.runState := rfl
@[simp] theorem hostRead_cause (n : Nat) (s : State) : (hostRead n s).cause = s.cause := rfl
@[simp] theorem hostRead_endMarker (n : Nat) (s : State) : (hostRead n s).endMarker = s.endMarker := rfl
@[simp] theorem hostRead_outSize (n : Nat) (s : State) : (hostRead n s).outSize = s.outSize := rfl
@[simp] theorem hostRead_input (n : Nat) (s : State) : (hostRead n s).input = s.input := rfl
@[simp] theorem hostRead_presented (n : Nat) (s : State) : (hostRead n s).presented = s.presented := rfl
@[simp] theorem hostRead_result (n : Nat) (s : State) : (hostRead n s).result = s.result := rfl
@[simp] theorem hostRead_hostData (n : Nat) (s : State) : (hostRead n s).hostData = regRead s n := rfl
@[simp] theorem hostRead_boundaries (n : Nat) (s : State) : (hostRead n s).boundaries = s.boundaries := rfl
@[simp] theorem hostRead_draws (n : Nat) (s : State) : (hostRead n s).draws = s.draws + 1 := rfl
@[simp] theorem hostRead_events (n : Nat) (s : State) : (hostRead n s).events = s.events := rfl

/-! ## `matchSeq` -/

@[simp] theorem matchSeq_state (q : Seq) : (matchSeq q).state = afterMatch q.state := rfl
@[simp] theorem matchSeq_rep0 (q : Seq) : (matchSeq q).rep0 = q.rep0 := rfl
@[simp] theorem matchSeq_rep1 (q : Seq) : (matchSeq q).rep1 = q.rep0 := rfl
@[simp] theorem matchSeq_rep2 (q : Seq) : (matchSeq q).rep2 = q.rep1 := rfl
@[simp] theorem matchSeq_rep3 (q : Seq) : (matchSeq q).rep3 = q.rep2 := rfl
@[simp] theorem matchSeq_pos (q : Seq) : (matchSeq q).pos = q.pos := rfl
@[simp] theorem matchSeq_prev (q : Seq) : (matchSeq q).prev = q.prev := rfl

/-! ## `longRepSeq` -/

@[simp] theorem longRepSeq_state (q : Seq) : (longRepSeq q).state = afterLongRep q.state := rfl
@[simp] theorem longRepSeq_rep0 (q : Seq) : (longRepSeq q).rep0 = q.rep0 := rfl
@[simp] theorem longRepSeq_rep1 (q : Seq) : (longRepSeq q).rep1 = q.rep1 := rfl
@[simp] theorem longRepSeq_rep2 (q : Seq) : (longRepSeq q).rep2 = q.rep2 := rfl
@[simp] theorem longRepSeq_rep3 (q : Seq) : (longRepSeq q).rep3 = q.rep3 := rfl
@[simp] theorem longRepSeq_pos (q : Seq) : (longRepSeq q).pos = q.pos := rfl
@[simp] theorem longRepSeq_prev (q : Seq) : (longRepSeq q).prev = q.prev := rfl

end Sys2Proof.Machine
end

