-- ==== Sys2Proof/Laws/Window.lean ====
section
/-! SUPPORT. What each operation of the output window does to the output it stands for (spec/10_state.md R37,
spec/44_output_window.md), said once. -/

namespace Sys2Proof.Machine

@[simp] theorem winBytes_length (o : Ow) (start k : Nat) : (winBytes o start k).length = k := by simp [winBytes]

theorem winBytes_getElem? (o : Ow) {start k i : Nat} (h : i < k) :
    (winBytes o start k)[i]? = some (winRead o (start + i)) := by
  simp [winBytes, h]

theorem winBytes_succ (o : Ow) (start k : Nat) :
    winBytes o start (k + 1) = winBytes o start k ++ [winRead o (start + k)] := by
  simp [winBytes, List.range'_concat]

theorem winBytes_congr {o o' : Ow} {start k : Nat} (h : ∀ q, q < start + k → winRead o' q = winRead o q) :
    winBytes o' start k = winBytes o start k := by
  unfold winBytes
  apply List.map_congr_left
  intro q hq
  rw [List.mem_range'_1] at hq
  exact h q (by omega)

/-- The cursor and the flushing of `OW.PUT` (R171): either the window is not full, or all of it reaches `SINK`. -/
theorem owPut_cases (b : Byte) (o : Ow) :
    (o.wpos.val + 1 < Config.windowCap ∧ (owPut b o).wpos.val = o.wpos.val + 1 ∧ (owPut b o).spos = o.spos ∧
      (owPut b o).sink = o.sink ∧ (owPut b o).total = o.total + 1) ∨
    (o.wpos.val + 1 = Config.windowCap ∧ (owPut b o).wpos.val = 0 ∧ (owPut b o).spos.val = 0 ∧
      (owPut b o).sink = o.sink ++ winBytes (owPut b o) o.spos.val (Config.windowCap - o.spos.val) ∧
      (owPut b o).total = o.total + 1) := by
  have hw := o.wpos.isLt
  have hs := o.spos.isLt
  by_cases h : Config.windowCap ≤ o.wpos.val + 1
  · have hc : o.wpos.val + 1 = Config.windowCap := by omega
    refine Or.inr ⟨hc, ?_⟩
    have hput : owPut b o = owFlushAt Config.windowCap
        { o with win := listWrite o.win o.wpos.val b, total := o.total + 1 } := by
      unfold owPut; rw [if_pos h, hc]
    have hne' : ¬ (Config.windowCap = o.spos.val) := by omega
    rw [hput, owFlushAt, if_neg hne', if_pos (Nat.le_refl _)]
    exact ⟨rfl, rfl, rfl, rfl⟩
  · refine Or.inl ⟨by omega, ?_⟩
    have hw' : (owPut b o).wpos = Fin.ofNat Config.windowCap (o.wpos.val + 1) := by unfold owPut; rw [if_neg h]
    refine ⟨?_, ?_, ?_, ?_⟩
    · rw [hw']; exact Nat.mod_eq_of_lt (by omega)
    all_goals unfold owPut; rw [if_neg h]

theorem winIndex_lt (w : Fin Config.windowCap) (d : Nat) : winIndex w d < Config.windowCap := by
  have := w.isLt
  unfold winIndex; split <;> omega

/-- One put later, the byte at distance `d + 1` is where the byte at distance `d` was, and it is not the byte put. -/
theorem winIndex_put {w w' : Fin Config.windowCap} {d : Nat} (hd : d + 1 < Config.windowCap)
    (h : w'.val = w.val + 1 ∨ w.val + 1 = Config.windowCap ∧ w'.val = 0) :
    winIndex w' (d + 1) = winIndex w d ∧ winIndex w d ≠ w.val := by
  have := w.isLt
  unfold winIndex
  rcases h with h | ⟨h, h0⟩
  · rw [h]; constructor <;> (repeat' split) <;> omega
  · rw [h0]; constructor <;> (repeat' split) <;> omega

/-- `OW.PUT` appends its byte to the output, and the window still stands for it (R37, R171). -/
theorem owPut_output {o : Ow} (h : o.HoldsOutput) (b : Byte) :
    (owPut b o).HoldsOutput ∧ (owPut b o).output = o.output ++ [b] := by
  have hrd := winRead_owPut b o
  have hlt := o.wpos.isLt
  have hle := h.spos_le
  have hbytes : ∀ k, o.spos.val + k ≤ o.wpos.val →
      winBytes (owPut b o) o.spos.val k = winBytes o o.spos.val k := by
    intro k hk
    apply winBytes_congr
    intro q hq
    rw [hrd, if_neg (by omega)]
  have hlast : winBytes (owPut b o) o.spos.val (o.wpos.val - o.spos.val + 1) =
      winBytes o o.spos.val (o.wpos.val - o.spos.val) ++ [b] := by
    rw [winBytes_succ, hbytes _ (by omega), hrd, if_pos (by omega)]
  have hout : (owPut b o).output = o.output ++ [b] := by
    rcases owPut_cases b o with ⟨_, h2, h3, h4, _⟩ | ⟨h1, h2, h3, h4, _⟩
    · rw [Ow.output, h2, h3, h4, show o.wpos.val + 1 - o.spos.val = o.wpos.val - o.spos.val + 1 by omega, hlast,
        Ow.output, List.append_assoc]
    · rw [Ow.output, h2, h3, h4, show Config.windowCap - o.spos.val = o.wpos.val - o.spos.val + 1 by omega, hlast,
        Ow.output]
      simp [winBytes]
  have htot : (owPut b o).total = o.total + 1 := by
    rcases owPut_cases b o with h | h
    · exact h.2.2.2.2
    · exact h.2.2.2.2
  have hpos : (owPut b o).wpos.val = o.wpos.val + 1 ∨
      o.wpos.val + 1 = Config.windowCap ∧ (owPut b o).wpos.val = 0 := by
    rcases owPut_cases b o with h | h
    · exact Or.inl h.2.1
    · exact Or.inr ⟨h.1, h.2.1⟩
  refine ⟨⟨?_, ?_, ?_⟩, hout⟩
  · rcases owPut_cases b o with ⟨_, h2, h3, _⟩ | ⟨_, h2, h3, _⟩
    · rw [h2, h3]; omega
    · rw [h2, h3]
  · rw [hout, htot, List.length_append, h.length_output]; rfl
  · intro d hd hcap
    rw [htot] at hd ⊢
    rw [hout]
    cases d with
    | zero =>
      have hidx : winIndex (owPut b o).wpos 0 = o.wpos.val := by
        unfold winIndex
        rcases hpos with hp | ⟨hp, hp0⟩
        · rw [hp]; split <;> omega
        · rw [hp0]; split <;> omega
      rw [hidx, hrd, if_pos rfl, List.getElem?_append_right (by rw [h.length_output]; omega), h.length_output]
      simp
    | succ e =>
      obtain ⟨h1, h2⟩ := winIndex_put hcap hpos
      rw [h1, hrd, if_neg h2, List.getElem?_append_left (by rw [h.length_output]; omega),
        show o.total + 1 - (e + 1) - 1 = o.total - e - 1 by omega]
      exact h.byte e (by omega) (by omega)

/-- With the flush mark at 0, what has reached `SINK` is the output before the cursor's lap (R287). -/
theorem Ow.HoldsOutput.sink_eq {o : Ow} (h : o.HoldsOutput) (h0 : o.spos.val = 0) :
    o.sink = o.output.take (o.total - o.wpos.val) ∧ o.sink.length + o.wpos.val = o.total := by
  have hl : o.sink.length + o.wpos.val = o.total := by
    rw [← h.length_output, Ow.output, h0, List.length_append, winBytes_length, Nat.sub_zero]
  refine ⟨?_, hl⟩
  rw [← hl, Nat.add_sub_cancel, Ow.output, List.take_left']
  rfl

/-- The puts of a step end where one more put after the first leaves off. -/
theorem Ow.Puts.cons {n : Nat} {o m o' : Ow} (h1 : o.Puts 1 m) (h2 : m.Puts n o') (h : o'.HoldsOutput) :
    o.Puts (n + 1) o' := by
  have hm := m.wpos.isLt
  have h0 := o'.wpos.isLt
  have w1 := h1.wpos
  have w2 := h2.wpos
  have lt := o.wpos.isLt
  refine ⟨by simp only [Config.windowCap] at *; omega, fun hb => ?_, fun hc => ?_⟩
  · rw [Nat.mod_eq_of_lt (by omega)] at w1
    obtain ⟨a1, a2⟩ := h1.below (by omega)
    obtain ⟨b1, b2⟩ := h2.below (by omega)
    exact ⟨b1.trans a1, b2.trans a2⟩
  · have hs : o'.spos.val = 0 := by
      by_cases hn : Config.windowCap ≤ m.wpos.val + n
      · exact (h2.wrapped hn).1
      · rw [(h2.below (by omega)).1]
        refine (h1.wrapped ?_).1
        by_contra hlt
        rw [Nat.mod_eq_of_lt (by omega)] at w1
        omega
    exact ⟨hs, (h.sink_eq hs).1⟩

/-- One put moves the cursor by one and delivers a full window (R171). -/
theorem owPut_puts {o : Ow} (h : o.HoldsOutput) (b : Byte) : o.Puts 1 (owPut b o) := by
  have lt := o.wpos.isLt
  rcases owPut_cases b o with ⟨h1, h2, h3, h4, _⟩ | ⟨h1, h2, h3, _⟩
  · exact ⟨by rw [h2, Nat.mod_eq_of_lt h1], fun _ => ⟨h3, h4⟩, fun hc => by omega⟩
  · exact ⟨by rw [h1, h2, Nat.mod_self], fun hb => by omega, fun _ => ⟨h3, ((owPut_output h b).1.sink_eq h3).1⟩⟩

/-- `OW.FLUSH` between operations: it moves what is pending to `SINK` (R172). -/
theorem owFlush_fields (o : Ow) :
    (owFlush o).win = o.win ∧ (owFlush o).winDraw = o.winDraw ∧ (owFlush o).wpos = o.wpos ∧
      (owFlush o).spos = o.wpos ∧ (owFlush o).total = o.total ∧ (owFlush o).sink = o.output := by
  have hw := o.wpos.isLt
  unfold owFlush owFlushAt
  split
  · rename_i h
    have hws : o.wpos = o.spos := Fin.ext h
    refine ⟨rfl, rfl, rfl, hws.symm, rfl, ?_⟩
    simp [Ow.output, winBytes, h]
  · have hc : ¬ (Config.windowCap ≤ o.wpos.val) := by omega
    have hf : Fin.ofNat Config.windowCap o.wpos.val = o.wpos := Fin.ext (Nat.mod_eq_of_lt hw)
    simp only [hc, if_false, hf]
    simp [Ow.output]

/-- `OW.FLUSH` leaves the output and the window that stands for it, and all of the output is in `SINK` (R172). -/
theorem owFlush_output {o : Ow} (h : o.HoldsOutput) :
    (owFlush o).HoldsOutput ∧ (owFlush o).output = o.output ∧ (owFlush o).sink = o.output ∧
      (owFlush o).spos = (owFlush o).wpos := by
  obtain ⟨h1, h2, h3, h4, h5, h6⟩ := owFlush_fields o
  have hout : (owFlush o).output = o.output := by
    rw [Ow.output, h6, h3, h4]; simp [winBytes]
  refine ⟨⟨by rw [h3, h4], by rw [hout, h5, h.length_output], ?_⟩, hout, h6, by rw [h3, h4]⟩
  intro d hd hc
  rw [h5] at hd ⊢
  rw [hout, h3, winRead_owFlush]
  exact h.byte d hd hc

/-- All that `OW.GET` can do (R173, R174). -/
theorem owGet_eq (d : Word) (o : Ow) :
    owGet d o = if d.toNat < o.total ∧ d.toNat < Config.windowCap then
      .ok (winRead o (winIndex o.wpos d.toNat)) o else .raise .windowRange o := by
  unfold owGet
  by_cases h : d.toNat < o.total ∧ d.toNat < Config.windowCap
  · rw [if_neg (by omega), if_pos h]
  · rw [if_pos (by omega), if_neg h]

/-- `OW.GET` of a window that stands for its output returns the byte that distance from the end (R178). -/
theorem owGet_output {o : Ow} (h : o.HoldsOutput) {d : Word} (h1 : d.toNat < o.total)
    (h2 : d.toNat < Config.windowCap) :
    owGet d o = .ok (o.output.getD (o.output.length - d.toNat - 1) 0) o := by
  rw [owGet_eq, if_pos ⟨h1, h2⟩, List.getD_eq_getElem?_getD, h.length_output, h.byte _ h1 h2]
  rfl

/-- `OW.COPY` appends, byte by byte, the byte that distance from the end (R176 to R178). -/
theorem owCopy_output {d : Word} : ∀ (n : Nat) {o : Ow}, o.HoldsOutput → d.toNat < o.total →
    d.toNat < Config.windowCap →
    ∃ o', owCopy d n o = .ok () o' ∧ o'.HoldsOutput ∧ o'.output = copyOutput d.toNat n o.output ∧
      o'.total = o.total + n ∧ o.Puts n o'
  | 0, o, h, _, _ => ⟨o, rfl, h, rfl, rfl, (Nat.mod_eq_of_lt o.wpos.isLt).symm, fun _ => ⟨rfl, rfl⟩,
      fun hc => absurd o.wpos.isLt (by omega)⟩
  | n + 1, o, h, h1, h2 => by
    obtain ⟨p1, p2⟩ := owPut_output h (o.output.getD (o.output.length - d.toNat - 1) 0)
    have p3 : (owPut (o.output.getD (o.output.length - d.toNat - 1) 0) o).total = o.total + 1 := by
      rw [← p1.length_output, p2, List.length_append, h.length_output]; rfl
    obtain ⟨o', q1, q2, q3, q4, q5⟩ := owCopy_output n p1 (by omega) h2
    refine ⟨o', ?_, q2, ?_, by omega, (owPut_puts h _).cons q5 q2⟩
    · rw [owCopy, owGet_output h h1 h2, Res.bind, q1]
    · rw [q3, p2, copyOutput]

/-- `OW.COPY` writes no byte of `WIN` but the ones at the cursor, `n` of them (R176). -/
theorem winRead_owCopy {d : Word} : ∀ (n : Nat) {o o' : Ow} {u : Unit}, owCopy d n o = .ok u o' →
    ∀ q, q < Config.windowCap → (∀ i, i < n → q ≠ (o.wpos.val + i) % Config.windowCap) → winRead o' q = winRead o q
  | 0, o, o', u, h, q, _, _ => by simp only [owCopy, Res.ok.injEq] at h; rw [h.2]
  | n + 1, o, o', u, h, q, hq, hne => by
    simp only [owCopy, owGet_eq] at h
    split at h
    · simp only [Res.bind] at h
      have h0 := hne 0 (by omega)
      rw [Nat.add_zero, Nat.mod_eq_of_lt o.wpos.isLt] at h0
      rw [winRead_owCopy n h q hq ?_, winRead_owPut, if_neg h0]
      intro i hi
      have := hne (i + 1) (by omega)
      rcases owPut_cases (winRead o (winIndex o.wpos d.toNat)) o with ⟨_, hw, _⟩ | ⟨hc, hw, _⟩
      · rw [hw, show o.wpos.val + 1 + i = o.wpos.val + (i + 1) by omega]; exact this
      · rw [hw, Nat.zero_add]
        rw [show o.wpos.val + (i + 1) = i + Config.windowCap by omega, Nat.add_mod_right] at this
        exact this
    · simp [Res.bind] at h

theorem copyOutput_length (d : Nat) : ∀ (n : Nat) (out : List Byte), (copyOutput d n out).length = out.length + n
  | 0, _ => rfl
  | n + 1, out => by rw [copyOutput, copyOutput_length d n]; simp; omega

end Sys2Proof.Machine
end

