-- ==== Sys2Proof/Laws/Outcomes.lean ====
section
/-! SUPPORT. From an operation's answer to the outcome of an instruction: what each outcome is, what a fault leaves
(spec/60_exceptions.md R262, R263), and what `RC.INIT`, the copy tail, the framer and the distance check can answer. -/

namespace Sys2Proof.Machine

/-! ## Taking a fault -/

/-- A fault taken with the range decoder anywhere (R262). -/
theorem faulted_rc (c : Cause) (s : State) (r : Rc) : Faulted c s (takeFault c { s with rc := r }) :=
  ⟨rfl, rfl, rfl, rfl, rfl, rfl, rfl, rfl, rfl, rfl, rfl⟩

/-- A fault taken with the sequencer and the window anywhere (R262). -/
theorem faulted_ow (c : Cause) (s : State) (q : Seq) (o : Ow) :
    Faulted c s (takeFault c { s with seq := q, ow := o }) :=
  ⟨rfl, rfl, rfl, rfl, rfl, rfl, rfl, rfl, rfl, rfl, rfl⟩

theorem rcOutcome_ok {α : Type} {s : State} {g : α → Result} {x : Res Rc α} {a : α} {r : Rc} (h : x = .ok a r) :
    rcOutcome s g x = .next { s with rc := r, result := g a } := by rw [h]; rfl

theorem rcOutcome_raise {α : Type} {s : State} {g : α → Result} {x : Res Rc α} {c : Cause} {r : Rc}
    (h : x = .raise c r) : ∃ t, rcOutcome s g x = .next t ∧ Faulted c s t := by
  rw [h]; exact ⟨_, rfl, faulted_rc _ _ _⟩

theorem owOutcome_ok {α : Type} {s : State} {g : α → Result} {x : Res Ow α} {a : α} {o : Ow} (h : x = .ok a o) :
    owOutcome s g x = .next { s with ow := o, result := g a } := by rw [h]; rfl

theorem owOutcome_raise {α : Type} {s : State} {g : α → Result} {x : Res Ow α} {c : Cause} {o : Ow}
    (h : x = .raise c o) : ∃ t, owOutcome s g x = .next t ∧ Faulted c s t := by
  rw [h]; exact ⟨_, rfl, faulted_ow c s s.seq o⟩

/-! ## `RC.NORM` and `RC.INIT` -/

theorem rcNorm_of_afterNorm {inp : List Byte} {m r : Rc} (h : afterNorm inp m = some r) :
    rcNorm inp m = .ok () r := by
  unfold afterNorm at h
  rcases rcNorm_cases inp m with ⟨h1, h2⟩ | ⟨h1, b, h2, h3⟩ | ⟨h1, h2, h3⟩
  · rw [if_pos h1] at h; rw [h2]; simp only [Option.some.injEq] at h; rw [h]
  · rw [if_neg (by omega), h2] at h; rw [h3]; simp only [Option.some.injEq] at h; rw [← h]; rfl
  · rw [if_neg (by omega), h2] at h; simp at h

theorem rcNorm_of_afterNorm_none {inp : List Byte} {m : Rc} (h : afterNorm inp m = none) :
    rcNorm inp m = .raise .truncatedInput m := by
  unfold afterNorm at h
  rcases rcNorm_cases inp m with ⟨h1, h2⟩ | ⟨h1, b, h2, h3⟩ | ⟨h1, h2, h3⟩
  · rw [if_pos h1] at h; simp at h
  · rw [if_neg (by omega), h2] at h; simp at h
  · exact h3

/-- All that the priming of `CODE` can do (R121, R64). -/
theorem primeCode_cases (inp : List Byte) : ∀ (k : Nat) (r : Rc),
    (k ≤ inp.length - r.inPos ∧
      primeCode inp k r = .ok () { r with inPos := r.inPos + k,
                                          code := ((inp.drop r.inPos).take k).foldl shiftIn r.code }) ∨
    (inp.length - r.inPos < k ∧ ∃ m, primeCode inp k r = .raise .truncatedInput m)
  | 0, r => Or.inl ⟨Nat.zero_le _, by simp [primeCode]⟩
  | k + 1, r => by
    rw [primeCode, nextByte]
    by_cases hlt : r.inPos < inp.length
    · rw [List.getElem?_eq_getElem hlt]
      simp only [Res.bind]
      rcases primeCode_cases inp k { r with inPos := r.inPos + 1, code := shiftIn r.code inp[r.inPos] } with
        ⟨h1, h2⟩ | ⟨h1, m, h2⟩
      · dsimp only at h1
        refine Or.inl ⟨by omega, ?_⟩
        rw [h2, List.drop_eq_getElem_cons hlt]
        simp only [List.take_succ_cons, List.foldl_cons, Nat.add_assoc, Nat.add_comm 1 k]
      · dsimp only at h1
        exact Or.inr ⟨by omega, m, h2⟩
    · rw [List.getElem?_eq_none (by omega)]
      exact Or.inr ⟨by omega, r, rfl⟩

/-- All that `RC.INIT` can do (R121). -/
theorem rcInit_cases (inp : List Byte) (r : Rc) :
    (5 ≤ inp.length - r.inPos ∧
      rcInit inp r = .ok () { r with range := 0xFFFFFFFF, inPos := r.inPos + 5,
                                     code := ((inp.drop r.inPos).take 5).foldl shiftIn 0 }) ∨
    (inp.length - r.inPos < 5 ∧ ∃ m, rcInit inp r = .raise .truncatedInput m) := by
  rcases primeCode_cases inp 5 { r with code := 0, range := 0xFFFFFFFF } with ⟨h1, h2⟩ | ⟨h1, m, h2⟩
  · exact Or.inl ⟨h1, h2⟩
  · exact Or.inr ⟨h1, m, h2⟩

/-! ## The copy tail (R209) -/

/-- The byte `PREV` takes after a copy that put at least one byte. -/
theorem owGet_last {o : Ow} (h : o.HoldsOutput) (ht : 0 < o.total) :
    owGet 0 o = .ok (o.output.getLast?.getD 0) o := by
  rw [owGet_output h (d := 0) ht (by decide), List.getLast?_eq_getElem?]
  simp [List.getD_eq_getElem?_getD]

/-- All that `VALIDATE_AND_COPY` can do between symbols (R209, R254). -/
theorem validateAndCopy_cases {len : Nat} {q : Seq} {o : Ow} (h : o.HoldsOutput) (ht : o.total = q.pos) :
    (q.rep0.toNat < q.pos ∧ q.rep0.toNat < Config.dictSizeCheck ∧
      ∃ o', validateAndCopy len q o =
          .ok { q with pos := q.pos + len
                       prev := (copyOutput q.rep0.toNat len o.output).getLast?.getD 0 } o' ∧
        o'.HoldsOutput ∧ o'.output = copyOutput q.rep0.toNat len o.output ∧ o'.total = o.total + len ∧
        o.Puts len o' ∧ ∀ a, a < Config.windowCap → (∀ i, i < len → a ≠ (o.wpos.val + i) % Config.windowCap) →
          winRead o' a = winRead o a) ∨
    ((q.pos ≤ q.rep0.toNat ∨ Config.dictSizeCheck ≤ q.rep0.toNat) ∧
      validateAndCopy len q o = .raise .dictBounds o) := by
  by_cases hb : q.pos ≤ q.rep0.toNat ∨ Config.dictSizeCheck ≤ q.rep0.toNat
  · exact Or.inr ⟨hb, by rw [validateAndCopy, if_pos hb]⟩
  · have h1 : q.rep0.toNat < q.pos := by omega
    have h2 : q.rep0.toNat < Config.dictSizeCheck := by omega
    obtain ⟨o', k1, k2, k3, k4, k6⟩ := owCopy_output len h (d := q.rep0) (by omega) h2
    have k5 := winRead_owCopy len k1
    refine Or.inl ⟨h1, h2, o', ?_, k2, k3, k4, k6, k5⟩
    have hg := owGet_last k2 (by omega)
    simp only [validateAndCopy, if_neg hb, k1, Res.bind, hg, k3]

/-! ## The framer and the distance check -/

/-- All that `CF.STRIP` can do (R234). -/
theorem cfStrip_cases (y : List Byte) :
    (y.length < 4 ∧ cfStrip y = { status := .short, stored := 0, computed := 0, payload := [] }) ∨
    ∃ b0 b1 b2 b3 x, y = b0 :: b1 :: b2 :: b3 :: x ∧
      cfStrip y =
        { status := if storedCrc b0 b1 b2 b3 = crc32 x then .ok else .mismatch
          stored := storedCrc b0 b1 b2 b3
          computed := crc32 x
          payload := if storedCrc b0 b1 b2 b3 = crc32 x then x else [] } := by
  match y with
  | [] => exact Or.inl ⟨by decide, rfl⟩
  | [_] => exact Or.inl ⟨by simp, rfl⟩
  | [_, _] => exact Or.inl ⟨by simp, rfl⟩
  | [_, _, _] => exact Or.inl ⟨by simp, rfl⟩
  | b0 :: b1 :: b2 :: b3 :: x =>
    refine Or.inr ⟨b0, b1, b2, b3, x, rfl, ?_⟩
    simp only [cfStrip]
    split <;> rfl

/-- All that `DIST.DEC` can make of a value (R186, R253). -/
theorem distResult_cases {σ : Type} (v : Word) (s : σ) :
    (v = 0xFFFFFFFF ∧ distResult v s = .ok .endMarker s) ∨
    (v.toNat < 2 ^ 31 ∧ distResult v s = .ok (.distance v) s) ∨
    (2 ^ 31 ≤ v.toNat ∧ v ≠ 0xFFFFFFFF ∧ distResult v s = .raise .invalidDistance s) := by
  unfold distResult
  by_cases h : v = Config.endMarkerDistance
  · exact Or.inl ⟨h, by rw [if_pos h]⟩
  · rw [if_neg h]
    by_cases h2 : v.toNat < 2 ^ 31
    · exact Or.inr (Or.inl ⟨h2, by rw [if_pos h2]⟩)
    · exact Or.inr (Or.inr ⟨by omega, h, by rw [if_neg h2]⟩)

end Sys2Proof.Machine
end

