-- ==== Sys2Proof/Laws/PerInstr.lean ====
section
/-! SUPPORT. Statements about every instruction as syntax, one lemma per constructor. Family `WordLength`: the words
of an instruction have the length the formats give them (spec/30_encoding.md R95 to R103): a symbol or a field is 4 to
48 decisions, a command is 1, 2 or 3, a unit operation has no words. -/

namespace Sys2Proof.Laws

open Sys2Proof.Machine

theorem lenBits_length {v : Nat} : 4 ≤ (lenBits v).length ∧ (lenBits v).length ≤ 10 := by
  unfold lenBits
  split
  · simp
  · split <;> simp

theorem dxBits_length {slot x a : Nat} (h : slot < 64) : 6 ≤ (dxBits slot x a).length ∧ (dxBits slot x a).length ≤ 36 := by
  have hb : slotBits slot ≤ 30 := by unfold slotBits; omega
  unfold dxBits
  split
  · simp
  · rename_i h4
    split
    · simp; omega
    · rename_i h14
      simp only [Config.endPosModelIndex, Config.startPosModelIndex] at h14 h4
      have : 6 ≤ slotBits slot := by unfold slotBits; omega
      simp [Config.alignBits]; omega

theorem distanceBits_length {v : Nat} (h : v < 2 ^ 32) :
    6 ≤ (distanceBits v).length ∧ (distanceBits v).length ≤ 36 :=
  dxBits_length (slotDistance_dxPartsOf h).1.1

namespace WordLength

set_option Elab.async false

/-- The words of `i` have the length of its format. -/
def Statement (i : Instr) : Prop :=
  match encode i with
  | .decisions ds => 4 ≤ ds.length ∧ ds.length ≤ 48
  | .command v => 1 ≤ v.toNat ∧ v.toNat ≤ 3
  | .unit => isSymbol i = false ∧ i.lenValue? = none ∧ i.dxParts? = none

theorem lit (b : Byte) : Statement (.lit b) := by
  simp [Statement, encode]

theorem litm (b : Byte) : Statement (.litm b) := by
  simp [Statement, encode]

theorem newMatch (len : Nat) (dist : Word) : Statement (.newMatch len dist) := by
  have h1 := @lenBits_length (len - Config.matchMinLen)
  have h2 := distanceBits_length dist.isLt
  simp only [Statement, encode, List.length_cons, List.length_append]; omega

theorem eos (len : Nat) : Statement (.eos len) := by
  have h1 := @lenBits_length (len - Config.matchMinLen)
  have h2 := distanceBits_length (v := 0xFFFFFFFF) (by decide)
  simp only [Statement, encode, List.length_cons, List.length_append]; omega

theorem shortrep : Statement (.shortrep) := by
  simp [Statement, encode]

theorem rep0 (len : Nat) : Statement (.rep0 len) := by
  have h1 := @lenBits_length (len - Config.matchMinLen)
  simp only [Statement, encode, List.length_cons]; omega

theorem rep1 (len : Nat) : Statement (.rep1 len) := by
  have h1 := @lenBits_length (len - Config.matchMinLen)
  simp only [Statement, encode, List.length_cons]; omega

theorem rep2 (len : Nat) : Statement (.rep2 len) := by
  have h1 := @lenBits_length (len - Config.matchMinLen)
  simp only [Statement, encode, List.length_cons]; omega

theorem rep3 (len : Nat) : Statement (.rep3 len) := by
  have h1 := @lenBits_length (len - Config.matchMinLen)
  simp only [Statement, encode, List.length_cons]; omega

theorem lenLow (l : BitVec 3) : Statement (.lenLow l) := by
  have h1 := @lenBits_length l.toNat
  simp only [Statement, encode, Instr.lenValue?]; omega

theorem lenMid (m : BitVec 3) : Statement (.lenMid m) := by
  have h1 := @lenBits_length (8 + m.toNat)
  simp only [Statement, encode, Instr.lenValue?]; omega

theorem lenHigh (h : BitVec 8) : Statement (.lenHigh h) := by
  have h1 := @lenBits_length (16 + h.toNat)
  simp only [Statement, encode, Instr.lenValue?]; omega

theorem dxSlot0 : Statement (.dxSlot0) := by
  have h := @dxBits_length 0 0 0 (by decide)
  simp only [Statement, encode, Instr.lenValue?, Instr.dxParts?]; omega

theorem dxSlot1 : Statement (.dxSlot1) := by
  have h := @dxBits_length 1 0 0 (by decide)
  simp only [Statement, encode, Instr.lenValue?, Instr.dxParts?]; omega

theorem dxSlot2 : Statement (.dxSlot2) := by
  have h := @dxBits_length 2 0 0 (by decide)
  simp only [Statement, encode, Instr.lenValue?, Instr.dxParts?]; omega

theorem dxSlot3 : Statement (.dxSlot3) := by
  have h := @dxBits_length 3 0 0 (by decide)
  simp only [Statement, encode, Instr.lenValue?, Instr.dxParts?]; omega

theorem dxSlot4 (r : BitVec 1) : Statement (.dxSlot4 r) := by
  have h := @dxBits_length 4 (r.toNat) 0 (by decide)
  simp only [Statement, encode, Instr.lenValue?, Instr.dxParts?]; omega

theorem dxSlot5 (r : BitVec 1) : Statement (.dxSlot5 r) := by
  have h := @dxBits_length 5 (r.toNat) 0 (by decide)
  simp only [Statement, encode, Instr.lenValue?, Instr.dxParts?]; omega

theorem dxSlot6 (r : BitVec 2) : Statement (.dxSlot6 r) := by
  have h := @dxBits_length 6 (r.toNat) 0 (by decide)
  simp only [Statement, encode, Instr.lenValue?, Instr.dxParts?]; omega

theorem dxSlot7 (r : BitVec 2) : Statement (.dxSlot7 r) := by
  have h := @dxBits_length 7 (r.toNat) 0 (by decide)
  simp only [Statement, encode, Instr.lenValue?, Instr.dxParts?]; omega

theorem dxSlot8 (r : BitVec 3) : Statement (.dxSlot8 r) := by
  have h := @dxBits_length 8 (r.toNat) 0 (by decide)
  simp only [Statement, encode, Instr.lenValue?, Instr.dxParts?]; omega

theorem dxSlot9 (r : BitVec 3) : Statement (.dxSlot9 r) := by
  have h := @dxBits_length 9 (r.toNat) 0 (by decide)
  simp only [Statement, encode, Instr.lenValue?, Instr.dxParts?]; omega

theorem dxSlot10 (r : BitVec 4) : Statement (.dxSlot10 r) := by
  have h := @dxBits_length 10 (r.toNat) 0 (by decide)
  simp only [Statement, encode, Instr.lenValue?, Instr.dxParts?]; omega

theorem dxSlot11 (r : BitVec 4) : Statement (.dxSlot11 r) := by
  have h := @dxBits_length 11 (r.toNat) 0 (by decide)
  simp only [Statement, encode, Instr.lenValue?, Instr.dxParts?]; omega

theorem dxSlot12 (r : BitVec 5) : Statement (.dxSlot12 r) := by
  have h := @dxBits_length 12 (r.toNat) 0 (by decide)
  simp only [Statement, encode, Instr.lenValue?, Instr.dxParts?]; omega

theorem dxSlot13 (r : BitVec 5) : Statement (.dxSlot13 r) := by
  have h := @dxBits_length 13 (r.toNat) 0 (by decide)
  simp only [Statement, encode, Instr.lenValue?, Instr.dxParts?]; omega

theorem dxSlot14 (d : BitVec 2) (a : BitVec 4) : Statement (.dxSlot14 d a) := by
  have h := @dxBits_length 14 (d.toNat) (a.toNat) (by decide)
  simp only [Statement, encode, Instr.lenValue?, Instr.dxParts?]; omega

theorem dxSlot15 (d : BitVec 2) (a : BitVec 4) : Statement (.dxSlot15 d a) := by
  have h := @dxBits_length 15 (d.toNat) (a.toNat) (by decide)
  simp only [Statement, encode, Instr.lenValue?, Instr.dxParts?]; omega

theorem dxSlot16 (d : BitVec 3) (a : BitVec 4) : Statement (.dxSlot16 d a) := by
  have h := @dxBits_length 16 (d.toNat) (a.toNat) (by decide)
  simp only [Statement, encode, Instr.lenValue?, Instr.dxParts?]; omega

theorem dxSlot17 (d : BitVec 3) (a : BitVec 4) : Statement (.dxSlot17 d a) := by
  have h := @dxBits_length 17 (d.toNat) (a.toNat) (by decide)
  simp only [Statement, encode, Instr.lenValue?, Instr.dxParts?]; omega

theorem dxSlot18 (d : BitVec 4) (a : BitVec 4) : Statement (.dxSlot18 d a) := by
  have h := @dxBits_length 18 (d.toNat) (a.toNat) (by decide)
  simp only [Statement, encode, Instr.lenValue?, Instr.dxParts?]; omega

theorem dxSlot19 (d : BitVec 4) (a : BitVec 4) : Statement (.dxSlot19 d a) := by
  have h := @dxBits_length 19 (d.toNat) (a.toNat) (by decide)
  simp only [Statement, encode, Instr.lenValue?, Instr.dxParts?]; omega

theorem dxSlot20 (d : BitVec 5) (a : BitVec 4) : Statement (.dxSlot20 d a) := by
  have h := @dxBits_length 20 (d.toNat) (a.toNat) (by decide)
  simp only [Statement, encode, Instr.lenValue?, Instr.dxParts?]; omega

theorem dxSlot21 (d : BitVec 5) (a : BitVec 4) : Statement (.dxSlot21 d a) := by
  have h := @dxBits_length 21 (d.toNat) (a.toNat) (by decide)
  simp only [Statement, encode, Instr.lenValue?, Instr.dxParts?]; omega

theorem dxSlot22 (d : BitVec 6) (a : BitVec 4) : Statement (.dxSlot22 d a) := by
  have h := @dxBits_length 22 (d.toNat) (a.toNat) (by decide)
  simp only [Statement, encode, Instr.lenValue?, Instr.dxParts?]; omega

theorem dxSlot23 (d : BitVec 6) (a : BitVec 4) : Statement (.dxSlot23 d a) := by
  have h := @dxBits_length 23 (d.toNat) (a.toNat) (by decide)
  simp only [Statement, encode, Instr.lenValue?, Instr.dxParts?]; omega

theorem dxSlot24 (d : BitVec 7) (a : BitVec 4) : Statement (.dxSlot24 d a) := by
  have h := @dxBits_length 24 (d.toNat) (a.toNat) (by decide)
  simp only [Statement, encode, Instr.lenValue?, Instr.dxParts?]; omega

theorem dxSlot25 (d : BitVec 7) (a : BitVec 4) : Statement (.dxSlot25 d a) := by
  have h := @dxBits_length 25 (d.toNat) (a.toNat) (by decide)
  simp only [Statement, encode, Instr.lenValue?, Instr.dxParts?]; omega

theorem dxSlot26 (d : BitVec 8) (a : BitVec 4) : Statement (.dxSlot26 d a) := by
  have h := @dxBits_length 26 (d.toNat) (a.toNat) (by decide)
  simp only [Statement, encode, Instr.lenValue?, Instr.dxParts?]; omega

theorem dxSlot27 (d : BitVec 8) (a : BitVec 4) : Statement (.dxSlot27 d a) := by
  have h := @dxBits_length 27 (d.toNat) (a.toNat) (by decide)
  simp only [Statement, encode, Instr.lenValue?, Instr.dxParts?]; omega

theorem dxSlot28 (d : BitVec 9) (a : BitVec 4) : Statement (.dxSlot28 d a) := by
  have h := @dxBits_length 28 (d.toNat) (a.toNat) (by decide)
  simp only [Statement, encode, Instr.lenValue?, Instr.dxParts?]; omega

theorem dxSlot29 (d : BitVec 9) (a : BitVec 4) : Statement (.dxSlot29 d a) := by
  have h := @dxBits_length 29 (d.toNat) (a.toNat) (by decide)
  simp only [Statement, encode, Instr.lenValue?, Instr.dxParts?]; omega

theorem dxSlot30 (d : BitVec 10) (a : BitVec 4) : Statement (.dxSlot30 d a) := by
  have h := @dxBits_length 30 (d.toNat) (a.toNat) (by decide)
  simp only [Statement, encode, Instr.lenValue?, Instr.dxParts?]; omega

theorem dxSlot31 (d : BitVec 10) (a : BitVec 4) : Statement (.dxSlot31 d a) := by
  have h := @dxBits_length 31 (d.toNat) (a.toNat) (by decide)
  simp only [Statement, encode, Instr.lenValue?, Instr.dxParts?]; omega

theorem dxSlot32 (d : BitVec 11) (a : BitVec 4) : Statement (.dxSlot32 d a) := by
  have h := @dxBits_length 32 (d.toNat) (a.toNat) (by decide)
  simp only [Statement, encode, Instr.lenValue?, Instr.dxParts?]; omega

theorem dxSlot33 (d : BitVec 11) (a : BitVec 4) : Statement (.dxSlot33 d a) := by
  have h := @dxBits_length 33 (d.toNat) (a.toNat) (by decide)
  simp only [Statement, encode, Instr.lenValue?, Instr.dxParts?]; omega

theorem dxSlot34 (d : BitVec 12) (a : BitVec 4) : Statement (.dxSlot34 d a) := by
  have h := @dxBits_length 34 (d.toNat) (a.toNat) (by decide)
  simp only [Statement, encode, Instr.lenValue?, Instr.dxParts?]; omega

theorem dxSlot35 (d : BitVec 12) (a : BitVec 4) : Statement (.dxSlot35 d a) := by
  have h := @dxBits_length 35 (d.toNat) (a.toNat) (by decide)
  simp only [Statement, encode, Instr.lenValue?, Instr.dxParts?]; omega

theorem dxSlot36 (d : BitVec 13) (a : BitVec 4) : Statement (.dxSlot36 d a) := by
  have h := @dxBits_length 36 (d.toNat) (a.toNat) (by decide)
  simp only [Statement, encode, Instr.lenValue?, Instr.dxParts?]; omega

theorem dxSlot37 (d : BitVec 13) (a : BitVec 4) : Statement (.dxSlot37 d a) := by
  have h := @dxBits_length 37 (d.toNat) (a.toNat) (by decide)
  simp only [Statement, encode, Instr.lenValue?, Instr.dxParts?]; omega

theorem dxSlot38 (d : BitVec 14) (a : BitVec 4) : Statement (.dxSlot38 d a) := by
  have h := @dxBits_length 38 (d.toNat) (a.toNat) (by decide)
  simp only [Statement, encode, Instr.lenValue?, Instr.dxParts?]; omega

theorem dxSlot39 (d : BitVec 14) (a : BitVec 4) : Statement (.dxSlot39 d a) := by
  have h := @dxBits_length 39 (d.toNat) (a.toNat) (by decide)
  simp only [Statement, encode, Instr.lenValue?, Instr.dxParts?]; omega

theorem dxSlot40 (d : BitVec 15) (a : BitVec 4) : Statement (.dxSlot40 d a) := by
  have h := @dxBits_length 40 (d.toNat) (a.toNat) (by decide)
  simp only [Statement, encode, Instr.lenValue?, Instr.dxParts?]; omega

theorem dxSlot41 (d : BitVec 15) (a : BitVec 4) : Statement (.dxSlot41 d a) := by
  have h := @dxBits_length 41 (d.toNat) (a.toNat) (by decide)
  simp only [Statement, encode, Instr.lenValue?, Instr.dxParts?]; omega

theorem dxSlot42 (d : BitVec 16) (a : BitVec 4) : Statement (.dxSlot42 d a) := by
  have h := @dxBits_length 42 (d.toNat) (a.toNat) (by decide)
  simp only [Statement, encode, Instr.lenValue?, Instr.dxParts?]; omega

theorem dxSlot43 (d : BitVec 16) (a : BitVec 4) : Statement (.dxSlot43 d a) := by
  have h := @dxBits_length 43 (d.toNat) (a.toNat) (by decide)
  simp only [Statement, encode, Instr.lenValue?, Instr.dxParts?]; omega

theorem dxSlot44 (d : BitVec 17) (a : BitVec 4) : Statement (.dxSlot44 d a) := by
  have h := @dxBits_length 44 (d.toNat) (a.toNat) (by decide)
  simp only [Statement, encode, Instr.lenValue?, Instr.dxParts?]; omega

theorem dxSlot45 (d : BitVec 17) (a : BitVec 4) : Statement (.dxSlot45 d a) := by
  have h := @dxBits_length 45 (d.toNat) (a.toNat) (by decide)
  simp only [Statement, encode, Instr.lenValue?, Instr.dxParts?]; omega

theorem dxSlot46 (d : BitVec 18) (a : BitVec 4) : Statement (.dxSlot46 d a) := by
  have h := @dxBits_length 46 (d.toNat) (a.toNat) (by decide)
  simp only [Statement, encode, Instr.lenValue?, Instr.dxParts?]; omega

theorem dxSlot47 (d : BitVec 18) (a : BitVec 4) : Statement (.dxSlot47 d a) := by
  have h := @dxBits_length 47 (d.toNat) (a.toNat) (by decide)
  simp only [Statement, encode, Instr.lenValue?, Instr.dxParts?]; omega

theorem dxSlot48 (d : BitVec 19) (a : BitVec 4) : Statement (.dxSlot48 d a) := by
  have h := @dxBits_length 48 (d.toNat) (a.toNat) (by decide)
  simp only [Statement, encode, Instr.lenValue?, Instr.dxParts?]; omega

theorem dxSlot49 (d : BitVec 19) (a : BitVec 4) : Statement (.dxSlot49 d a) := by
  have h := @dxBits_length 49 (d.toNat) (a.toNat) (by decide)
  simp only [Statement, encode, Instr.lenValue?, Instr.dxParts?]; omega

theorem dxSlot50 (d : BitVec 20) (a : BitVec 4) : Statement (.dxSlot50 d a) := by
  have h := @dxBits_length 50 (d.toNat) (a.toNat) (by decide)
  simp only [Statement, encode, Instr.lenValue?, Instr.dxParts?]; omega

theorem dxSlot51 (d : BitVec 20) (a : BitVec 4) : Statement (.dxSlot51 d a) := by
  have h := @dxBits_length 51 (d.toNat) (a.toNat) (by decide)
  simp only [Statement, encode, Instr.lenValue?, Instr.dxParts?]; omega

theorem dxSlot52 (d : BitVec 21) (a : BitVec 4) : Statement (.dxSlot52 d a) := by
  have h := @dxBits_length 52 (d.toNat) (a.toNat) (by decide)
  simp only [Statement, encode, Instr.lenValue?, Instr.dxParts?]; omega

theorem dxSlot53 (d : BitVec 21) (a : BitVec 4) : Statement (.dxSlot53 d a) := by
  have h := @dxBits_length 53 (d.toNat) (a.toNat) (by decide)
  simp only [Statement, encode, Instr.lenValue?, Instr.dxParts?]; omega

theorem dxSlot54 (d : BitVec 22) (a : BitVec 4) : Statement (.dxSlot54 d a) := by
  have h := @dxBits_length 54 (d.toNat) (a.toNat) (by decide)
  simp only [Statement, encode, Instr.lenValue?, Instr.dxParts?]; omega

theorem dxSlot55 (d : BitVec 22) (a : BitVec 4) : Statement (.dxSlot55 d a) := by
  have h := @dxBits_length 55 (d.toNat) (a.toNat) (by decide)
  simp only [Statement, encode, Instr.lenValue?, Instr.dxParts?]; omega

theorem dxSlot56 (d : BitVec 23) (a : BitVec 4) : Statement (.dxSlot56 d a) := by
  have h := @dxBits_length 56 (d.toNat) (a.toNat) (by decide)
  simp only [Statement, encode, Instr.lenValue?, Instr.dxParts?]; omega

theorem dxSlot57 (d : BitVec 23) (a : BitVec 4) : Statement (.dxSlot57 d a) := by
  have h := @dxBits_length 57 (d.toNat) (a.toNat) (by decide)
  simp only [Statement, encode, Instr.lenValue?, Instr.dxParts?]; omega

theorem dxSlot58 (d : BitVec 24) (a : BitVec 4) : Statement (.dxSlot58 d a) := by
  have h := @dxBits_length 58 (d.toNat) (a.toNat) (by decide)
  simp only [Statement, encode, Instr.lenValue?, Instr.dxParts?]; omega

theorem dxSlot59 (d : BitVec 24) (a : BitVec 4) : Statement (.dxSlot59 d a) := by
  have h := @dxBits_length 59 (d.toNat) (a.toNat) (by decide)
  simp only [Statement, encode, Instr.lenValue?, Instr.dxParts?]; omega

theorem dxSlot60 (d : BitVec 25) (a : BitVec 4) : Statement (.dxSlot60 d a) := by
  have h := @dxBits_length 60 (d.toNat) (a.toNat) (by decide)
  simp only [Statement, encode, Instr.lenValue?, Instr.dxParts?]; omega

theorem dxSlot61 (d : BitVec 25) (a : BitVec 4) : Statement (.dxSlot61 d a) := by
  have h := @dxBits_length 61 (d.toNat) (a.toNat) (by decide)
  simp only [Statement, encode, Instr.lenValue?, Instr.dxParts?]; omega

theorem dxSlot62 (d : BitVec 26) (a : BitVec 4) : Statement (.dxSlot62 d a) := by
  have h := @dxBits_length 62 (d.toNat) (a.toNat) (by decide)
  simp only [Statement, encode, Instr.lenValue?, Instr.dxParts?]; omega

theorem dxSlot63 (d : BitVec 26) (a : BitVec 4) : Statement (.dxSlot63 d a) := by
  have h := @dxBits_length 63 (d.toNat) (a.toNat) (by decide)
  simp only [Statement, encode, Instr.lenValue?, Instr.dxParts?]; omega

theorem rcInit : Statement (.rcInit) := ⟨rfl, rfl, rfl⟩

theorem rcNorm : Statement (.rcNorm) := ⟨rfl, rfl, rfl⟩

theorem rcBit (a : Nat) : Statement (.rcBit a) := ⟨rfl, rfl, rfl⟩

theorem rcDirect (n : Nat) : Statement (.rcDirect n) := ⟨rfl, rfl, rfl⟩

theorem btDec (base n : Nat) : Statement (.btDec base n) := ⟨rfl, rfl, rfl⟩

theorem btRdec (base n : Nat) : Statement (.btRdec base n) := ⟨rfl, rfl, rfl⟩

theorem lenDec (t : LenTable) (ps : Fin 4) : Statement (.lenDec t ps) := ⟨rfl, rfl, rfl⟩

theorem litNormal (base : Nat) : Statement (.litNormal base) := ⟨rfl, rfl, rfl⟩

theorem litMatched (base : Nat) (mb : Byte) : Statement (.litMatched base mb) := ⟨rfl, rfl, rfl⟩

theorem distDec (len : Nat) : Statement (.distDec len) := ⟨rfl, rfl, rfl⟩

theorem owPut (b : Byte) : Statement (.owPut b) := ⟨rfl, rfl, rfl⟩

theorem owFlush : Statement (.owFlush) := ⟨rfl, rfl, rfl⟩

theorem owGet (d : Word) : Statement (.owGet d) := ⟨rfl, rfl, rfl⟩

theorem owCopy (d : Word) (len : Nat) : Statement (.owCopy d len) := ⟨rfl, rfl, rfl⟩

theorem crc32 (x : List Byte) : Statement (.crc32 x) := ⟨rfl, rfl, rfl⟩

theorem cfStrip (y : List Byte) : Statement (.cfStrip y) := ⟨rfl, rfl, rfl⟩

theorem cfAttach (x : List Byte) : Statement (.cfAttach x) := ⟨rfl, rfl, rfl⟩

theorem reset : Statement .reset := by simp [Statement, encode]

theorem start : Statement .start := by simp [Statement, encode]

theorem strip : Statement .strip := by simp [Statement, encode]

end WordLength

end Sys2Proof.Laws
end

