-- ==== Sys2Proof/Laws/Totality.lean ====
section
/-! SUPPORT. In a run in order every operation of the range decoder completes or finds `IN` exhausted: no cell it
forms is outside `PMEM`, and no match byte is out of range (spec/60_exceptions.md R252, R255, R256). -/

namespace Sys2Proof.Machine

/-- The operation completes with the range decoder in order and the cursor inside `IN`, or it needs a byte that `IN`
does not have. -/
def Answers {α : Type} (inp : List Byte) (x : Res Rc α) : Prop :=
  (∃ a r, x = .ok a r ∧ RcOk r ∧ r.inPos ≤ inp.length) ∨ ∃ r, x = .raise .truncatedInput r

variable {α β : Type} {inp : List Byte} {r : Rc}

theorem Answers.bind {x : Res Rc α} {k : α → Rc → Res Rc β} (h : Answers inp x)
    (hk : ∀ a r, RcOk r → r.inPos ≤ inp.length → Answers inp (k a r)) : Answers inp (x.bind k) := by
  rcases h with ⟨a, r, rfl, h1, h2⟩ | ⟨r, rfl⟩
  · exact hk a r h1 h2
  · exact Or.inr ⟨r, rfl⟩

theorem Answers.ok {a : α} (h : RcOk r) (hi : r.inPos ≤ inp.length) : Answers inp (.ok a r) :=
  Or.inl ⟨a, r, rfl, h, hi⟩

/-- An operation followed by a computation on what it returned. -/
theorem Answers.map {x : Res Rc α} {f : α → β} (h : Answers inp x) : Answers inp (x.bind fun a r => .ok (f a) r) :=
  h.bind fun _ _ h hi => .ok h hi

theorem answers_decideAt {cell : Option Nat} (h : RcOk r) (hi : r.inPos ≤ inp.length)
    (hc : ∀ a, cell = some a → a < Config.pmemSize) : Answers inp (decideAt inp cell r) := by
  rcases decideAt_cases inp cell r hc with ⟨d, m, h1⟩ | ⟨m, h1, _⟩
  · have := decideAt_ok h h1
    exact Or.inl ⟨d, m, h1, this.1, by omega⟩
  · exact Or.inr ⟨m, h1⟩

theorem answers_rcBit {a : Nat} (h : RcOk r) (hi : r.inPos ≤ inp.length) (ha : a < 7606) :
    Answers inp (rcBit inp a r) :=
  answers_decideAt (cell := some a) h hi (by rintro _ ⟨⟩; exact ha)

/-- A node with `k + 1` levels below it is inside its tree, and so are the two nodes below it. -/
theorem node_bounds {n k m : Nat} (b : Bool) (h : (m + 1) * 2 ^ (k + 1) ≤ 2 * 2 ^ n) :
    m < 2 ^ n ∧ (2 * m + b.toNat + 1) * 2 ^ k ≤ 2 * 2 ^ n := by
  have h1 : (m + 1) * 2 ≤ (m + 1) * 2 ^ (k + 1) :=
    Nat.mul_le_mul_left _ (by rw [Nat.pow_succ]; have := Nat.one_le_two_pow (n := k); omega)
  have h2 := toNat_le_one b
  refine ⟨by omega, ?_⟩
  calc (2 * m + b.toNat + 1) * 2 ^ k ≤ (2 * (m + 1)) * 2 ^ k := Nat.mul_le_mul_right _ (by omega)
    _ = (m + 1) * 2 ^ (k + 1) := by ring
    _ ≤ _ := h

theorem answers_walkTree {base n : Nat} (hb : base + 2 ^ n ≤ 7606) : ∀ (k m : Nat) (r : Rc), RcOk r →
    r.inPos ≤ inp.length → 1 ≤ m → (m + 1) * 2 ^ k ≤ 2 * 2 ^ n → Answers inp (walkTree inp base k m r)
  | 0, _, _, h, hi, _, _ => .ok h hi
  | k + 1, m, r, h, hi, h2, h3 => by
    have hm := (node_bounds false h3).1
    exact (answers_rcBit h hi (by omega)).bind fun b r h hi =>
      answers_walkTree hb k _ _ h hi (by omega) (node_bounds b h3).2

theorem answers_btDec {base n : Nat} (h : RcOk r) (hi : r.inPos ≤ inp.length) (hb : base + 2 ^ n ≤ 7606) :
    Answers inp (btDec inp base n r) :=
  (answers_walkTree hb n 1 r h hi (by omega) (by omega)).map

theorem answers_walkReverse {base n : Nat} (hb : base + 2 ^ n ≤ 7606) : ∀ (k m : Nat) (r : Rc), RcOk r →
    r.inPos ≤ inp.length → 1 ≤ m → (m + 1) * 2 ^ k ≤ 2 * 2 ^ n → Answers inp (walkReverse inp base k m r)
  | 0, _, _, h, hi, _, _ => .ok h hi
  | k + 1, m, r, h, hi, h2, h3 => by
    have hm := (node_bounds false h3).1
    exact (answers_rcBit h hi (by omega)).bind fun b r h hi =>
      (answers_walkReverse hb k _ _ h hi (by omega) (node_bounds b h3).2).map

theorem answers_btRdec {base n : Nat} (h : RcOk r) (hi : r.inPos ≤ inp.length) (hb : base + 2 ^ n ≤ 7606) :
    Answers inp (btRdec inp base n r) :=
  answers_walkReverse hb n 1 r h hi (by omega) (by omega)

theorem answers_directBits : ∀ (k acc : Nat) (r : Rc), RcOk r → r.inPos ≤ inp.length →
    Answers inp (directBits inp k acc r)
  | 0, _, _, h, hi => .ok h hi
  | k + 1, _, _, h, hi =>
    (answers_decideAt (cell := none) h hi (by rintro _ ⟨⟩)).bind fun _ _ h hi => answers_directBits k _ _ h hi

theorem answers_walkMatched {base : Nat} (hb : base + 768 ≤ 7606) : ∀ (k : Nat) (mb : Byte) (m : Nat) (r : Rc),
    RcOk r → r.inPos ≤ inp.length → 1 ≤ m → (m + 1) * 2 ^ k ≤ 2 * 2 ^ 8 →
    Answers inp (walkMatched inp base k mb m r)
  | 0, _, _, _, h, hi, _, _ => .ok h hi
  | k + 1, mb, m, r, h, hi, h2, h3 => by
    have hm := (node_bounds false h3).1
    have hx := toNat_le_one (mb.getLsbD 7)
    have hcell : matchedCell base m (mb.getLsbD 7) < 7606 := by
      unfold matchedCell
      rw [Nat.shiftLeft_eq]; omega
    refine (answers_rcBit h hi hcell).bind fun b r h hi => ?_
    have h4 := (node_bounds b h3).2
    split
    · exact answers_walkMatched hb k _ _ _ h hi (by omega) h4
    · exact answers_walkTree (n := 8) (by omega) k _ _ h hi (by omega) h4

theorem answers_lenDec {t : LenTable} {ps : Fin 4} (h : RcOk r) (hi : r.inPos ≤ inp.length) :
    Answers inp (lenDec inp t ps r) := by
  have hps : ps.val < 4 := ps.isLt
  refine (answers_rcBit h hi (by cases t <;> decide)).bind fun c0 r h hi => ?_
  cases c0
  · exact answers_btDec h hi (by cases t <;> simp only [lenLowTree, Config.lenLowBase, Config.repLenLowBase] <;> omega)
  · refine (answers_rcBit h hi (by cases t <;> decide)).bind fun c1 r h hi => ?_
    cases c1
    · exact (answers_btDec h hi
        (by cases t <;> simp only [lenMidTree, Config.lenMidBase, Config.repLenMidBase] <;> omega)).map
    · exact (answers_btDec h hi
        (by cases t <;> simp only [lenHighTree, Config.lenHighBase, Config.repLenHighBase] <;> omega)).map

theorem lenToPosState_le (len : Nat) : lenToPosState len ≤ 3 := by
  unfold lenToPosState; simp only [Config.numLenToPosStates]; omega

/-- The reverse tree of every slot of 4 to 13 is inside `PMEM` (R66, R186). -/
theorem posSpecTree_bounds {slot : Nat} (h4 : 4 ≤ slot) (h14 : slot < 14) :
    posSpecTree slot + 2 ^ slotBits slot ≤ 7606 := by
  have : ∀ s : Fin 14, 4 ≤ s.val → posSpecTree s.val + 2 ^ slotBits s.val ≤ 7606 := by decide
  exact this ⟨slot, h14⟩ h4

theorem answers_distParts {len : Nat} (h : RcOk r) (hi : r.inPos ≤ inp.length) :
    Answers inp (distParts inp len r) := by
  have hl := lenToPosState_le len
  refine (answers_btDec h hi (by simp only [posSlotTree, Config.posSlotBase]; omega)).bind fun slot r h hi => ?_
  split
  · exact .ok h hi
  · rename_i h4
    split
    · rename_i h14
      simp only [Config.startPosModelIndex, Config.endPosModelIndex] at h4 h14
      exact (answers_btRdec h hi (posSpecTree_bounds (by omega) h14)).map
    · exact (answers_directBits _ _ _ h hi).bind fun _ r h hi => (answers_btRdec h hi (by decide)).map

theorem litBase_le (pos : Nat) (prev : Byte) : litBase pos prev + 768 ≤ 7606 := by
  have : litCtx pos prev < 8 := by
    unfold litCtx
    have := prev.isLt
    simp only [Config.lp, Config.lc, Nat.pow_zero, Nat.mod_one, Nat.zero_shiftLeft, Nat.zero_or,
      Nat.shiftRight_eq_div_pow]
    omega
  unfold litBase; simp only [Config.literalBase, Config.litCoderSize]; omega

/-- The fetch of a symbol in a run in order completes or finds `IN` exhausted (R252, R255, R256). -/
theorem answers_fetchSymbolFrom {q : Seq} {o : Ow} (h : RcOk r) (hi : r.inPos ≤ inp.length)
    (hst : q.state.toNat < 12)
    (hrep : 7 ≤ q.state.toNat → q.rep0.toNat < o.total ∧ q.rep0.toNat < Config.dictSizeCheck) :
    Answers inp (fetchSymbolFrom inp q o r) := by
  have hps : (posState q.pos).val < 4 := (posState q.pos).isLt
  have rep : ∀ (make : Nat → Instr) (r : Rc), RcOk r → r.inPos ≤ inp.length →
      Answers inp (fetchRep inp (posState q.pos) make r) := fun _ _ h hi => (answers_lenDec h hi).map
  have hl := litBase_le q.pos q.prev
  refine (answers_rcBit h hi
    (by simp only [isMatchCell, Config.isMatchBase, Config.posStatesBitsMax, Nat.shiftLeft_eq]; omega)).bind
      fun m r h hi => ?_
  cases m
  · show Answers inp (fetchLiteral _ _ _ _)
    unfold fetchLiteral
    split
    · exact (answers_walkTree (n := 8) (by omega) 8 1 r h hi (by omega) (by decide)).map.map
    · rename_i hc
      simp only [charState, Config.litStateLimit, decide_eq_true_eq] at hc
      rw [owGet_eq, if_pos (hrep (by omega))]
      exact (answers_walkMatched hl 8 _ 1 r h hi (by omega) (by decide)).map.map
  · refine (answers_rcBit h hi (by simp only [isRepCell, Config.isRepBase]; omega)).bind fun m r h hi => ?_
    cases m
    · exact (answers_lenDec h hi).bind fun _ _ h hi => (answers_distParts h hi).map
    · refine (answers_rcBit h hi (by simp only [isRepG0Cell, Config.isRepG0Base]; omega)).bind fun m r h hi => ?_
      cases m
      · refine (answers_rcBit h hi (by
          simp only [isRep0LongCell, Config.isRep0LongBase, Config.posStatesBitsMax, Nat.shiftLeft_eq]; omega)).bind
            fun m r h hi => ?_
        cases m
        · exact .ok h hi
        · exact rep _ _ h hi
      · refine (answers_rcBit h hi (by simp only [isRepG1Cell, Config.isRepG1Base]; omega)).bind fun m r h hi => ?_
        cases m
        · exact rep _ _ h hi
        · refine (answers_rcBit h hi (by simp only [isRepG2Cell, Config.isRepG2Base]; omega)).bind fun m r h hi => ?_
          cases m <;> exact rep _ _ h hi

end Sys2Proof.Machine
end

