-- ==== Sys2Proof/Tests/Slice0.lean ====
section
/-! SUPPORT. Tests of the model on the vectors of spec/95_test_vectors.md and spec/96_test_programs.md (a test names
its vector), words written out from spec/30_encoding.md, ill-formed terms, and for every statement with hypotheses a
state and operands that meet them. -/

namespace Sys2Proof.Tests

open Sys2Proof Sys2Proof.Machine

set_option Elab.async false

/-! ## Helpers -/

/-- A decision string as the spec writes it. -/
def word (l : List Nat) : List Bool := l.map (· == 1)

/-- Every string decodes to its instruction and nothing is left. -/
def readAll (decode : List Bool → Parse Instr) (rows : List (List Bool × Instr)) : Bool :=
  rows.all fun p => match decode p.1 with
    | .ok (i, []) => i == p.2
    | _ => false

/-- The outcome is a next state with the property `p`. -/
def nextIs (o : Host.Outcome State Fault Refusal) (p : State → Bool) : Bool :=
  match o with
  | .next t => p t
  | _ => false

theorem exists_next {o : Host.Outcome State Fault Refusal} {p : State → Bool} (h : nextIs o p = true) :
    ∃ t, o = .next t ∧ p t = true := by
  cases o <;> simp_all [nextIs]

/-- Nothing but the range decoder set: every cell 1024, `IN` with the cursor at its start. -/
def rcState (range code : Word) (inp : List Byte) : State :=
  { State.reset with rc := { range := range, code := code, inPos := 0, pmem := { base := .init, cells := [] } }
                     input := inp }

/-- The same with one cell at `p`. -/
def cellState (range code : Word) (inp : List Byte) (a : Nat) (p : Prob) : State :=
  { rcState range code inp with
    rc := { range := range, code := code, inPos := 0, pmem := { base := .init, cells := [(a, p)] } } }

/-- A run just started on a stream that makes these decisions in these cells (Machine/Place.lean). -/
def fed (cells : List (Option Nat)) (ds : List Nat) : State := startedOn (streamFor cells (word ds)) State.reset

/-- The operation returns `res` and trains exactly the cells of the decisions. -/
def readsAs (i : Instr) (cells : List (Option Nat)) (ds : List Nat) (res : Result) : Bool :=
  nextIs (exec i (fed cells ds)) fun t =>
    t.result == res && cells.all (fun c => c.all fun a => t.rc.pmem.cells.any (·.1 == a)) &&
      t.rc.pmem.cells.all (fun c => cells.any (· == some c.1))

/-- A window with the given bytes from address 0 on, none flushed. -/
def window (bytes : List Byte) : Ow :=
  { win := bytes.zipIdx.map fun p => (p.2, p.1), winDraw := 0, wpos := Fin.ofNat Config.windowCap bytes.length
    spos := 0, total := bytes.length, sink := [] }

/-- Between two symbols of a run: the output so far, the distances, `STATE` and the range decoder. -/
def midRun (bytes : List Byte) (reps : Word × Word × Word × Word) (st : BitVec 4) (range code : Word) (inPos : Nat)
    (inp : List Byte) : State :=
  { State.reset with
    rc := { range := range, code := code, inPos := inPos, pmem := { base := .init, cells := [] } }
    seq := { state := st, rep0 := reps.1, rep1 := reps.2.1, rep2 := reps.2.2.1, rep3 := reps.2.2.2
             pos := bytes.length, prev := bytes.getLast?.getD 0 }
    ow := window bytes
    runState := .run
    outSize := 0xFFFFFFFF
    input := inp }

/-- The distances. -/
def reps (s : State) : Word × Word × Word × Word := (s.seq.rep0, s.seq.rep1, s.seq.rep2, s.seq.rep3)

/-- The stream of program P1. -/
def p1 : List Byte :=
  [0x00, 0x34, 0x19, 0x49, 0xEE, 0x8D, 0xE9, 0x4F, 0x7F, 0x35, 0xC5, 0xA3, 0xFF, 0xFF, 0x78, 0xA4, 0x00, 0x00]

/-- `hello ` and the run P1 has come to at its seventh symbol (row 49 of its trace). -/
def hello : List Byte := [0x68, 0x65, 0x6C, 0x6C, 0x6F, 0x20]

/-- Twelve bytes of output with the distances of V9.12 to V9.18. -/
def rotating : State := midRun (hello ++ hello) (5, 3, 9, 1) 0 0xFFFFFFFF 0 5 []

/-! ## Ill-formed terms (WellFormed.lean) -/

theorem test_illformed_length :
    [Instr.newMatch 1 0, .newMatch 274 0, .eos 1, .eos 274, .rep0 1, .rep0 274, .rep1 1, .rep1 274, .rep2 1, .rep2 274,
     .rep3 1, .rep3 274, .distDec 1, .distDec 274].all (fun i => !i.wellFormed) = true := by decide

theorem test_illformed_end_marker_distance : (Instr.newMatch 2 0xFFFFFFFF).wellFormed = false := by decide

theorem test_illformed_cell : (Instr.rcBit 7606).wellFormed = false := by decide

theorem test_illformed_direct : (Instr.rcDirect 27).wellFormed = false := by decide

theorem test_illformed_tree :
    [Instr.btDec 0 0, .btDec 0 9, .btDec 7605 1, .btRdec 0 0, .btRdec 0 6, .btRdec 7605 1].all
      (fun i => !i.wellFormed) = true := by decide

theorem test_illformed_literal_base :
    [Instr.litNormal 1461, .litNormal 1463, .litNormal 7606, .litMatched 1463 0].all (fun i => !i.wellFormed) = true := by
  decide

theorem test_illformed_copy : [Instr.owCopy 0 0, .owCopy 0 274].all (fun i => !i.wellFormed) = true := by decide

/-! ## Words written out from spec/30_encoding.md R95 to R103 and R240 -/

theorem test_decode_lit : readAll (decodeSymbol true) [(word [0, 0, 1, 1, 0, 1, 0, 0, 0], .lit 0x68)] = true := by
  decide +kernel

theorem test_decode_litm : readAll (decodeSymbol false) [(word [0, 0, 1, 1, 0, 1, 1, 1, 1], .litm 0x6F)] = true := by
  decide +kernel

/-- `1 0 <len> ssssss <dx>`: V5.8 with V7.17 and r = 4 (decisions 0, 0, 1, 0); V5.1 with V7.31. -/
theorem test_decode_match : readAll (decodeSymbol true) [
    (word [1, 0, 1, 0, 1, 1, 1, 0, 0, 1, 0, 1, 1, 0, 0, 1, 0], .newMatch 17 0x34),
    (word [1, 0, 0, 0, 0, 0, 1, 1, 1, 1, 1, 0, 0, 0, 0, 0, 0, 0, 0, 0, 0, 0, 0, 0, 0, 0, 0, 0, 0, 0, 0, 0, 0, 0, 0, 0,
           0, 0, 1, 0, 1, 0], .newMatch 2 0x80000005)] = true := by
  decide +kernel

/-- A match whose slot and extension are all ones (R103), with length field 0. -/
theorem test_decode_eos : readAll (decodeSymbol true) [
    (word [1, 0, 0, 0, 0, 0, 1, 1, 1, 1, 1, 1, 1, 1, 1, 1, 1, 1, 1, 1, 1, 1, 1, 1, 1, 1, 1, 1, 1, 1, 1, 1, 1, 1, 1, 1,
           1, 1, 1, 1, 1, 1], .eos 2)] = true := by
  decide +kernel

theorem test_decode_shortrep : readAll (decodeSymbol true) [(word [1, 1, 0, 0], .shortrep)] = true := by decide +kernel

theorem test_decode_reps : readAll (decodeSymbol true) [
    (word [1, 1, 0, 1, 0, 1, 1, 1], .rep0 9), (word [1, 1, 1, 0, 1, 0, 0, 0, 1], .rep1 11),
    (word [1, 1, 1, 1, 0, 1, 1, 0, 0, 0, 0, 0, 0, 0, 1], .rep2 19),
    (word [1, 1, 1, 1, 1, 1, 1, 1, 1, 1, 1, 1, 1, 1, 0], .rep3 272)] = true := by
  decide +kernel

theorem test_decode_lengths : readAll decodeLenField [
    (word [0, 0, 1, 1], .lenLow 3), (word [1, 0, 0, 0, 1], .lenMid 1),
    (word [1, 1, 0, 1, 1, 1, 1, 1, 1, 1], .lenHigh 127)] = true := by
  decide +kernel

theorem test_decode_commands :
    ([(1, some Instr.reset), (2, some .start), (3, some .strip), (0, none), (4, none), (0xFFFFFFFF, none)] :
      List (Word × Option Instr)).all (fun p => (decodeCommand p.1).toOption == p.2) = true := by
  decide +kernel

/-- The slot rows 0 to 13 of R101: six slot decisions, then the reverse tree bits, least significant first. -/
theorem test_decode_slots_0_to_13 : readAll decodeDxField [
    (word [0, 0, 0, 0, 0, 0], .dxSlot0),
    (word [0, 0, 0, 0, 0, 1], .dxSlot1),
    (word [0, 0, 0, 0, 1, 0], .dxSlot2),
    (word [0, 0, 0, 0, 1, 1], .dxSlot3),
    (word [0, 0, 0, 1, 0, 0, 1], .dxSlot4 1),
    (word [0, 0, 0, 1, 0, 1, 1], .dxSlot5 1),
    (word [0, 0, 0, 1, 1, 0, 1, 1], .dxSlot6 3),
    (word [0, 0, 0, 1, 1, 1, 0, 1], .dxSlot7 2),
    (word [0, 0, 1, 0, 0, 0, 0, 1, 1], .dxSlot8 6),
    (word [0, 0, 1, 0, 0, 1, 1, 1, 0], .dxSlot9 3),
    (word [0, 0, 1, 0, 1, 0, 1, 0, 1, 1], .dxSlot10 13),
    (word [0, 0, 1, 0, 1, 1, 0, 0, 1, 1], .dxSlot11 12),
    (word [0, 0, 1, 1, 0, 0, 1, 1, 1, 1, 1], .dxSlot12 31),
    (word [0, 0, 1, 1, 0, 1, 1, 1, 0, 1, 1], .dxSlot13 27)] = true := by decide +kernel

/-- The slot rows 14 to 30 of R101: the direct bits most significant first, then four alignment bits least
significant first. -/
theorem test_decode_slots_14_to_30 : readAll decodeDxField [
    (word [0, 0, 1, 1, 1, 0, 1, 0, 0, 1, 1, 1], .dxSlot14 2 14),
    (word [0, 0, 1, 1, 1, 1, 1, 1, 1, 0, 1, 1], .dxSlot15 3 13),
    (word [0, 1, 0, 0, 0, 0, 1, 0, 1, 1, 1, 0, 1], .dxSlot16 5 11),
    (word [0, 1, 0, 0, 0, 1, 1, 0, 0, 1, 1, 0, 0], .dxSlot17 4 3),
    (word [0, 1, 0, 0, 1, 0, 1, 0, 0, 1, 0, 1, 1, 0], .dxSlot18 9 6),
    (word [0, 1, 0, 0, 1, 1, 1, 1, 1, 1, 0, 1, 1, 1], .dxSlot19 15 14),
    (word [0, 1, 0, 1, 0, 0, 1, 0, 1, 1, 1, 1, 1, 1, 0], .dxSlot20 23 7),
    (word [0, 1, 0, 1, 0, 1, 1, 0, 0, 1, 1, 0, 1, 0, 1], .dxSlot21 19 10),
    (word [0, 1, 0, 1, 1, 0, 1, 0, 1, 1, 1, 1, 1, 0, 0, 0], .dxSlot22 47 1),
    (word [0, 1, 0, 1, 1, 1, 1, 0, 1, 1, 0, 1, 1, 1, 1, 0], .dxSlot23 45 7),
    (word [0, 1, 1, 0, 0, 0, 1, 1, 0, 0, 0, 1, 1, 1, 1, 0, 0], .dxSlot24 99 3),
    (word [0, 1, 1, 0, 0, 1, 1, 1, 1, 0, 0, 0, 1, 1, 1, 0, 0], .dxSlot25 113 3),
    (word [0, 1, 1, 0, 1, 0, 1, 0, 0, 1, 0, 0, 1, 0, 1, 1, 0, 0], .dxSlot26 146 3),
    (word [0, 1, 1, 0, 1, 1, 1, 1, 1, 1, 0, 0, 0, 1, 1, 1, 0, 0], .dxSlot27 241 3),
    (word [0, 1, 1, 1, 0, 0, 1, 0, 1, 0, 0, 0, 0, 1, 1, 1, 0, 0, 0], .dxSlot28 323 1),
    (word [0, 1, 1, 1, 0, 1, 1, 0, 0, 0, 0, 0, 0, 1, 0, 0, 0, 1, 0], .dxSlot29 258 4),
    (word [0, 1, 1, 1, 1, 0, 1, 0, 1, 1, 0, 1, 1, 1, 0, 0, 1, 1, 0, 0], .dxSlot30 732 3)] = true := by decide +kernel

/-- The slot rows 31 to 47 of R101. -/
theorem test_decode_slots_31_to_47 : readAll decodeDxField [
    (word [0, 1, 1, 1, 1, 1, 1, 0, 1, 0, 1, 0, 1, 0, 1, 0, 1, 0, 1, 0], .dxSlot31 682 5),
    (word [1, 0, 0, 0, 0, 0, 1, 1, 0, 1, 0, 0, 0, 0, 0, 1, 0, 0, 0, 1, 0], .dxSlot32 1666 4),
    (word [1, 0, 0, 0, 0, 1, 1, 0, 1, 1, 0, 1, 0, 0, 0, 1, 1, 1, 1, 0, 0], .dxSlot33 1443 3),
    (word [1, 0, 0, 0, 1, 0, 1, 0, 1, 1, 0, 0, 1, 0, 0, 1, 1, 0, 1, 1, 1, 0], .dxSlot34 2854 7),
    (word [1, 0, 0, 0, 1, 1, 1, 1, 0, 0, 1, 1, 0, 0, 0, 1, 1, 1, 1, 0, 0, 0], .dxSlot35 3271 1),
    (word [1, 0, 0, 1, 0, 0, 1, 1, 0, 1, 1, 1, 0, 0, 0, 1, 1, 1, 0, 1, 1, 1, 0], .dxSlot36 7054 7),
    (word [1, 0, 0, 1, 0, 1, 1, 0, 1, 0, 1, 0, 1, 0, 0, 1, 1, 1, 1, 1, 1, 0, 0], .dxSlot37 5455 3),
    (word [1, 0, 0, 1, 1, 0, 1, 1, 0, 0, 0, 0, 1, 1, 1, 0, 0, 0, 1, 0, 0, 1, 0, 0], .dxSlot38 12514 2),
    (word [1, 0, 0, 1, 1, 1, 1, 1, 0, 1, 0, 1, 0, 0, 1, 1, 1, 1, 0, 1, 1, 0, 1, 0], .dxSlot39 13629 5),
    (word [1, 0, 1, 0, 0, 0, 1, 0, 0, 0, 0, 0, 0, 0, 1, 1, 0, 1, 1, 1, 0, 0, 1, 0, 1], .dxSlot40 16494 10),
    (word [1, 0, 1, 0, 0, 1, 1, 1, 0, 1, 0, 1, 1, 0, 1, 0, 0, 0, 0, 0, 0, 0, 1, 0, 0], .dxSlot41 27456 2),
    (word [1, 0, 1, 0, 1, 0, 1, 1, 0, 0, 1, 1, 1, 1, 0, 1, 0, 1, 1, 0, 0, 1, 0, 1, 1, 0], .dxSlot42 53081 6),
    (word [1, 0, 1, 0, 1, 1, 1, 1, 0, 0, 1, 1, 1, 0, 0, 1, 0, 1, 1, 0, 1, 0, 0, 0, 0, 1], .dxSlot43 52826 8),
    (word [1, 0, 1, 1, 0, 0, 1, 1, 0, 1, 0, 0, 0, 0, 1, 1, 0, 1, 0, 1, 1, 1, 1, 1, 1, 0, 0], .dxSlot44 106927 3),
    (word [1, 0, 1, 1, 0, 1, 1, 1, 1, 1, 1, 0, 1, 1, 0, 0, 1, 1, 0, 0, 0, 1, 0, 0, 0, 0, 1], .dxSlot45 128610 8),
    (word [1, 0, 1, 1, 1, 0, 1, 0, 1, 0, 1, 1, 0, 1, 0, 0, 0, 1, 0, 1, 1, 0, 0, 0, 1, 0, 0, 0], .dxSlot46 177240 1),
    (word [1, 0, 1, 1, 1, 1, 1, 1, 0, 0, 0, 0, 0, 1, 1, 0, 0, 1, 0, 1, 0, 1, 0, 0, 1, 0, 0, 0], .dxSlot47 198228 1)] =
      true := by decide +kernel

/-- The slot rows 48 to 63 of R101. -/
theorem test_decode_slots_48_to_63 : readAll decodeDxField [
    (word [1, 1, 0, 0, 0, 0, 1, 1, 0, 1, 1, 0, 1, 1, 1, 0, 0, 0, 1, 1, 1, 0, 1, 0, 0, 0, 1, 1, 1], .dxSlot48 449652
      14),
    (word [1, 1, 0, 0, 0, 1, 1, 1, 1, 0, 0, 1, 1, 1, 0, 1, 1, 1, 1, 1, 1, 1, 1, 1, 0, 1, 0, 0, 0], .dxSlot49 474110
      1),
    (word [1, 1, 0, 0, 1, 0, 1, 1, 1, 0, 1, 0, 1, 1, 0, 0, 1, 1, 1, 0, 0, 0, 0, 1, 0, 0, 0, 1, 1, 0], .dxSlot50 963460
      6),
    (word [1, 1, 0, 0, 1, 1, 1, 1, 1, 0, 0, 0, 0, 0, 0, 1, 0, 1, 1, 0, 0, 1, 0, 1, 1, 1, 0, 1, 0, 1], .dxSlot51 918935
      10),
    (word [1, 1, 0, 1, 0, 0, 1, 0, 0, 0, 0, 0, 1, 0, 0, 1, 0, 1, 0, 0, 1, 0, 1, 1, 1, 1, 0, 0, 0, 0, 1], .dxSlot52
      1067614 8),
    (word [1, 1, 0, 1, 0, 1, 1, 0, 0, 0, 1, 0, 1, 1, 1, 1, 1, 1, 0, 1, 1, 0, 0, 1, 0, 0, 1, 0, 0, 1, 1], .dxSlot53
      1146569 12),
    (word [1, 1, 0, 1, 1, 0, 1, 0, 1, 0, 1, 1, 1, 0, 0, 1, 0, 1, 0, 0, 0, 0, 1, 0, 1, 1, 1, 1, 0, 1, 0, 1], .dxSlot54
      2855983 10),
    (word [1, 1, 0, 1, 1, 1, 1, 0, 1, 1, 0, 0, 1, 0, 0, 1, 0, 0, 1, 1, 1, 1, 0, 0, 1, 1, 1, 1, 0, 1, 0, 0], .dxSlot55
      2921423 2),
    (word [1, 1, 1, 0, 0, 0, 1, 0, 1, 1, 1, 1, 1, 0, 1, 1, 1, 1, 1, 1, 1, 1, 1, 0, 0, 0, 1, 0, 1, 0, 1, 1, 1],
      .dxSlot56 6258629 14),
    (word [1, 1, 1, 0, 0, 1, 1, 1, 1, 1, 0, 1, 1, 0, 0, 1, 0, 1, 0, 0, 1, 1, 0, 0, 0, 1, 0, 1, 1, 0, 1, 1, 0],
      .dxSlot57 8071563 6),
    (word [1, 1, 1, 0, 1, 0, 1, 1, 0, 1, 1, 0, 1, 0, 1, 1, 0, 1, 0, 0, 1, 1, 1, 0, 1, 1, 1, 0, 1, 0, 1, 0, 0, 1],
      .dxSlot58 14341050 9),
    (word [1, 1, 1, 0, 1, 1, 1, 1, 0, 0, 0, 0, 0, 0, 0, 0, 1, 1, 1, 0, 1, 0, 1, 0, 0, 1, 0, 1, 1, 0, 1, 0, 1, 1],
      .dxSlot59 12597910 13),
    (word [1, 1, 1, 1, 0, 0, 1, 1, 1, 1, 0, 1, 1, 0, 0, 1, 1, 1, 1, 1, 0, 1, 0, 1, 0, 1, 0, 0, 1, 0, 0, 0, 1, 0, 0],
      .dxSlot60 32307876 2),
    (word [1, 1, 1, 1, 0, 1, 1, 1, 0, 1, 1, 1, 1, 0, 0, 0, 0, 0, 0, 1, 1, 1, 0, 0, 1, 1, 0, 0, 0, 0, 1, 0, 1, 1, 1],
      .dxSlot61 29101665 14),
    (word [1, 1, 1, 1, 1, 0, 1, 1, 0, 0, 1, 0, 1, 1, 1, 0, 1, 1, 1, 1, 0, 1, 1, 0, 1, 1, 1, 0, 1, 1, 0, 0, 1, 0, 0,
      0], .dxSlot62 53409516 1),
    (word [1, 1, 1, 1, 1, 1, 1, 1, 1, 1, 1, 1, 1, 1, 1, 1, 1, 1, 1, 1, 1, 1, 1, 1, 1, 1, 1, 1, 1, 1, 1, 1, 1, 1, 1,
      1], .dxSlot63 67108863 15)] = true := by decide +kernel

/-! ## The units, on the vectors of spec/95_test_vectors.md 2.1 to 2.8 and 2.12 -/

/-- V1.1, V1.2, V1.4, V1.7; V1.5, V1.6. -/
theorem test_rc_init :
    ([([0x00, 0x34, 0x19, 0x49, 0xEE], 0x341949EE), ([0xFF, 0x34, 0x19, 0x49, 0xEE], 0x341949EE),
      ([0x00, 0xFF, 0xFF, 0xFF, 0xFF], 0xFFFFFFFF), ([0x12, 1, 2, 3, 4, 5], 0x01020304)] : List (List Byte × Word)).all
        (fun v => nextIs (exec .rcInit (rcState 0 0 v.1)) fun t =>
          t.rc.range == 0xFFFFFFFF && t.rc.code == v.2 && t.rc.inPos == 5) = true ∧
    [([0x00, 0x34, 0x19, 0x49] : List Byte), []].all
        (fun inp => nextIs (exec .rcInit (rcState 0 0 inp)) fun t => t.cause == .truncatedInput) = true := by
  decide +kernel

/-- V3.1 to V3.4. -/
theorem test_rc_norm :
    ([(0x00800000, 0x00194DEE, [0x8D], 0x80000000, 0x194DEE8D, 1), (0x01000000, 7, [1], 0x01000000, 7, 0),
      (0x00FFFFFF, 0xFF123456, [0x78], 0xFFFFFF00, 0x12345678, 1)] :
        List (Word × Word × List Byte × Word × Word × Nat)).all
      (fun v => nextIs (exec .rcNorm (rcState v.1 v.2.1 v.2.2.1)) fun t =>
        (t.rc.range, t.rc.code, t.rc.inPos) == v.2.2.2) = true ∧
    nextIs (exec .rcNorm (rcState 0x00800000 0 [])) (fun t => t.cause == .truncatedInput) = true := by
  decide +kernel

/-- V2.1 to V2.12: RANGE, CODE, p, next byte; bit, p after, RANGE after, CODE after. -/
theorem test_rc_bit :
    ([(0xFFFFFFFF, 0x341949EE, 1024, [], false, 1056, 0x7FFFFC00, 0x341949EE),
      (0xFFFFFFFF, 0x7FFFFBFF, 1024, [], false, 1056, 0x7FFFFC00, 0x7FFFFBFF),
      (0xFFFFFFFF, 0x7FFFFC00, 1024, [], true, 992, 0x800003FF, 0x00000000),
      (0xFFFFFFFF, 0xFFFFFFFF, 1024, [], true, 992, 0x800003FF, 0x800003FF),
      (0x01000000, 0x0003DFFF, 31, [0xAB], false, 94, 0x03E00000, 0x03DFFFAB),
      (0x01000000, 0x0003E000, 31, [0xAB], true, 31, 0xFC200000, 0x000000AB),
      (0x01000000, 0x00FC1FFF, 2017, [0xCD], false, 2017, 0xFC200000, 0xFC1FFFCD),
      (0x01000000, 0x00FC2000, 2017, [0xCD], true, 1954, 0x03E00000, 0x000000CD),
      (0xFFFFFFFF, 0x00000000, 2017, [], false, 2017, 0xFC1FF81F, 0x00000000),
      (0x01000000, 0x00000000, 1024, [0x00], false, 1056, 0x80000000, 0x00000000),
      (0x01000000, 0x007FFFFF, 1024, [0x5A], false, 1056, 0x80000000, 0x7FFFFF5A),
      (0x01000000, 0x00800000, 1024, [0x5A], true, 992, 0x80000000, 0x0000005A)] :
        List (Word × Word × Prob × List Byte × Bool × Prob × Word × Word)).all
      (fun v => nextIs (exec (.rcBit 9) (cellState v.1 v.2.1 v.2.2.2.1 9 v.2.2.1)) fun t =>
        t.result == .bit v.2.2.2.2.1 &&
          (pmemRead t.rc.pmem 9, t.rc.range, t.rc.code) == v.2.2.2.2.2) = true := by
  decide +kernel

/-- V3.5 to V3.10. -/
theorem test_rc_direct :
    ([(2, 0x10000000, 0x0C000000, [], 3, 0x04000000, 0), (2, 0x01000000, 0x00C00000, [0xAB], 3, 0x40000000, 0xAB),
      (1, 0xFFFFFFFF, 0x7FFFFFFE, [], 0, 0x7FFFFFFF, 0x7FFFFFFE), (1, 0xFFFFFFFF, 0x7FFFFFFF, [], 1, 0x7FFFFFFF, 0),
      (0, 5, 6, [], 0, 5, 6), (3, 0x80000000, 0x50000000, [], 5, 0x10000000, 0)] :
        List (Nat × Word × Word × List Byte × Nat × Word × Word)).all
      (fun v => nextIs (exec (.rcDirect v.1) (rcState v.2.1 v.2.2.1 v.2.2.2.1)) fun t =>
        t.result == .number v.2.2.2.2.1 && (t.rc.range, t.rc.code) == v.2.2.2.2.2) = true := by
  decide +kernel

/-- By hand from R124, R122 and R129: from `CODE >= RANGE`, `RC.NORM` drops the one bit of `CODE` that is left (log 26). -/
theorem test_rc_bit_norm_drops :
    nextIs (exec (.rcBit 9) (cellState 0x01000000 0x01FC2000 [0xAB] 9 2017)) (fun t =>
      t.result == .bit true && t.rc.range == 0x03E00000 && t.rc.code == 0xAB) = true := by decide +kernel

/-- By hand from R126: an odd `RANGE` with `CODE = RANGE - 1` gives `CODE = RANGE` (log 23). -/
theorem test_rc_direct_odd_range :
    nextIs (exec (.rcDirect 1) (rcState 0xFFFFFFFF 0xFFFFFFFE [])) (fun t =>
      t.result == .number 1 && t.rc.range == 0x7FFFFFFF && t.rc.code == 0x7FFFFFFF) = true := by decide +kernel

/-- V4.2, V4.5, V4.8, in the slot tree of class 0 and the high tree. -/
theorem test_bt_dec :
    readsAs (.btDec 432 3) ([433, 435, 438].map some) [1, 0, 1] (.number 5) = true ∧
    readsAs (.btDec 432 6) ([433, 434, 436, 440, 449, 466].map some) [0, 0, 0, 1, 0, 0] (.number 4) = true ∧
    readsAs (.btDec 884 8) ([885, 887, 891, 899, 915, 947, 1011, 1139].map some) [1, 1, 1, 1, 1, 1, 1, 1]
      (.number 255) = true := by
  decide +kernel

/-- V4.13, V4.19. -/
theorem test_bt_rdec :
    readsAs (.btRdec 802 4) ([803, 805, 808, 815].map some) [1, 0, 1, 0] (.number 5) = true ∧
    readsAs (.btRdec 739 5) ([740, 742, 746, 753, 767].map some) [1, 1, 0, 0, 1] (.number 19) = true := by
  decide +kernel

/-- V5.7 (`LEN`, `ps` 1) and V5.18 (`REPLEN`, `ps` 0), and the largest value. -/
theorem test_len_dec :
    readsAs (.lenDec .len 1) ([818, 819, 861, 862, 864].map some) [1, 0, 0, 0, 1] (.number 9) = true ∧
    readsAs (.lenDec .repLen 0) ([1140, 1141, 1207, 1208, 1210, 1214, 1222, 1238, 1270, 1334].map some)
      [1, 1, 0, 0, 0, 0, 0, 0, 0, 0] (.number 16) = true ∧
    readsAs (.lenDec .len 3) ([818, 845, 846, 848].map some) [0, 0, 0, 0] (.number 0) = true := by
  decide +kernel

/-- The first symbol of P1: cells 1463 to 1642, byte 0x68. -/
theorem test_lit_normal :
    readsAs (.litNormal 1462) ([1463, 1464, 1467, 1473, 1484, 1507, 1552, 1642].map some) [0, 1, 1, 0, 1, 0, 0, 0]
      (.byte 0x68) = true := by
  decide +kernel

/-- V6.9 to V6.12: match byte 0x41, base 2998. -/
theorem test_lit_matched :
    readsAs (.litMatched 2998 0x41)
      ([0x101, 0x202, 0x105, 0x10A, 0x114, 0x128, 0x150, 0x2A0].map fun o => some (2998 + o)) [0, 1, 0, 0, 0, 0, 0, 1]
      (.byte 0x41) = true ∧
    readsAs (.litMatched 2998 0x41)
      ([0x101, 0x003, 0x007, 0x00E, 0x01C, 0x038, 0x070, 0x0E0].map fun o => some (2998 + o)) [1, 1, 0, 0, 0, 0, 0, 1]
      (.byte 0xC1) = true ∧
    readsAs (.litMatched 2998 0x41)
      ([0x101, 0x202, 0x105, 0x10A, 0x114, 0x128, 0x150, 0x0A1].map fun o => some (2998 + o)) [0, 1, 0, 0, 0, 0, 1, 1]
      (.byte 0x43) = true := by
  decide +kernel

/-- The example of R186 (length 11, distance 5), V7.20, and V7.31. -/
theorem test_dist_dec :
    readsAs (.distDec 11) ([625, 626, 628, 632, 641, 658, 688].map some) [0, 0, 0, 1, 0, 0, 1] (.distance 5) = true ∧
    readsAs (.distDec 2) ([433, 434, 436, 441, 451, 470, 771, 773, 777, 785, 801].map some)
      [0, 0, 1, 1, 0, 1, 1, 1, 1, 1, 1] (.distance 0x7F) = true ∧
    nextIs (exec (.distDec 2) (fed ([433, 435, 439, 447, 463, 495].map some ++ List.replicate 26 none ++
        [803, 805, 808, 815].map some) ([1, 1, 1, 1, 1, 0] ++ List.replicate 26 0 ++ [1, 0, 1, 0])))
      (fun t => t.cause == .invalidDistance) = true := by
  decide +kernel

/-- V8.3, V8.4, and the wrap of 2.8: the put that fills the window delivers it. -/
theorem test_ow_put :
    nextIs (exec (.owPut 0x63) { State.reset with ow := window [0x61, 0x62] })
      (fun t => t.ow == window [0x61, 0x62, 0x63]) = true ∧
    nextIs (exec (.owPut 0x62) { State.reset with
        ow := { win := [(131070, 0x61)], winDraw := 0, wpos := 131071, spos := 131070, total := 131071, sink := [] } })
      (fun t => (t.ow.wpos, t.ow.spos, t.ow.total, t.ow.sink) == (0, 0, 131072, [0x61, 0x62])) = true := by
  decide +kernel

/-- V8.11, V8.12 on three bytes. -/
theorem test_ow_flush :
    nextIs (exec .owFlush { State.reset with ow := window [0x61, 0x62, 0x63] })
      (fun t => (t.ow.wpos, t.ow.spos, t.ow.sink) == (3, 3, [0x61, 0x62, 0x63])) = true ∧
    nextIs (exec .owFlush { State.reset with ow := { window [0x61] with spos := 1, sink := [0x61] } })
      (fun t => t.ow == { window [0x61] with spos := 1, sink := [0x61] }) = true := by
  decide +kernel

/-- V8.5, V8.6, V8.10; and the byte across the wrap. -/
theorem test_ow_get :
    [0, 1, 2].map (fun d : Nat => nextIs (exec (.owGet (BitVec.ofNat 32 d))
        { State.reset with ow := window [0x61, 0x62, 0x63] })
      (fun t => t.result == .byte ([0x63, 0x62, 0x61].getD d 0))) = [true, true, true] ∧
    [(3 : Word), 131072].all (fun d => nextIs (exec (.owGet d) { State.reset with ow := window [0x61, 0x62, 0x63] })
      (fun t => t.cause == .windowRange)) = true ∧
    nextIs (exec (.owGet 2) { State.reset with
        ow := { win := [(0, 0x61), (131070, 0x62)], winDraw := 0, wpos := 1, spos := 0, total := 131073, sink := [] } })
      (fun t => t.result == .byte 0x62) = true := by
  decide +kernel

/-- V8.7, V8.8; V8.6's fault. -/
theorem test_ow_copy :
    nextIs (exec (.owCopy 2 5) { State.reset with ow := window [0x61, 0x62, 0x63] })
      (fun t => t.ow == window [0x61, 0x62, 0x63, 0x61, 0x62, 0x63, 0x61, 0x62]) = true ∧
    nextIs (exec (.owCopy 0 3) { State.reset with ow := window [0x61, 0x62] })
      (fun t => t.ow == window [0x61, 0x62, 0x62, 0x62, 0x62]) = true ∧
    nextIs (exec (.owCopy 3 1) { State.reset with ow := window [0x61, 0x62, 0x63] })
      (fun t => t.cause == .windowRange) = true := by
  decide +kernel

/-- V12.1, V12.2, V12.5. -/
theorem test_crc32 :
    ([([], 0), ([0x61], 0xE8B7BE43), ([0x31, 0x32, 0x33, 0x34, 0x35, 0x36, 0x37, 0x38, 0x39], 0xCBF43926)] :
        List (List Byte × Word)).all
      (fun v => nextIs (exec (.crc32 v.1) State.reset) fun t => t.result == .word v.2) = true := by
  decide +kernel

/-- V12.9, V12.11, V12.15, V12.18. -/
theorem test_cf_strip :
    ([([0x43, 0xBE, 0xB7, 0xE8, 0x61], ⟨.ok, 0xE8B7BE43, 0xE8B7BE43, [0x61]⟩),
      ([0x43, 0xBE, 0xB7, 0xE8, 0x60], ⟨.mismatch, 0xE8B7BE43, 0x9FB08ED5, []⟩),
      ([0, 0, 0, 1], ⟨.mismatch, 0x01000000, 0, []⟩), ([0x43, 0xBE, 0xB7], ⟨.short, 0, 0, []⟩)] :
        List (List Byte × Cf)).all
      (fun v => nextIs (exec (.cfStrip v.1) State.reset) fun t => t.cf == v.2) = true := by
  decide +kernel

/-- V12.4. -/
theorem test_cf_attach :
    nextIs (exec (.cfAttach [0x61, 0x62, 0x63]) State.reset)
      (fun t => t.result == .bytes [0xC2, 0x41, 0x24, 0x35, 0x61, 0x62, 0x63]) = true := by
  decide +kernel

/-- V7.20, V7.23, V7.29, V7.30, V7.33, on the rows themselves. -/
theorem test_slot_rows :
    nextIs (exec (.dxSlot13 31) State.reset) (fun t => t.result == .distance 0x7F) = true ∧
    nextIs (exec (.dxSlot14 3 15) State.reset) (fun t => t.result == .distance 0xBF) = true ∧
    nextIs (exec (.dxSlot61 0x1FFFFFF 15) State.reset) (fun t => t.result == .distance 0x7FFFFFFF) = true ∧
    nextIs (exec (.dxSlot62 0 0) State.reset) (fun t => t.cause == .invalidDistance) = true ∧
    nextIs (exec (.dxSlot63 0x3FFFFFF 15) State.reset) (fun t => t.result == .endMarker) = true := by
  decide +kernel

/-- 2.5: 0, 8 and 16 added. -/
theorem test_length_rows :
    nextIs (exec (.lenLow 7) State.reset) (fun t => t.result == .number 7) = true ∧
    nextIs (exec (.lenMid 7) State.reset) (fun t => t.result == .number 15) = true ∧
    nextIs (exec (.lenHigh 255) State.reset) (fun t => t.result == .number 271) = true := by
  decide +kernel

/-! ## The symbols, on the trace of P1 and the vectors of 2.9 to 2.11: one step each -/

/-- Rows 0 to 8 of the trace of P1. -/
theorem test_step_lit :
    nextIs (step { startedOn p1 State.reset with outSize := 17 }) (fun t =>
      (t.rc.range, t.rc.code, t.rc.inPos) == (0x80000000, 0x194DEE8D, 6) && t.seq.pos == 1 && t.seq.prev == 0x68 &&
        t.seq.state == 0 && t.ow == window [0x68]) = true := by
  decide +kernel

/-- Rows 27 to 30. -/
theorem test_step_shortrep :
    nextIs (step (midRun [0x68, 0x65, 0x6C] (0, 0, 0, 0) 0 0x230FF800 0x1AC5A94F 8 p1)) (fun t =>
      (t.rc.range, t.rc.code, t.rc.inPos) == (0x02310000, 0x0079B14F, 8) && t.seq.pos == 4 && t.seq.prev == 0x6C &&
        t.seq.state == 9 && t.ow == window [0x68, 0x65, 0x6C, 0x6C]) = true := by
  decide +kernel

/-- Rows 31 to 39: the cells are those of the match byte 0x6C. -/
theorem test_step_litm :
    nextIs (step (midRun [0x68, 0x65, 0x6C, 0x6C] (0, 0, 0, 0) 9 0x02310000 0x0079B14F 8 p1)) (fun t =>
      (t.rc.range, t.rc.code, t.rc.inPos) == (0x01188000, 0x0011CF7F, 9) && t.seq.pos == 5 && t.seq.prev == 0x6F &&
        t.seq.state == 6 &&
        t.rc.pmem.cells.map Prod.fst == [144, 3949, 4023, 4033, 4113, 4280, 4283, 4300, 4323]) = true := by
  decide +kernel

/-- Rows 49 to 62: `MATCH len=11 dist=5`, an overlapping copy. -/
theorem test_step_match :
    nextIs (step (midRun hello (0, 0, 0, 0) 3 0x8BB80000 0x587F35C5 11 p1)) (fun t =>
      (t.rc.range, t.rc.code, t.rc.inPos) == (0x022EE000, 0x011FE5A3, 12) && t.seq.pos == 17 && t.seq.prev == 0x6F &&
        t.seq.state == 7 && reps t == (5, 0, 0, 0) && t.ow == window ((hello ++ hello ++ hello).take 17)) = true := by
  decide +kernel

/-- Rows 63 to 104: the end marker, and the run as H5 reads it. Of its cells only `LEN_CHOICE` was used before. -/
theorem test_step_eos :
    let s := midRun ((hello ++ hello ++ hello).take 17) (5, 0, 0, 0) 7 0x022EE000 0x011FE5A3 12 p1
    nextIs (step { s with rc := { s.rc with pmem := { base := .init, cells := [(818, 992)] } } }) (fun t =>
      (t.rc.range, t.rc.code, t.rc.inPos) == (0x875C0000, 0, 18) && t.seq.pos == 17 && statusWord t == 6 &&
        lzStateWord t.seq == 0x00006F0A && reps t == (0xFFFFFFFF, 5, 0, 0) &&
        t.ow.sink == (hello ++ hello ++ hello).take 17) = true := by
  decide +kernel

/-- V9.12 and V9.18. -/
theorem test_rotation_match_eos :
    nextIs (exec (.newMatch 2 7) rotating) (fun t => reps t == (7, 5, 3, 9)) = true ∧
    nextIs (exec (.eos 2) rotating) (fun t => reps t == (0xFFFFFFFF, 5, 3, 9)) = true := by
  decide +kernel

/-- V9.13 to V9.17, and the bytes copied. -/
theorem test_rotation_repeats :
    nextIs (exec .shortrep rotating) (fun t => reps t == (5, 3, 9, 1) && t.seq.prev == 0x68) = true ∧
    nextIs (exec (.rep0 2) rotating) (fun t => reps t == (5, 3, 9, 1) && t.seq.prev == 0x65) = true ∧
    nextIs (exec (.rep1 2) rotating) (fun t => reps t == (3, 5, 9, 1) && t.seq.prev == 0x6C) = true ∧
    nextIs (exec (.rep2 2) rotating) (fun t => reps t == (9, 5, 3, 1) && t.seq.prev == 0x6C) = true ∧
    nextIs (exec (.rep3 2) rotating) (fun t => reps t == (1, 5, 3, 9) && t.seq.prev == 0x20) = true := by
  decide +kernel

/-- F1, F1c, F6, F8: the first symbol, and `START` on nothing. -/
theorem test_faults :
    nextIs (step (startedOn [0x00, 0xBF, 0xFF, 0xFC, 0x00] State.reset)) (fun t => t.cause == .dictBounds) = true ∧
    nextIs (step (startedOn [0x00, 0xCF, 0xFF, 0xFC, 0x00] State.reset)) (fun t => t.cause == .dictBounds) = true ∧
    nextIs (step (startedOn (List.replicate 40 0xFF) State.reset)) (fun t => t.cause == .dictBounds) = true ∧
    nextIs (exec .start State.reset) (fun t => t.cause == .truncatedInput && t.runState == .fault) = true := by
  decide +kernel

/-- E14 ends at once; E3 never reads its `EOS`. -/
theorem test_size_reached :
    nextIs (step { startedOn [0, 0, 0, 0, 0] State.reset with outSize := 0 })
      (fun t => t.runState == .done && t.rc.inPos == 5 && !t.endMarker) = true ∧
    nextIs (step { midRun [0x61] (0, 0, 0, 0) 0 0x80000000 0x41FFFFFF 6 [] with outSize := 1 })
      (fun t => t.runState == .done && t.ow.sink == [0x61] && t.rc.inPos == 6) = true := by
  decide +kernel

/-! ## Commands and registers (2.13) -/

/-- H12: `RESET` in `FAULT` (the example of R241). -/
theorem test_reset :
    nextIs (exec .reset { State.reset with runState := .fault, cause := .dictBounds }) (fun t =>
      statusWord t == 0 && t.cause == .none && t.cf == ⟨.none, 0, 0, []⟩) = true := by
  decide +kernel

/-- H3: `START` on P1, where the run then stands (V1.1), and H13: ignored during a run. -/
theorem test_start :
    nextIs (exec .start { State.reset with presented := p1, outSize := 17 }) (fun t =>
      t.runState == .run && (t.rc.range, t.rc.code, t.rc.inPos) == (0xFFFFFFFF, 0x341949EE, 5) && t.input == p1) = true ∧
    nextIs (exec .start (midRun hello (0, 0, 0, 0) 3 5 6 7 p1)) (fun t => t.rc.inPos == 7) = true := by
  decide +kernel

/-- H4: `STRIP` after P1; H2: ignored in `IDLE`. -/
theorem test_strip :
    nextIs (exec .strip { State.reset with
        runState := .done
        ow := { window [] with sink := (hello ++ hello ++ hello).take 17 } }) (fun t =>
      statusWord t == 0x22 && t.cf == ⟨.mismatch, 0x6C6C6568, 0x546C85BD, []⟩) = true ∧
    nextIs (exec .strip State.reset) (fun t => t.cf == ⟨.none, 0, 0, []⟩) = true := by
  decide +kernel

/-- H5's registers, from `STATUS` to `REP1`. -/
theorem test_registers :
    let s : State := { midRun ((hello ++ hello ++ hello).take 17) (0xFFFFFFFF, 5, 0, 0) 10 0x875C0000 0 18 p1 with
      runState := .done, endMarker := true }
    [1, 2, 3, 4, 5, 6, 7, 8, 10, 11, 12, 13, 14].map (regRead s) =
      [6, 0, 0x203, 0x20000, 0xFFFFFFFF, 17, 0, 18, 0x875C0000, 0, 0x00006F0A, 0xFFFFFFFF, 5] := by
  decide +kernel

/-- A placed word is the very next instruction the step runs. -/
theorem test_placed_word :
    nextIs (step (State.reset.withFetchWord 9 0b001101000)) (fun t => t.seq.prev == 0x68 && t.seq.pos == 1) = true ∧
    nextIs (step (State.reset.withFetchWord 32 2)) (fun t => t.cause == .truncatedInput) = true ∧
    nextIs (step (State.reset.withFetchWord 7 0b0001001)) (fun t => t.result == .distance 5) = true := by
  decide +kernel


/-! ## For every statement with hypotheses: a state and operands that meet them, at the ends of each clause's range -/

/-- The operation returned, and what it returned has the property `p`. -/
def okIs {α : Type} (x : Res Rc α) (p : α → Bool) : Bool :=
  match x with
  | .ok a _ => p a
  | _ => false

/-- The operation raised a fault. -/
def raises {α : Type} (x : Res Rc α) : Bool :=
  match x with
  | .raise _ _ => true
  | _ => false

theorem exists_ok {α : Type} {x : Res Rc α} {p : α → Bool} (h : okIs x p = true) :
    ∃ a r, x = .ok a r ∧ p a = true := by
  cases x with
  | ok a r => exact ⟨a, r, rfl, h⟩
  | raise c r => simp [okIs] at h
  | stop f => simp [okIs] at h

theorem ne_ok {α : Type} {x : Res Rc α} (h : raises x = true) (a : α) (r : Rc) : x ≠ .ok a r := by
  rintro rfl
  simp [raises] at h

theorem init_rcOk {range code : Word} {n : Nat} (h : 2 ^ 24 ≤ range.toNat) :
    RcOk { range := range, code := code, inPos := n, pmem := { base := .init, cells := [] } } :=
  ⟨rfl, h, fun a => by simp [pmemRead, listRead, pmemUnlisted, Config.probInit]⟩

/-- A run just started is in order. -/
theorem started_inv (bytes : List Byte) (size : Word) (h : 5 ≤ bytes.length) :
    Inv { startedOn bytes State.reset with outSize := size } where
  memory := rfl
  host := rfl
  status := ⟨rfl, rfl, rfl⟩
  run _ :=
    { rc := init_rcOk (by show 2 ^ 24 ≤ (0xFFFFFFFF#32).toNat; decide)
      inPos := ⟨Nat.le_refl 5, h⟩
      lzState := by show (0#4).toNat < 12; decide
      window := ⟨Nat.le_refl _, rfl, fun d hd => absurd hd (Nat.not_lt_zero d)⟩
      delivered := ⟨rfl, rfl⟩
      total := rfl
      rep0 := fun h7 => absurd h7 (by show ¬ 7 ≤ (0#4).toNat; decide)
      prev := rfl
      overshoot := fun _ => Nat.zero_le _ }
  done hd := by simp [startedOn] at hd

/-- P1 at its first symbol. -/
def run1 : State := { startedOn p1 State.reset with outSize := 17 }

theorem run1_inv : Inv run1 := started_inv p1 17 (by decide)

/-- Five zero bytes and nothing after them. -/
def starved : State := { startedOn [0, 0, 0, 0, 0] State.reset with outSize := 0xFFFFFFFF }

/-- Three bytes of output, a distance 0, after a match. -/
def abc : State := midRun [0x61, 0x62, 0x63] (0, 1, 2, 0) 7 0xFFFFFFFF 0 5 []

theorem abc_holds : abc.ow.HoldsOutput := ⟨by decide, by decide, by decide +kernel⟩

theorem abc_canCopy {d : Word} (h : d.toNat < 3) : CanCopy d abc :=
  ⟨abc_holds, rfl, h, Nat.lt_trans h (by decide)⟩

theorem witness_SymbolWordsDecodeBack :
    ([(.lit 0xFF, true), (.litm 0, false), (.newMatch 2 0, false), (.newMatch 273 0xFFFFFFFE, true), (.eos 2, true),
      (.eos 273, false), (.shortrep, true), (.rep0 2, true), (.rep1 9, true), (.rep2 10, false), (.rep3 273, true)] :
        List (Instr × Bool)).all (fun p => isSymbol p.1 && p.1.wellFormed && formFits p.2 p.1 &&
          match encode p.1 with | .decisions ds => ds.length ≤ 48 | _ => false) = true := by
  decide +kernel

theorem witness_FieldWordsDecodeBack :
    [Instr.lenLow 0, .lenMid 7, .lenHigh 255].all (fun i => i.lenValue?.isSome &&
      match encode i with | .decisions _ => true | _ => false) = true ∧
    [Instr.dxSlot0, .dxSlot4 1, .dxSlot13 31, .dxSlot14 0 0, .dxSlot63 0x3FFFFFF 15].all (fun i => i.dxParts?.isSome &&
      match encode i with | .decisions _ => true | _ => false) = true := by
  decide +kernel

theorem witness_DecodedSymbolWasEncoded :
    decodeSymbol true (List.replicate 48 true) = .ok (.rep3 273, List.replicate 33 true) ∧
    decodeSymbol false (List.replicate 9 false) = .ok (.litm 0, []) := ⟨rfl, rfl⟩

theorem witness_NoDecisionStringIsIllegal : 48 ≤ (List.replicate 48 true).length := by decide

theorem witness_StepRunsTheDecodedInstruction :
    (run1.events = [] ∧ run1.runState = .run ∧ sizeReached run1 = false ∧ ∃ i r, fetchSymbol run1 = .ok i r) ∧
    (∀ v i, (v, i) ∈ [((1 : Word), Instr.reset), (2, .start), (3, .strip)] → decodeCommand v = .ok i) := by
  obtain ⟨i, r, h, -⟩ := exists_ok (x := fetchSymbol run1) (p := fun i => i == .lit 0x68) (by decide +kernel)
  refine ⟨⟨rfl, rfl, rfl, i, r, h⟩, ?_⟩
  simp only [List.mem_cons, Prod.mk.injEq, List.not_mem_nil, or_false]
  rintro v i (⟨rfl, rfl⟩ | ⟨rfl, rfl⟩ | ⟨rfl, rfl⟩) <;> rfl

theorem witness_EngineEndsOrRests :
    (run1.runState = .run ∧ (0#32).toNat < 2 ^ 31 ∧ (0#32).toNat ≤ run1.seq.pos) ∧
    ((0x7FFFFFFF#32).toNat < 2 ^ 31 ∧ (0x7FFFFFFF#32).toNat ≤ 0x7FFFFFFF) ∧
    (State.reset.events = [] ∧ State.reset.runState ≠ .run) := by decide

theorem witness_ExhaustedInputFaults :
    Inv starved ∧ starved.events = [] ∧ starved.runState = .run ∧ sizeReached starved = false ∧
      ∀ i r, fetchSymbol starved ≠ .ok i r :=
  ⟨started_inv _ _ (by decide), rfl, rfl, rfl, ne_ok (by decide +kernel)⟩

theorem witness_SymbolTrainsOnlyItsCells :
    ∃ i r t, Inv run1 ∧ run1.events = [] ∧ run1.runState = .run ∧ sizeReached run1 = false ∧
      fetchSymbol run1 = .ok i r ∧ step run1 = .next t ∧ t.runState ≠ .fault ∧
      some 1 ∉ symbolCells (contextOf run1) i := by
  obtain ⟨i, r, h, hi⟩ := exists_ok (x := fetchSymbol run1) (p := fun i => i == .lit 0x68) (by decide +kernel)
  obtain ⟨t, ht, hr⟩ := exists_next (o := step run1) (p := fun t => t.runState != .fault) (by decide +kernel)
  obtain rfl := eq_of_beq hi
  exact ⟨_, r, t, run1_inv, rfl, rfl, rfl, h, ht, by simpa using hr, by decide +kernel⟩

theorem witness_RcInitPrimes :
    (rcState 0 0 [0x00, 0x34, 0x19, 0x49, 0xEE]).input.drop 0 = 0x00 :: 0x34 :: 0x19 :: 0x49 :: 0xEE :: [] ∧
    (rcState 0 0 [0x00, 0x34, 0x19, 0x49]).input.length < 0 + 5 := by decide

theorem witness_RcNormRenormalises :
    2 ^ 24 ≤ (rcState 0x01000000 0 []).rc.range.toNat ∧
    ((rcState 0x00FFFFFF 0 [0x78]).rc.range.toNat < 2 ^ 24 ∧ (rcState 0x00FFFFFF 0 [0x78]).input[0]? = some 0x78) ∧
    ((rcState 0x00FFFFFF 0 []).rc.range.toNat < 2 ^ 24 ∧ (rcState 0x00FFFFFF 0 []).input.length ≤ 0) := by decide

/-- Both ends of `PMEM`; below, at and above `bound`; with a byte and without. -/
theorem witness_RcBitDecides :
    [0, 7605].all (fun a => a < Config.pmemSize && (cellState 0x01000000 0x0003DFFF [0xAB] a 31).rc.pmem.wf) = true ∧
    (∃ r, afterNorm [0xAB] (rcState 0x0003E000 0x0003DFFF []).rc = some r) ∧
    afterNorm [] (rcState 0x0003E000 0x0003DFFF []).rc = none := by
  refine ⟨by decide, ⟨_, rfl⟩, by decide⟩

theorem witness_RcDirectReadsNumber :
    (∃ r, afterNorm [0xAB] (rcState 0x00800000 0 []).rc = some r) ∧ afterNorm [] (rcState 0x00800000 0 []).rc = none ∧
    (∃ v r, v < 2 ^ 26 ∧
      spells p1 (rcState 0xFFFFFFFF 5 p1).rc (List.replicate 26 none) (msbBits 26 v) r) ∧
    (rcState 0x01000000 0 [0xAB]).rc.inPos + 1 ≤ (rcState 0x01000000 0 [0xAB]).input.length ∧
    (∀ v r, v < 2 ^ 1 → ¬ spells [] (rcState 0x01000000 0 []).rc (List.replicate 1 none) (msbBits 1 v) r) := by
  refine ⟨⟨_, rfl⟩, by decide, ?_, by decide, ?_⟩
  · obtain ⟨v, r, h, -⟩ := exists_ok (x := rcDirect p1 26 (rcState 0xFFFFFFFF 5 p1).rc) (p := fun _ => true)
      (by decide +kernel)
    exact ⟨v, r, rcDirect_eq_ok.mp h⟩
  · intro v r hv hs
    exact ne_ok (x := rcDirect [] 1 (rcState 0x01000000 0 []).rc) (by decide +kernel) v r (rcDirect_eq_ok.mpr ⟨hv, hs⟩)

theorem witness_CodeStaysBelowRangeInAdaptiveDecisions :
    (∃ r', rcInit p1 (rcState 0 0 p1).rc = .ok () r') ∧
    ((∃ r', rcNorm [0x78] (rcState 0x00FFFFFF 0x00FFFFFE []).rc = .ok () r') ∧ 0x00FFFFFE < 0x00FFFFFF) ∧
    (∃ b r', rcBit p1 7605 (rcState 0xFFFFFFFF 0xFFFFFFFE []).rc = .ok b r') ∧
    (∃ v r', rcDirect [] 1 (rcState 0xFFFFFFFF 0xFFFFFFFE []).rc = .ok v r') ∧
    (∃ v r', rcDirect [] 1 (rcState 0xFFFFFFFE 0xFFFFFFFD []).rc = .ok v r' ∧ 0xFFFFFFFD < 0xFFFFFFFE) ∧
    (rcState 0xFFFFFFFF 0xFFFFFFFE []).rc.code.toNat < (rcState 0xFFFFFFFF 0xFFFFFFFE []).rc.range.toNat ∧
    ∃ b r', rcBit [] 0 (rcState 0xFFFFFFFF 0xFFFFFFFF []).rc = .ok b r' ∧ r'.inPos = 0 ∧
      (0xFFFFFFFF#32).toNat ≤ (0xFFFFFFFF#32).toNat := by
  refine ⟨?_, ⟨?_, by decide⟩, ?_, ?_, ?_, by decide, ?_⟩
  · obtain ⟨_, r, h, -⟩ := exists_ok (x := rcInit p1 (rcState 0 0 p1).rc) (p := fun _ => true) (by decide +kernel)
    exact ⟨r, h⟩
  · obtain ⟨_, r, h, -⟩ := exists_ok (x := rcNorm [0x78] (rcState 0x00FFFFFF 0x00FFFFFE []).rc) (p := fun _ => true)
      (by decide +kernel)
    exact ⟨r, h⟩
  · obtain ⟨b, r, h, -⟩ := exists_ok (x := rcBit p1 7605 (rcState 0xFFFFFFFF 0xFFFFFFFE []).rc) (p := fun _ => true)
      (by decide +kernel)
    exact ⟨b, r, h⟩
  · obtain ⟨v, r, h, -⟩ := exists_ok (x := rcDirect [] 1 (rcState 0xFFFFFFFF 0xFFFFFFFE []).rc) (p := fun _ => true)
      (by decide +kernel)
    exact ⟨v, r, h⟩
  · obtain ⟨v, r, h, -⟩ := exists_ok (x := rcDirect [] 1 (rcState 0xFFFFFFFE 0xFFFFFFFD []).rc) (p := fun _ => true)
      (by decide +kernel)
    exact ⟨v, r, h, by decide⟩
  · have h : (match rcBit [] 0 (rcState 0xFFFFFFFF 0xFFFFFFFF []).rc with
        | .ok _ r => r.inPos == 0
        | _ => false) = true := by decide +kernel
    split at h
    · next b r hb => exact ⟨b, r, hb, by simpa using h, Nat.le_refl _⟩
    · cases h

/-- A direct decision from an even `RANGE`. -/
theorem witness_CodeStaysBelowRangeInDirectDecisions :
    ∃ v r', rcDirect p1 1 (rcState 0x80000000 0x50000000 p1).rc = .ok v r' ∧
      RcOk (rcState 0x80000000 0x50000000 p1).rc ∧ (0x50000000#32).toNat < (0x80000000#32).toNat := by
  obtain ⟨v, r, h, -⟩ := exists_ok (x := rcDirect p1 1 (rcState 0x80000000 0x50000000 p1).rc) (p := fun _ => true)
    (by decide +kernel)
  exact ⟨v, r, h, init_rcOk (by decide), by decide⟩

theorem witness_RcBitStopsOnNoCell : Config.pmemSize ≤ 7606 := by decide

/-- The last cells of `PMEM`, as many bytes as decisions, and a stream that ends too early. -/
theorem witness_BtDecReadsNumber :
    (∃ v r, v < 2 ^ 8 ∧ spells p1 (rcState 0xFFFFFFFF 5 p1).rc (treeCells 7350 1 (msbBits 8 v)) (msbBits 8 v) r) ∧
    (7598 + 2 ^ 3 ≤ Config.pmemSize ∧ (rcState 5 6 [1, 2, 3]).rc.inPos + 3 ≤ (rcState 5 6 [1, 2, 3]).input.length) ∧
    (∀ v r, v < 2 ^ 3 →
      ¬ spells [] (rcState 0x01000000 0 []).rc (treeCells 7598 1 (msbBits 3 v)) (msbBits 3 v) r) := by
  refine ⟨?_, by decide, ?_⟩
  · obtain ⟨v, r, h, -⟩ := exists_ok (x := btDec p1 7350 8 (rcState 0xFFFFFFFF 5 p1).rc) (p := fun _ => true)
      (by decide +kernel)
    exact ⟨v, r, btDec_eq_ok.mp h⟩
  · intro v r hv hs
    exact ne_ok (x := btDec [] 7598 3 (rcState 0x01000000 0 []).rc) (by decide +kernel) v r (btDec_eq_ok.mpr ⟨hv, hs⟩)

theorem witness_BtRdecReadsNumber :
    (∃ v r, v < 2 ^ 5 ∧ spells p1 (rcState 0xFFFFFFFF 5 p1).rc (treeCells 687 1 (lsbBits 5 v)) (lsbBits 5 v) r) ∧
    (7604 + 2 ^ 1 ≤ Config.pmemSize ∧ (rcState 5 6 [1]).rc.inPos + 1 ≤ (rcState 5 6 [1]).input.length) ∧
    (∀ v r, v < 2 ^ 1 →
      ¬ spells [] (rcState 0x01000000 0 []).rc (treeCells 687 1 (lsbBits 1 v)) (lsbBits 1 v) r) := by
  refine ⟨?_, by decide, ?_⟩
  · obtain ⟨v, r, h, -⟩ := exists_ok (x := btRdec p1 687 5 (rcState 0xFFFFFFFF 5 p1).rc) (p := fun _ => true)
      (by decide +kernel)
    exact ⟨v, r, btRdec_eq_ok.mp h⟩
  · intro v r hv hs
    exact ne_ok (x := btRdec [] 687 1 (rcState 0x01000000 0 []).rc) (by decide +kernel) v r
      (btRdec_eq_ok.mpr ⟨hv, hs⟩)

theorem witness_BtRdecIsTheReversal : ∃ v r', btDec p1 802 4 (rcState 0xFFFFFFFF 5 p1).rc = .ok v r' := by
  obtain ⟨v, r, h, -⟩ := exists_ok (x := btDec p1 802 4 (rcState 0xFFFFFFFF 5 p1).rc) (p := fun _ => true)
    (by decide +kernel)
  exact ⟨v, r, h⟩

/-- The smallest and the largest value, ten bytes left, and none. -/
theorem witness_LenDecReadsLength :
    (∃ r, spells [] (rcState 0xFFFFFFFF 0 []).rc (lenCells .len 3 0) (lenBits 0) r) ∧
    (∃ r, spells [9, 9] (rcState 0xFFFFFFFF 0xFFFFFFFF [9, 9]).rc (lenCells .repLen 0 271) (lenBits 271) r) ∧
    (rcState 5 6 (List.replicate 10 0)).rc.inPos + 10 ≤ (rcState 5 6 (List.replicate 10 0)).input.length ∧
    (∀ v r, v ≤ 271 → ¬ spells [] (rcState 0x01000000 0 []).rc (lenCells .len 0 v) (lenBits v) r) := by
  refine ⟨?_, ?_, by decide, ?_⟩
  · obtain ⟨v, r, h, hv⟩ := exists_ok (x := lenDec [] .len 3 (rcState 0xFFFFFFFF 0 []).rc) (p := fun v => v == 0)
      (by decide +kernel)
    obtain rfl := eq_of_beq hv
    exact ⟨r, (lenDec_eq_ok.mp h).2⟩
  · obtain ⟨v, r, h, hv⟩ := exists_ok (x := lenDec [9, 9] .repLen 0 (rcState 0xFFFFFFFF 0xFFFFFFFF [9, 9]).rc)
      (p := fun v => v == 271) (by decide +kernel)
    obtain rfl := eq_of_beq hv
    exact ⟨r, (lenDec_eq_ok.mp h).2⟩
  · intro v r hv hs
    exact ne_ok (x := lenDec [] .len 0 (rcState 0x01000000 0 []).rc) (by decide +kernel) v r
      (lenDec_eq_ok.mpr ⟨hv, hs⟩)

theorem witness_LitNormalReadsByte :
    (∃ (b : Byte) (r : Rc), spells [9] (rcState 0xFFFFFFFF 0 [9]).rc (treeCells 6838 1 (msbBits 8 b.toNat))
      (msbBits 8 b.toNat) r) ∧
    ((Instr.litNormal 6838).wellFormed = true ∧
      (rcState 5 6 (List.replicate 8 0)).rc.inPos + 8 ≤ (rcState 5 6 (List.replicate 8 0)).input.length) ∧
    (∀ (b : Byte) (r : Rc), ¬ spells [] (rcState 0x01000000 0 []).rc (treeCells 1462 1 (msbBits 8 b.toNat))
      (msbBits 8 b.toNat) r) := by
  refine ⟨?_, by decide, ?_⟩
  · obtain ⟨b, r, h, -⟩ := exists_ok (x := litNormal [9] 6838 (rcState 0xFFFFFFFF 0 [9]).rc) (p := fun _ => true)
      (by decide +kernel)
    exact ⟨b, r, litNormal_eq_ok.mp h⟩
  · intro b r hs
    exact ne_ok (x := litNormal [] 1462 (rcState 0x01000000 0 []).rc) (by decide +kernel) b r (litNormal_eq_ok.mpr hs)

theorem witness_LitMatchedReadsByte :
    (∃ (b : Byte) (r : Rc), spells [9] (rcState 0xFFFFFFFF 0 [9]).rc (matchedCells 6838 0x41 1 (msbBits 8 b.toNat))
      (msbBits 8 b.toNat) r) ∧
    ((Instr.litMatched 6838 0xFF).wellFormed = true ∧
      (rcState 5 6 (List.replicate 8 0)).rc.inPos + 8 ≤ (rcState 5 6 (List.replicate 8 0)).input.length) ∧
    (∀ (b : Byte) (r : Rc), ¬ spells [] (rcState 0x01000000 0 []).rc (matchedCells 1462 0x41 1 (msbBits 8 b.toNat))
      (msbBits 8 b.toNat) r) := by
  refine ⟨?_, by decide, ?_⟩
  · obtain ⟨b, r, h, -⟩ := exists_ok (x := litMatched [9] 6838 0x41 (rcState 0xFFFFFFFF 0 [9]).rc) (p := fun _ => true)
      (by decide +kernel)
    exact ⟨b, r, litMatched_eq_ok.mp h⟩
  · intro b r hs
    exact ne_ok (x := litMatched [] 1462 0x41 (rcState 0x01000000 0 []).rc) (by decide +kernel) b r
      (litMatched_eq_ok.mpr hs)

/-- What a slot and extension read off the stream spell. -/
theorem spells_of_distParts {inp : List Byte} {len : Nat} {r r' : Rc} {p : Nat × Nat × Nat}
    (h : distParts inp len r = .ok p r') {v : Nat} (hp : p = dxPartsOf v) :
    spells inp r (distanceCells len v) (distanceBits v) r' := by
  subst hp
  exact (distParts_eq_ok.mp h).2

/-- The stream of a distance from the placing encoder, read where `RC.INIT` leaves it. -/
def distState (len v : Nat) : State := startedOn (streamFor (distanceCells len v) (distanceBits v)) State.reset

theorem distState_spells {len v : Nat}
    (h : okIs (distParts (distState len v).input len (distState len v).rc) (fun p => p == dxPartsOf v) = true) :
    ∃ r, spells (distState len v).input (distState len v).rc (distanceCells len v) (distanceBits v) r := by
  obtain ⟨p, r, h1, h2⟩ := exists_ok h
  exact ⟨r, spells_of_distParts h1 (eq_of_beq h2)⟩

/-- The largest distance, the smallest and the largest invalid one, the end marker; 36 bytes left; none left. -/
theorem witness_DistDecReadsDistance :
    (∀ v, v ∈ [0x7FFFFFFF, 0x80000000, 0xFFFFFFFE, 0xFFFFFFFF] →
      ∃ r, spells (distState 273 v).input (distState 273 v).rc (distanceCells 273 v) (distanceBits v) r) ∧
    (rcState 5 6 (List.replicate 36 0)).rc.inPos + 36 ≤ (rcState 5 6 (List.replicate 36 0)).input.length ∧
    (∀ (v : Word) (r : Rc), ¬ spells [] (rcState 0x01000000 0 []).rc (distanceCells 2 v.toNat) (distanceBits v.toNat) r) := by
  refine ⟨?_, by decide, ?_⟩
  · simp only [List.mem_cons, List.not_mem_nil, or_false]
    rintro v (rfl | rfl | rfl | rfl) <;> exact distState_spells (by decide +kernel)
  · intro v r hs
    have hv := slotDistance_dxPartsOf v.isLt
    exact ne_ok (x := distParts [] 2 (rcState 0x01000000 0 []).rc) (by decide +kernel) (dxPartsOf v.toNat) r
      (distParts_eq_ok.mpr ⟨hv.1, hs⟩)

/-- Rows on both sides of every bound. -/
theorem witness_SlotRowsReturnDistance :
    [(Instr.dxSlot3).dxParts?, (Instr.dxSlot4 0).dxParts?, (Instr.dxSlot13 31).dxParts?, (Instr.dxSlot14 0 0).dxParts?,
      (Instr.dxSlot61 0x1FFFFFF 15).dxParts?, (Instr.dxSlot62 0 0).dxParts?, (Instr.dxSlot63 0x3FFFFFF 14).dxParts?,
      (Instr.dxSlot63 0x3FFFFFF 15).dxParts?] =
    [some (3, 0, 0), some (4, 0, 0), some (13, 31, 0), some (14, 0, 0), some (61, 0x1FFFFFF, 15), some (62, 0, 0),
      some (63, 0x3FFFFFF, 14), some (63, 0x3FFFFFF, 15)] := by decide +kernel

/-- The last place before the wrap, and the wrap. -/
theorem witness_OwPutWritesAtCursor :
    (131070 : Fin Config.windowCap).val + 1 < Config.windowCap ∧
    (131071 : Fin Config.windowCap).val + 1 = Config.windowCap := by decide +kernel

theorem witness_OwFlushDeliversPending :
    abc.ow.spos.val ≤ abc.ow.wpos.val ∧ State.reset.ow.spos.val ≤ State.reset.ow.wpos.val ∧
      State.reset.ow.wpos = State.reset.ow.spos := by decide

/-- The oldest byte of three; the oldest that a full window holds; one more in each case. -/
theorem witness_OwGetReadsBack :
    ((2#32).toNat < abc.ow.total ∧ (2#32).toNat < Config.windowCap) ∧
    ((131071#32).toNat < { abc.ow with total := 131073 : Ow }.total ∧ (131071#32).toNat < Config.windowCap) ∧
    abc.ow.total ≤ (3#32).toNat ∧ Config.windowCap ≤ (131072#32).toNat := by decide

/-- A run with the cursor on the last byte of `WIN`, after 131071 puts: the next put fills the window. -/
theorem lastByte : ∃ s : State, CanCopy 0 s ∧ s.ow.wpos.val + 1 = Config.windowCap ∧ s.ow.spos.val = 0 := by
  obtain ⟨h1, -⟩ := owPut_output (o := window []) ⟨Nat.le_refl _, rfl, fun d hd => absurd hd (Nat.not_lt_zero d)⟩ 0x61
  obtain ⟨o, -, h2, -, h3, h4⟩ := owCopy_output (d := 0) 131070 h1 (by decide) (by decide)
  have hw : (owPut 0x61 (window [])).wpos.val = 1 := by decide
  have h5 := h4.wpos
  have h6 := (h4.below (by rw [hw]; decide)).1
  have ht : (owPut 0x61 (window [])).total = 1 := by decide
  rw [hw] at h5
  rw [ht] at h3
  refine ⟨{ State.reset with ow := o, seq := { State.reset.seq with pos := 131071 } },
    ⟨h2, h3, (by decide : (0#32).toNat < 131071), by decide⟩, ?_, ?_⟩
  · show o.wpos.val + 1 = 131072
    rw [h5, show (1 + 131070) % Config.windowCap = 131071 by decide]
  · show o.spos.val = 0
    rw [h6]
    decide

theorem witness_OwCopyAppends :
    (abc.ow.HoldsOutput ∧ (2#32).toNat < abc.ow.total ∧ (2#32).toNat < Config.windowCap) ∧
    (∃ s : State, s.ow.HoldsOutput ∧ (0#32).toNat < s.ow.total ∧ (0#32).toNat < Config.windowCap ∧
      Config.windowCap ≤ s.ow.wpos.val + 1) ∧
    (1 ≤ 1 ∧ abc.ow.total ≤ (3#32).toNat) ∧ (1 ≤ 273 ∧ Config.windowCap ≤ (131072#32).toNat) :=
  ⟨⟨abc_holds, by decide, by decide⟩,
    lastByte.imp fun _ ⟨h, hw, _⟩ => ⟨h.window, lt_of_lt_of_eq h.below_pos h.total.symm, by decide, hw.ge⟩,
    by decide, by decide⟩

theorem witness_OverlappingCopyRepeats :
    ∃ t, abc.ow.HoldsOutput ∧ (0#32).toNat < abc.ow.total ∧ (0#32).toNat < Config.windowCap ∧
      exec (.owCopy 0 273) abc = .next t := by
  obtain ⟨t, h, -⟩ := exists_next (o := exec (.owCopy 0 273) abc) (p := fun _ => true) (by decide +kernel)
  exact ⟨t, abc_holds, by decide, by decide, h⟩

/-- A put that delivers nothing, and one that fills the window. -/
theorem witness_LiteralsAppendTheirByte :
    (abc.ow.HoldsOutput ∧ abc.ow.wpos.val + 1 < Config.windowCap) ∧
    ∃ s : State, s.ow.HoldsOutput ∧ Config.windowCap ≤ s.ow.wpos.val + 1 :=
  ⟨⟨abc_holds, by decide⟩, lastByte.imp fun _ h => ⟨h.1.window, h.2.1.ge⟩⟩

theorem witness_MatchCopies :
    (2 ≤ 2 ∧ 2 ≤ 273 ∧ 273 ≤ 273) ∧ CanCopy 0 abc ∧ CanCopy 2 abc ∧
    ∃ s : State, CanCopy 0 s ∧ Config.windowCap ≤ s.ow.wpos.val + 2 :=
  ⟨by decide, abc_canCopy (by decide), abc_canCopy (by decide), lastByte.imp fun _ h => ⟨h.1, by omega⟩⟩

theorem witness_ShortRepCopiesOneByte : CanCopy abc.seq.rep0 abc := abc_canCopy (by decide)

theorem witness_RepeatsCopyAndRotate :
    (2 ≤ 2 ∧ 273 ≤ 273) ∧ CanCopy abc.seq.rep0 abc ∧ CanCopy abc.seq.rep1 abc ∧ CanCopy abc.seq.rep2 abc ∧
      CanCopy abc.seq.rep3 abc :=
  ⟨by decide, abc_canCopy (by decide), abc_canCopy (by decide), abc_canCopy (by decide), abc_canCopy (by decide)⟩

theorem witness_EndMarkerEndsTheRun : abc.ow.HoldsOutput := abc_holds

/-- A distance equal to `POS`; equal to `DICT_SIZE_CHECK` far into the output; the ends of the invalid ones. -/
theorem witness_BadDistancesFault :
    (run1.seq.pos ≤ run1.seq.rep0.toNat ∧ run1.seq.pos ≤ run1.seq.rep1.toNat ∧ run1.seq.pos ≤ run1.seq.rep2.toNat ∧
      run1.seq.pos ≤ run1.seq.rep3.toNat) ∧
    ((0x7FFFFFFF#32).toNat < 2 ^ 31 ∧ Config.dictSizeCheck ≤ (0x7FFFFFFF#32).toNat) ∧
    (abc.seq.pos ≤ (3#32).toNat ∧ Config.dictSizeCheck ≤ (131072#32).toNat) ∧
    (2 ^ 31 ≤ (0x80000000#32).toNat ∧ (0x80000000#32) ≠ 0xFFFFFFFF) ∧
    (2 ^ 31 ≤ (0xFFFFFFFE#32).toNat ∧ (0xFFFFFFFE#32) ≠ 0xFFFFFFFF) := by decide

theorem witness_StateTable :
    ∃ t1 t2 t3 t4, abc.seq.state.toNat = 7 ∧
      (exec (.lit 0) abc = .next t1 ∧ t1.runState ≠ .fault) ∧
      (exec (.newMatch 2 0) abc = .next t2 ∧ t2.runState ≠ .fault) ∧
      (exec (.rep3 2) abc = .next t3 ∧ t3.runState ≠ .fault) ∧
      (exec .shortrep abc = .next t4 ∧ t4.runState ≠ .fault) := by
  obtain ⟨t1, h1, r1⟩ := exists_next (o := exec (.lit 0) abc) (p := fun t => t.runState != .fault) (by decide +kernel)
  obtain ⟨t2, h2, r2⟩ := exists_next (o := exec (.newMatch 2 0) abc) (p := fun t => t.runState != .fault)
    (by decide +kernel)
  obtain ⟨t3, h3, r3⟩ := exists_next (o := exec (.rep3 2) abc) (p := fun t => t.runState != .fault) (by decide +kernel)
  obtain ⟨t4, h4, r4⟩ := exists_next (o := exec .shortrep abc) (p := fun t => t.runState != .fault) (by decide +kernel)
  exact ⟨t1, t2, t3, t4, rfl, ⟨h1, by simpa using r1⟩, ⟨h2, by simpa using r2⟩, ⟨h3, by simpa using r3⟩,
    ⟨h4, by simpa using r4⟩⟩

/-- Three bytes; the empty frame; a frame with one bit wrong. -/
theorem witness_CfStripChecks :
    [(0x43 : Byte), 0xBE, 0xB7].length < 4 ∧
    (0x00#8) ++ (0x00#8) ++ (0x00#8) ++ (0x00#8) = crc32 [] ∧
    (0x01#8) ++ (0x00#8) ++ (0x00#8) ++ (0x00#8) ≠ crc32 [] := by decide +kernel

/-- The last bit of the shortest frame and the first of a longer one. -/
theorem witness_StripUndoesAttachAndSeesOneBit :
    (3 < (cfAttach []).length ∧ 7 < 8) ∧ (4 < (cfAttach [0x61]).length ∧ 0 < 8) := by decide +kernel

theorem witness_StartBeginsARun :
    State.reset.runState ≠ .run ∧
      { State.reset with presented := [0x00, 0x34, 0x19, 0x49, 0xEE] : State }.presented =
        0x00 :: 0x34 :: 0x19 :: 0x49 :: 0xEE :: [] := by decide

theorem witness_StartFaultsOrIsIgnored :
    (State.reset.runState ≠ .run ∧
      { State.reset with presented := [0x00, 0x34, 0x19, 0x49] : State }.presented.length < 5) ∧
    run1.runState = .run := by decide

theorem witness_StripOnlyAfterDone :
    { State.reset with runState := .done : State }.runState = .done ∧
    (∃ t, exec .strip { State.reset with runState := .done } = .next t) ∧ State.reset.runState ≠ .done :=
  ⟨rfl, ⟨_, rfl⟩, by decide⟩

/-- Each clause with its register number and value at the ends: 0 and 4 to `CMD`; 1, 4, 6, 23; 5 in and out of a run. -/
theorem witness_WritesTheHostMayMake :
    (∀ n v, (n, v) ∈ [(0, (0 : Word)), (0, 4), (1, 7), (4, 0), (6, 1), (23, 1), (5, 9)] →
      { run1 with events := [.write n v] : State }.events = .write n v :: []) ∧
    3 < (4#32).toNat ∧ run1.runState = .run ∧ State.reset.runState ≠ .run :=
  ⟨fun _ _ _ => rfl, by decide, rfl, by decide⟩

theorem witness_RegisterFileReads :
    State.reset.runState ≠ .run ∧ { State.reset with events := [.read 12] : State }.events = .read 12 :: [] := by
  decide

theorem witness_ReadsDuringARun :
    run1.runState = .run ∧ (∀ n, n ∈ [1, 5, 6, 18, 19, 22, 23] → { run1 with events := [.read n] : State }.events = .read n :: []) :=
  ⟨rfl, fun _ _ => rfl⟩

theorem witness_PresentingInputTouchesNothingElse :
    { State.reset with events := [.present p1] : State }.events = .present p1 :: [] := rfl

theorem witness_UnitInterfaceRunsTheInstruction :
    { State.reset with events := [.unit .rcNorm] : State }.events = .unit .rcNorm :: [] ∧
    (∃ r, spells [] { rcState 0xFFFFFFFF 0 [] with events := [.lenField .len 3] : State }.rc (lenCells .len 3 0)
      (lenBits 0) r) ∧
    ((0x7FFFFFFF#32).toNat < 2 ^ 31 ∧ ∃ r, spells { distState 273 0x7FFFFFFF with events := [.dxField 273] : State }.input
      (distState 273 0x7FFFFFFF).rc (distanceCells 273 0x7FFFFFFF) (distanceBits 0x7FFFFFFF) r) := by
  refine ⟨rfl, ?_, by decide, ?_⟩
  · obtain ⟨v, r, h, hv⟩ := exists_ok (x := lenDec [] .len 3 (rcState 0xFFFFFFFF 0 []).rc) (p := fun v => v == 0)
      (by decide +kernel)
    obtain rfl := eq_of_beq hv
    exact ⟨r, (lenDec_eq_ok.mp h).2⟩
  · exact distState_spells (by decide +kernel)

theorem witness_EveryStepKeepsTheInvariant : ∃ t, Inv run1 ∧ step run1 = .next t := by
  obtain ⟨t, h, -⟩ := exists_next (o := step run1) (p := fun _ => true) (by decide +kernel)
  exact ⟨t, run1_inv, h⟩

theorem witness_EveryStepKeepsMemoryCanonical :
    ∃ t, Memory.wf { abc with events := [.unit (.owPut 1)] } = true ∧
      step { abc with events := [.unit (.owPut 1)] } = .next t := by
  obtain ⟨t, h, -⟩ := exists_next (o := step { abc with events := [.unit (.owPut 1)] }) (p := fun _ => true)
    (by decide +kernel)
  exact ⟨t, by decide, h⟩

theorem witness_RunsNeverGetStuck : Inv starved := started_inv _ _ (by decide)

theorem witness_EveryRunEnds : ∃ t, Inv run1 ∧ run1.events = [] ∧ run1.runState = .run ∧ step run1 = .next t := by
  obtain ⟨t, h, -⟩ := exists_next (o := step run1) (p := fun _ => true) (by decide +kernel)
  exact ⟨t, run1_inv, rfl, rfl, h⟩

/-- An end by size, at once; an end by an `EOS` as the first symbol, with the size known and unknown. -/
theorem witness_EndedRunResults :
    (∃ t, Inv { starved with outSize := 0 } ∧ step { starved with outSize := 0 } = .next t ∧ t.runState = .done ∧
      t.endMarker = false) ∧
    (∀ size : Word, size = 0x7FFFFFFF ∨ size = 0x80000000 →
      ∃ t, Inv { startedOn (streamFor (placedCells (.eos 2)) (word [1, 0, 0, 0, 0, 0, 1, 1, 1, 1, 1, 1] ++
          List.replicate 30 true)) State.reset with outSize := size } ∧
        step { startedOn (streamFor (placedCells (.eos 2)) (word [1, 0, 0, 0, 0, 0, 1, 1, 1, 1, 1, 1] ++
          List.replicate 30 true)) State.reset with outSize := size } = .next t ∧
        t.runState = .done ∧ t.endMarker = true) := by
  constructor
  · obtain ⟨t, h, hp⟩ := exists_next (o := step { starved with outSize := 0 })
      (p := fun t => t.runState == .done && !t.endMarker) (by decide +kernel)
    simp only [Bool.and_eq_true, Bool.not_eq_true', beq_iff_eq] at hp
    exact ⟨t, started_inv _ _ (by decide), h, hp⟩
  · rintro size (rfl | rfl)
    all_goals
      refine (exists_next (p := fun t => t.runState == .done && t.endMarker) ?_).imp fun t h =>
        ⟨started_inv _ _ (by decide +kernel), h.1, ?_⟩
      · decide +kernel
      · simpa only [Bool.and_eq_true, beq_iff_eq] using h.2

/-- Two instances with the same `IN` and `OUT_SIZE` and different pasts. -/
theorem witness_RunIsAFunctionOfInAndOutSize :
    let s : State := { State.reset with presented := p1, outSize := 17 }
    let t : State := { abc with runState := .fault, cause := .dictBounds, presented := p1, outSize := 17 }
    s.runState ≠ .run ∧ t.runState ≠ .run ∧ s.presented = t.presented ∧ s.outSize = t.outSize := by decide

end Sys2Proof.Tests
end

section
/-! PROOFS. What the fetch of a symbol answers: a well-formed symbol, read off decisions that the stream spells
(spec/46_lzma_sequencer.md R198). -/

namespace Sys2Proof.Machine

/-! ## A fetched symbol and the decisions it was read from -/

/-- Some decisions of the stream lead the range decoder from `r` to `r'`. -/
def Spelled (inp : List Byte) (r r' : Rc) : Prop := ∃ cells ds, spells inp r cells ds r'

theorem spells_length {inp : List Byte} : ∀ {cells : List (Option Nat)} {ds : List Bool} {r r' : Rc},
    spells inp r cells ds r' → cells.length = ds.length
  | [], [], _, _, _ => rfl
  | _ :: _, _ :: _, _, _, ⟨_, _, h⟩ => congrArg (· + 1) (spells_length h)
  | [], _ :: _, _, _, h => h.elim
  | _ :: _, [], _, _, h => h.elim

theorem Spelled.refl (inp : List Byte) (r : Rc) : Spelled inp r r := ⟨[], [], rfl⟩

theorem Spelled.trans {inp : List Byte} {r m r' : Rc} (h : Spelled inp r m) (h' : Spelled inp m r') :
    Spelled inp r r' := by
  obtain ⟨c, d, hc⟩ := h
  obtain ⟨c', d', hc'⟩ := h'
  exact ⟨c ++ c', d ++ d', (spells_append (spells_length hc)).mpr ⟨m, hc, hc'⟩⟩

theorem spelled_rcBit {inp : List Byte} {a : Nat} {b : Bool} {r r' : Rc} (h : rcBit inp a r = .ok b r') :
    Spelled inp r r' := ⟨[some a], [b], r', h, rfl⟩

/-- `i` is a symbol of R94 with operands in their ranges, read off decisions from `r` to `r'`. -/
structure Fetched (inp : List Byte) (r : Rc) (i : Instr) (r' : Rc) : Prop where
  symbol : isSymbol i = true
  wellFormed : i.wellFormed = true
  spelled : Spelled inp r r'

theorem Fetched.after {inp : List Byte} {r m r' : Rc} {i : Instr} (h : Fetched inp m i r') (hm : Spelled inp r m) :
    Fetched inp r i r' := ⟨h.symbol, h.wellFormed, hm.trans h.spelled⟩

/-- A literal takes the eight decisions of its byte, plain or against the match byte (R200, R201). -/
theorem fetchLiteral_ok {inp : List Byte} {q : Seq} {o : Ow} {r r' : Rc} {i : Instr}
    (h : fetchLiteral inp q o r = .ok i r') : Fetched inp r i r' := by
  unfold fetchLiteral at h
  split at h
  · simp only [Res.bind_eq_ok, litNormal_eq_ok, Res.ok.injEq] at h
    obtain ⟨b, _, hs, rfl, rfl⟩ := h
    exact ⟨rfl, rfl, _, _, hs⟩
  · split at h
    · simp only [Res.bind_eq_ok, litMatched_eq_ok, Res.ok.injEq] at h
      obtain ⟨b, _, hs, rfl, rfl⟩ := h
      exact ⟨rfl, rfl, _, _, hs⟩
    · cases h
    · cases h

/-- A decoded length is a match length of R99. -/
theorem matchLenOk_of_le {v : Nat} (h : v ≤ 271) : matchLenOk (Config.matchMinLen + v) = true := by
  simp only [matchLenOk, Config.matchMinLen, Bool.and_eq_true, decide_eq_true_eq]; omega

/-- A new match takes the decisions of its length and of its distance; the distance of R103 makes it an `EOS`. -/
theorem fetchMatch_ok {inp : List Byte} {ps : Fin 4} {r r' : Rc} {i : Instr}
    (h : fetchMatch inp ps r = .ok i r') : Fetched inp r i r' := by
  simp only [fetchMatch, Res.bind_eq_ok, lenDec_eq_ok, distParts_eq_ok, Res.ok.injEq] at h
  obtain ⟨v, m, ⟨hv, hlen⟩, p, _, ⟨_, hdist⟩, rfl, rfl⟩ := h
  have hs : Spelled inp r _ := Spelled.trans ⟨_, _, hlen⟩ ⟨_, _, hdist⟩
  have hl := matchLenOk_of_le hv
  split
  · exact ⟨rfl, hl, hs⟩
  · next hd => exact ⟨rfl, by simp [Instr.wellFormed, hl, hd], hs⟩

/-- A repeat takes the decisions of its length (R204 to R207). -/
theorem fetchRep_ok {inp : List Byte} {ps : Fin 4} {make : Nat → Instr} {r r' : Rc} {i : Instr}
    (hm : ∀ len, matchLenOk len = true → isSymbol (make len) = true ∧ (make len).wellFormed = true)
    (h : fetchRep inp ps make r = .ok i r') : Fetched inp r i r' := by
  simp only [fetchRep, Res.bind_eq_ok, lenDec_eq_ok, Res.ok.injEq] at h
  obtain ⟨v, _, ⟨hv, hlen⟩, rfl, rfl⟩ := h
  obtain ⟨h1, h2⟩ := hm _ (matchLenOk_of_le hv)
  exact ⟨h1, h2, _, _, hlen⟩

/-- The repeats of R198 below the decision `isRep`. -/
theorem fetchRepeat_ok {inp : List Byte} {st : BitVec 4} {ps : Fin 4} {r r' : Rc} {i : Instr}
    (h : fetchRepeat inp st ps r = .ok i r') : Fetched inp r i r' := by
  obtain ⟨g0, r0, h0, h⟩ := Res.bind_eq_ok.mp h
  refine Fetched.after ?_ (spelled_rcBit h0)
  cases g0
  case false =>
    obtain ⟨long, r1, h1, h⟩ := Res.bind_eq_ok.mp h
    cases long
    case false => cases h; exact ⟨rfl, rfl, spelled_rcBit h1⟩
    case true => exact (fetchRep_ok (make := .rep0) (fun _ hl => ⟨rfl, hl⟩) h).after (spelled_rcBit h1)
  case true =>
    obtain ⟨g1, r1, h1, h⟩ := Res.bind_eq_ok.mp h
    refine Fetched.after ?_ (spelled_rcBit h1)
    cases g1
    case false => exact fetchRep_ok (make := .rep1) (fun _ hl => ⟨rfl, hl⟩) h
    case true =>
      obtain ⟨g2, r2, h2, h⟩ := Res.bind_eq_ok.mp h
      refine Fetched.after ?_ (spelled_rcBit h2)
      cases g2
      case false => exact fetchRep_ok (make := .rep2) (fun _ hl => ⟨rfl, hl⟩) h
      case true => exact fetchRep_ok (make := .rep3) (fun _ hl => ⟨rfl, hl⟩) h

/-- Whatever a fetch answers is a well-formed symbol, read off decisions of the stream (R94, R115, R198). -/
theorem fetchSymbolFrom_ok {inp : List Byte} {q : Seq} {o : Ow} {r r' : Rc} {i : Instr}
    (h : fetchSymbolFrom inp q o r = .ok i r') : Fetched inp r i r' := by
  obtain ⟨m, r1, h1, h⟩ := Res.bind_eq_ok.mp h
  refine Fetched.after ?_ (spelled_rcBit h1)
  cases m
  case false => exact fetchLiteral_ok h
  case true =>
    obtain ⟨rep, r2, h2, h⟩ := Res.bind_eq_ok.mp h
    refine Fetched.after ?_ (spelled_rcBit h2)
    cases rep
    case false => exact fetchMatch_ok h
    case true => exact fetchRepeat_ok h

/-- What the fetch of a symbol leaves of a range decoder in order (R27, R128). -/
theorem Spelled.rcOk {inp : List Byte} {r r' : Rc} (h : Spelled inp r r') (hr : RcOk r) (hi : r.inPos ≤ inp.length) :
    RcOk r' ∧ r.inPos ≤ r'.inPos ∧ r'.inPos ≤ inp.length := by
  obtain ⟨cells, ds, hs⟩ := h
  obtain ⟨hok, hle, hlen, -⟩ := spells_ok hr hs
  exact ⟨hok, hle, hlen hi⟩

end Sys2Proof.Machine
end

section
/-! PROOFS. The invariant of LZD: what a symbol, the engine and the host can do, and that each keeps it
(spec/10_state.md; O54, O55). -/

namespace Sys2Proof.Machine

/-! ## What a symbol can do -/

theorem matchLenOk_le {len : Nat} (h : matchLenOk len = true) : len ≤ 273 := by
  simp only [matchLenOk, Bool.and_eq_true, decide_eq_true_eq] at h; omega

/-- After a literal `STATE` is a char state (R199). -/
theorem afterLiteral_lt : ∀ {st : BitVec 4}, st.toNat < 12 → (afterLiteral st).toNat < 7 := by decide

theorem afterMatch_lt : ∀ st : BitVec 4, (afterMatch st).toNat < 12 := by decide

theorem afterLongRep_lt : ∀ st : BitVec 4, (afterLongRep st).toNat < 12 := by decide

theorem afterShortRep_lt : ∀ st : BitVec 4, (afterShortRep st).toNat < 12 := by decide

/-- The four meanings of a symbol (R200 to R208): a literal, the end of the run, a copy of at most 273 bytes with the
registers `q`, or an invalid distance. -/
inductive SymbolDoes (s : State) (o : Host.Outcome State Fault Refusal) : Prop where
  | literal (b : Byte) (h : o = .next (putLiteral b s))
  | ends (h : o = .next (endByMarker s))
  | copies (len : Nat) (q : Seq) (h : o = copyOutcome len q s) (hlen : len ≤ 273) (hpos : q.pos = s.seq.pos)
      (hstate : q.state.toNat < 12)
  | invalid (q : Seq) (h : o = .next (takeFault .invalidDistance { s with seq := q }))

theorem execNewMatch_does {len : Nat} (hlen : len ≤ 273) (dist : Word) (s : State) :
    SymbolDoes s (execNewMatch len dist s) := by
  unfold execNewMatch
  split
  · exact .ends rfl
  · split
    · exact .copies len _ rfl hlen rfl (afterMatch_lt _)
    · exact .invalid _ rfl

theorem exec_symbol_does {i : Instr} (hi : isSymbol i = true) (hw : i.wellFormed = true) (s : State) :
    SymbolDoes s (exec i s) := by
  cases i
  case lit b => exact .literal b rfl
  case litm b => exact .literal b rfl
  case newMatch len dist =>
    simp only [Instr.wellFormed, Bool.and_eq_true] at hw
    exact execNewMatch_does (matchLenOk_le hw.1) dist s
  case eos => exact .ends rfl
  case shortrep => exact .copies 1 _ rfl (by decide) rfl (afterShortRep_lt _)
  case rep0 len => exact .copies len _ rfl (matchLenOk_le hw) rfl (afterLongRep_lt _)
  case rep1 len => exact .copies len _ rfl (matchLenOk_le hw) rfl (afterLongRep_lt _)
  case rep2 len => exact .copies len _ rfl (matchLenOk_le hw) rfl (afterLongRep_lt _)
  case rep3 len => exact .copies len _ rfl (matchLenOk_le hw) rfl (afterLongRep_lt _)
  all_goals cases hi

/-! ## The canonical form of `WIN` over a copy -/

theorem Ow.wf_validateAndCopy {len : Nat} {q q' : Seq} {o o' : Ow} (h : o.wf = true)
    (hv : validateAndCopy len q o = .ok q' o') : o'.wf = true := by
  unfold validateAndCopy at hv
  split at hv
  · cases hv
  · obtain ⟨u, m, hc, hv⟩ := Res.bind_eq_ok.mp hv
    obtain ⟨b, m', hg, hv⟩ := Res.bind_eq_ok.mp hv
    rw [owGet_eq] at hg
    split at hg
    · cases hg; cases hv; exact Ow.wf_owCopy _ _ h hc
    · cases hg

/-! ## Putting bytes keeps what holds of the window between symbols -/

/-- With the flush mark at 0 and whole laps in `SINK`, `n` puts leave both so (R46, R171, R287). -/
theorem Ow.Puts.delivered {n : Nat} {o o' : Ow} (hp : o.Puts n o') (h : o.HoldsOutput) (h' : o'.HoldsOutput)
    (ht : o'.total = o.total + n) (h0 : o.spos.val = 0) (hl : o.sink.length % Config.windowCap = 0) :
    o'.spos.val = 0 ∧ o'.sink.length % Config.windowCap = 0 := by
  by_cases hc : o.wpos.val + n < Config.windowCap
  · obtain ⟨hs, hk⟩ := hp.below hc
    rw [hs, hk]; exact ⟨h0, hl⟩
  · have h0' := (hp.wrapped (by omega)).1
    have hk := (h.sink_eq h0).2
    have hk' := (h'.sink_eq h0').2
    have hw := hp.wpos
    simp only [Config.windowCap] at *
    exact ⟨h0', by omega⟩

/-! ## The parts of the invariant -/

theorem memory_wf_iff {s : State} : Memory.wf s = true ↔ s.rc.pmem.wf = true ∧ s.ow.wf = true := by
  simp [Memory.wf]

theorem freeOw_wf (draw : Nat) : (freeOw draw).wf = true := by simp [Ow.wf, freeOw, risingFrom]

theorem memory_wf_unspecify (s : State) : Memory.wf (unspecify s) = true :=
  memory_wf_iff.mpr ⟨Pmem.wf_nil _, freeOw_wf _⟩

/-- Every cell 1024 and `RANGE` at least 2^24: the range decoder is in order (R30, R121, R242). -/
theorem rcOk_init {r : Rc} (hp : r.pmem = { base := .init, cells := [] }) (hr : 2 ^ 24 ≤ r.range.toNat) : RcOk r := by
  refine ⟨by rw [hp]; exact Pmem.wf_nil _, hr, fun a => ?_⟩
  have : pmemRead r.pmem a = Config.probInit := by rw [hp]; rfl
  rw [this]; decide

/-- Nothing but what the outside world and the model's own fields hold differs: the invariant does not look there. -/
theorem Inv.outside {s : State} (h : Inv s) (presented : List Byte) (hostData : Word) (boundaries : List Boundary)
    (draws : Nat) {events : List Event} (he : events.all Event.ofHost = true) :
    Inv { s with presented := presented, hostData := hostData, boundaries := boundaries, draws := draws
                 events := events } where
  memory := h.memory
  host := he
  status := h.status
  run hr := by
    obtain ⟨rc, inPos, lzState, window, delivered, total, rep0, prev, overshoot⟩ := h.run hr
    exact ⟨rc, inPos, lzState, window, delivered, total, rep0, prev, overshoot⟩
  done hd := by
    obtain ⟨window, flushed, total, lzState⟩ := h.done hd
    exact ⟨window, flushed, total, lzState⟩

/-- A fault of a run keeps the invariant: R263 leaves nothing of the decoder to hold. -/
theorem inv_takeFault {c : Cause} {s : State} (hc : c = .truncatedInput ∨ c = .invalidDistance ∨ c = .dictBounds)
    (he : hostOnly s = true) (hm : s.endMarker = false) (hcf : s.cf = cfCleared) : Inv (takeFault c s) where
  memory := memory_wf_unspecify _
  host := he
  status := ⟨hc, hm, hcf⟩
  run h := by cases h
  done h := by cases h

/-- The end of a run that stands for its output keeps the invariant: the last flush delivers all (R211). -/
theorem inv_endRun {s : State} (hm : Memory.wf s = true) (he : hostOnly s = true) (hc : s.cause = .none)
    (hw : s.ow.HoldsOutput) (ht : s.ow.total = s.seq.pos) (hst : s.seq.state.toNat < 12) : Inv (endRun s) where
  memory := by
    obtain ⟨hp, ho⟩ := memory_wf_iff.mp hm
    exact memory_wf_iff.mpr ⟨hp, Ow.wf_owFlush ho⟩
  host := he
  status := hc
  run h := by cases h
  done _ := by
    obtain ⟨hh, -, -, hs⟩ := owFlush_output hw
    obtain ⟨-, -, -, -, htot, -⟩ := owFlush_fields s.ow
    exact ⟨hh, hs, htot.trans ht, hst⟩

/-- `RESET` leaves a state of the invariant, whatever the run state (R241). -/
theorem inv_resetCommand {s : State} (he : hostOnly s = true) : Inv (resetCommand s) where
  memory := memory_wf_unspecify _
  host := he
  status := ⟨rfl, rfl, rfl⟩
  run h := by cases h
  done h := by cases h

/-- The window at the start of a run stands for the empty output (R242). -/
theorem holdsOutput_empty {o : Ow} (hw : o.wpos.val = 0) (hs : o.spos.val = 0) (ht : o.total = 0) (hk : o.sink = []) :
    o.HoldsOutput ∧ o.output = [] := by
  have ho : o.output = [] := by simp [Ow.output, winBytes, hw, hs, hk]
  exact ⟨⟨by omega, by rw [ho, ht]; rfl, by omega⟩, ho⟩

/-! ## Every step keeps the invariant -/

theorem statusOk_of_run {s : State} (h : statusOk s) (hr : s.runState = .run) :
    s.cause = .none ∧ s.endMarker = false ∧ s.cf = cfCleared := by
  simpa [statusOk, hr] using h

/-- The invariant of a state in a run is what holds of the run, of the memory, of the events and of the status. -/
theorem inv_of_run {s : State} (hr : s.runState = .run) (run : RunOk s) (how : s.ow.wf = true)
    (he : hostOnly s = true) (hs : s.cause = .none ∧ s.endMarker = false ∧ s.cf = cfCleared) : Inv s where
  memory := memory_wf_iff.mpr ⟨run.rc.wf, how⟩
  host := he
  status := by simpa [statusOk, hr] using hs
  run _ := run
  done hd := by rw [hr] at hd; cases hd

theorem sizeReached_eq_false {s : State} (h : sizeReached s = false) (hk : s.outSize.toNat < 2 ^ 31) :
    s.seq.pos < s.outSize.toNat := by
  simp only [sizeReached, Bool.and_eq_false_iff, decide_eq_false_iff_not] at h; omega

/-- A fetch leaves a run in order: it moves the range decoder alone and records the boundary (R196, R198). -/
theorem RunOk.fetched {s : State} (h : RunOk s) {i : Instr} {r : Rc} (hf : fetchSymbol s = .ok i r) :
    RunOk { passBoundary s with rc := r } := by
  obtain ⟨rc, ⟨h5, hin⟩, lzState, window, delivered, total, rep0, prev, overshoot⟩ := h
  obtain ⟨hok, hle, hlen⟩ := (fetchSymbolFrom_ok hf).spelled.rcOk rc hin
  exact ⟨hok, ⟨h5.trans hle, hlen⟩, lzState, window, delivered, total, rep0, prev, overshoot⟩

/-- Where the declared size is not reached, up to 273 bytes put into the window with registers that follow them leave
the run in order; the size is then overshot by at most 272 (R210). -/
theorem RunOk.appends {s : State} (h : RunOk s) (hsize : sizeReached s = false) {n : Nat} (hn : n ≤ 273) {o : Ow}
    {q : Seq} (hh : o.HoldsOutput) (htot : o.total = s.ow.total + n) (hp : s.ow.Puts n o)
    (hpos : q.pos = s.seq.pos + n) (hst : q.state.toNat < 12) (hprev : q.prev = o.output.getLast?.getD 0)
    (hrep : 7 ≤ q.state.toNat → q.rep0.toNat < q.pos ∧ q.rep0.toNat < Config.dictSizeCheck) :
    RunOk { s with ow := o, seq := q } where
  rc := h.rc
  inPos := h.inPos
  lzState := hst
  window := hh
  delivered := hp.delivered h.window hh htot h.delivered.1 h.delivered.2
  total := by rw [htot, hpos, h.total]
  rep0 := hrep
  prev := hprev
  overshoot hk := by
    have := sizeReached_eq_false hsize hk
    change q.pos ≤ s.outSize.toNat + 272; omega

/-- A literal leaves a run in order (R200, R201). -/
theorem RunOk.putLiteral {s : State} (h : RunOk s) (hsize : sizeReached s = false) (b : Byte) :
    RunOk (putLiteral b s) := by
  obtain ⟨hh, hout⟩ := owPut_output h.window b
  have hst := afterLiteral_lt h.lzState
  have htot : (owPut b s.ow).total = s.ow.total + 1 := by
    rw [← hh.length_output, hout, List.length_append, h.window.length_output]; rfl
  refine h.appends hsize (n := 1) (by decide) hh htot (owPut_puts h.window b) rfl ?_ ?_ ?_
  · change (afterLiteral s.seq.state).toNat < 12; omega
  · rw [hout, List.getLast?_concat]; rfl
  · intro (h7 : 7 ≤ (afterLiteral s.seq.state).toNat); omega

/-- A copy tail in a run in order faults with `DICT_BOUNDS`, or leaves the run in order and `WIN` canonical (R209). -/
theorem copyOutcome_cases {s : State} (h : RunOk s) (how : s.ow.wf = true) (hsize : sizeReached s = false) {len : Nat}
    {q : Seq} (hlen : len ≤ 273) (hpos : q.pos = s.seq.pos) (hst : q.state.toNat < 12) :
    (∃ q' o', copyOutcome len q s = .next { s with seq := q', ow := o' } ∧
      RunOk { s with seq := q', ow := o' } ∧ o'.wf = true) ∨
    ∃ o', copyOutcome len q s = .next (takeFault .dictBounds { s with seq := q, ow := o' }) := by
  unfold copyOutcome
  rcases validateAndCopy_cases (len := len) h.window (h.total.trans hpos.symm) with
    ⟨hd, hdict, o', hv, hh, hout, htot, hp, -⟩ | ⟨-, hv⟩
  · refine Or.inl ⟨_, o', by rw [hv], ?_, Ow.wf_validateAndCopy how hv⟩
    refine h.appends hsize hlen hh htot hp (by rw [hpos]) hst (by rw [hout]) fun _ => ⟨?_, hdict⟩
    change q.rep0.toNat < q.pos + len; omega
  · exact Or.inr ⟨_, by rw [hv]⟩

/-- The meaning of a symbol keeps the invariant, where the declared size was not reached before it. -/
theorem inv_exec_symbol {s t : State} (h : Inv s) (hr : s.runState = .run) (hsize : sizeReached s = false) {i : Instr}
    (hi : isSymbol i = true) (hw : i.wellFormed = true) (ht : exec i s = .next t) : Inv t := by
  have run := h.run hr
  obtain ⟨hc, hm, hcf⟩ := statusOk_of_run h.status hr
  have how := (memory_wf_iff.mp h.memory).2
  cases exec_symbol_does hi hw s with
  | literal b hb =>
    obtain rfl := Host.Outcome.next.inj (hb.symm.trans ht)
    exact inv_of_run hr (run.putLiteral hsize b) (Ow.wf_owPut how b) h.host ⟨hc, hm, hcf⟩
  | ends he =>
    obtain rfl := Host.Outcome.next.inj (he.symm.trans ht)
    exact inv_endRun h.memory h.host hc run.window run.total (afterMatch_lt _)
  | copies len q hq hlen hpos hst =>
    rcases copyOutcome_cases run how hsize hlen hpos hst with ⟨q', o', ho, run', how'⟩ | ⟨o', ho⟩
    · obtain rfl := Host.Outcome.next.inj ((hq.trans ho).symm.trans ht)
      exact inv_of_run hr run' how' h.host ⟨hc, hm, hcf⟩
    · obtain rfl := Host.Outcome.next.inj ((hq.trans ho).symm.trans ht)
      exact inv_takeFault (Or.inr (Or.inr rfl)) h.host hm hcf
  | invalid q hq =>
    obtain rfl := Host.Outcome.next.inj (hq.symm.trans ht)
    exact inv_takeFault (Or.inr (Or.inl rfl)) h.host hm hcf

/-- In a run in order the fetch completes or finds `IN` exhausted (R252, R255, R256). -/
theorem answers_fetchSymbol {s : State} (h : RunOk s) : Answers s.input (fetchSymbol s) :=
  answers_fetchSymbolFrom h.rc h.inPos.2 h.lzState (by rw [h.total]; exact h.rep0)

/-- The engine's turn keeps the invariant: it ends the run, runs one symbol, faults, or rests (R197). -/
theorem inv_engineStep {s t : State} (h : Inv s) (ht : engineStep s = .next t) : Inv t := by
  unfold engineStep at ht
  split at ht
  · next hr =>
    have run := h.run hr
    obtain ⟨hc, hm, hcf⟩ := statusOk_of_run h.status hr
    split at ht
    · cases ht
      exact inv_endRun h.memory h.host hc run.window run.total run.lzState
    · next hsize =>
      rcases answers_fetchSymbol run with ⟨i, r, hf, -⟩ | ⟨r, hf⟩
      · rw [hf] at ht
        have fetched := fetchSymbolFrom_ok hf
        have h' : Inv { passBoundary s with rc := r } :=
          inv_of_run hr (run.fetched hf) (memory_wf_iff.mp h.memory).2 h.host ⟨hc, hm, hcf⟩
        exact inv_exec_symbol h' hr (Bool.eq_false_iff.mpr hsize) fetched.symbol fetched.wellFormed ht
      · rw [hf] at ht
        cases ht
        exact inv_takeFault (Or.inl rfl) h.host hm hcf
  · cases ht; exact h

/-- `START` outside a run begins one in order, or faults for want of five bytes (R242). -/
theorem inv_execStart {s t : State} (h : Inv s) (ht : execStart s = .next t) : Inv t := by
  unfold execStart at ht
  split at ht
  · cases ht; exact h
  · rcases rcInit_cases (initPhase s).input (initPhase s).rc with ⟨h5, hi⟩ | ⟨-, m, hi⟩
    · rw [hi] at ht
      cases ht
      obtain ⟨hh, hout⟩ := holdsOutput_empty (o := (initPhase s).ow) rfl rfl rfl rfl
      refine inv_of_run rfl ?_ (memory_wf_iff.mp h.memory).2 h.host ⟨rfl, rfl, rfl⟩
      exact { rc := rcOk_init rfl (show 2 ^ 24 ≤ (0xFFFFFFFF#32).toNat by decide)
              inPos := ⟨by simp, by simpa using h5⟩
              lzState := show (0#4).toNat < 12 by decide
              window := hh
              delivered := ⟨rfl, rfl⟩
              total := rfl
              rep0 := fun (h7 : 7 ≤ (0#4).toNat) => absurd h7 (by decide)
              prev := by rw [show Ow.output _ = [] from hout]; rfl
              overshoot := fun _ => Nat.zero_le _ }
    · rw [hi] at ht
      cases ht
      exact inv_takeFault (Or.inl rfl) h.host rfl rfl

/-- `STRIP` sets the framer's registers, after a run that did not fault, and nothing else (R243). -/
theorem inv_execStrip {s t : State} (h : Inv s) (ht : execStrip s = .next t) : Inv t := by
  unfold execStrip at ht
  split at ht
  · next hd =>
    cases ht
    obtain ⟨window, flushed, total, lzState⟩ := h.done hd
    have hc : s.cause = .none := by simpa [statusOk, hd] using h.status
    exact { memory := h.memory
            host := h.host
            status := by simpa [statusOk, hd] using hc
            run := fun hr => absurd (hd.symm.trans hr) (by decide)
            done := fun _ => ⟨window, flushed, total, lzState⟩ }
  · cases ht; exact h

/-- `OUT_SIZE` outside a run is of no account to the invariant. -/
theorem inv_setOutSize {s : State} (h : Inv s) (hr : s.runState ≠ .run) (v : Word) : Inv { s with outSize := v } where
  memory := h.memory
  host := h.host
  status := h.status
  run hr' := absurd hr' hr
  done hd := by
    obtain ⟨window, flushed, total, lzState⟩ := h.done hd
    exact ⟨window, flushed, total, lzState⟩

/-- What `decodeCommand` reads is one of the three commands (R240). -/
theorem decodeCommand_ok {v : Word} {i : Instr} (h : decodeCommand v = .ok i) :
    i = .reset ∨ i = .start ∨ i = .strip := by
  unfold decodeCommand at h
  split at h
  · cases h; exact Or.inl rfl
  · split at h
    · cases h; exact Or.inr (Or.inl rfl)
    · split at h
      · cases h; exact Or.inr (Or.inr rfl)
      · cases h

/-- Whatever the host writes, the invariant stays (R43, R240, R244). -/
theorem inv_hostWrite {s t : State} (h : Inv s) {n : Nat} {v : Word} (ht : hostWrite n v s = .next t) : Inv t := by
  unfold hostWrite at ht
  split at ht
  · split at ht
    · next i hi =>
      rcases decodeCommand_ok hi with rfl | rfl | rfl
      · cases ht; exact inv_resetCommand h.host
      · exact inv_execStart h ht
      · exact inv_execStrip h ht
    · cases ht; exact h
  · split at ht
    · cases ht; exact h
    · next hr => cases ht; exact inv_setOutSize h hr v
  · cases ht; exact h

/-- An event of the host keeps the invariant. -/
theorem inv_handle {s t : State} (h : Inv s) {e : Event} (he : e.ofHost = true) (ht : handle e s = .next t) :
    Inv t := by
  cases e
  case engine => exact inv_engineStep h ht
  case write n v => exact inv_hostWrite h ht
  case read n => cases ht; exact h.outside _ _ _ _ h.host
  case present bytes => cases ht; exact h.outside _ _ _ _ h.host
  all_goals cases he

/-- Settles O55: the oldest pending event is the host's, and with none pending the engine has its turn. -/
theorem everyStepKeepsTheInvariant : Obligations.EveryStepKeepsTheInvariant := by
  intro s t h ht
  unfold step nextStep at ht
  split at ht
  · exact inv_engineStep h ht
  · next e rest hes =>
    have hall : (e :: rest).all Event.ofHost = true := hes ▸ h.host
    obtain ⟨he, hrest⟩ := (Bool.and_eq_true _ _).mp (List.all_cons ▸ hall)
    exact inv_handle (h.outside _ _ _ _ hrest) he ht

/-- Settles O54: after power-on nothing runs, nothing pends and no cell or byte is listed. -/
theorem invariantHoldsAtReset : Obligations.InvariantHoldsAtReset where
  memory := State.reset_memory_wf
  host := rfl
  status := ⟨rfl, rfl, rfl⟩
  run h := by cases h
  done h := by cases h

end Sys2Proof.Machine
end

section
/-! PROOFS. The register file as the host reads and writes it (spec/10_state.md R43; O48, O49, O50, O53). -/

namespace Sys2Proof.Machine

/-! ## The words of the register file (R43) -/

theorem statusWord_eq (s : State) :
    statusWord s = BitVec.ofNat 32 (s.runState.code + 4 * s.endMarker.toNat + 16 * s.cf.status.code) := by
  rw [statusWord, Nat.mul_comm 4, Nat.mul_comm 16]

theorem lzStateWord_eq (q : Seq) : lzStateWord q = (0#16 ++ q.prev ++ 0#4 ++ q.state : BitVec 32) := by
  have hp := q.prev.isLt
  have hs := q.state.isLt
  apply BitVec.eq_of_toNat_eq
  simp only [lzStateWord, BitVec.toNat_append, BitVec.toNat_ofNat]
  rw [← Nat.shiftLeft_add_eq_or_of_lt hs, Nat.shiftLeft_eq]
  simp [Nat.shiftLeft_eq]
  omega

theorem counterHi_eq (n : Nat) : counterHi n = BitVec.ofNat 32 (n >>> 32) := by
  rw [counterHi, Nat.shiftRight_eq_div_pow]

/-- The table of R43, register by register, with the moving registers as they stand at the boundary `b`. -/
def registerTable (s : State) (b : Boundary) (n : Nat) : Word :=
  match n with
  | 0 => 0
  | 1 => BitVec.ofNat 32 (s.runState.code + 4 * s.endMarker.toNat + 16 * s.cf.status.code)
  | 2 => BitVec.ofNat 32 s.cause.code
  | 3 => 0x203
  | 4 => 0x20000
  | 5 => s.outSize
  | 6 => BitVec.ofNat 32 b.seq.pos
  | 7 => BitVec.ofNat 32 (b.seq.pos >>> 32)
  | 8 => BitVec.ofNat 32 b.inPos
  | 9 => BitVec.ofNat 32 (b.inPos >>> 32)
  | 10 => b.range
  | 11 => b.code
  | 12 => (0#16 ++ b.seq.prev ++ 0#4 ++ b.seq.state : BitVec 32)
  | 13 => b.seq.rep0
  | 14 => b.seq.rep1
  | 15 => b.seq.rep2
  | 16 => b.seq.rep3
  | 17 => BitVec.ofNat 32 b.sinkLen
  | 18 => BitVec.ofNat 32 (b.sinkLen >>> 32)
  | 19 => s.cf.stored
  | 20 => s.cf.computed
  | 21 => BitVec.ofNat 32 s.cf.payload.length
  | 22 => BitVec.ofNat 32 (s.cf.payload.length >>> 32)
  | _ => 0

/-- The host reads the table of R43 at the boundary the read sees. -/
theorem regRead_eq_registerTable (s : State) : ∀ n, regRead s n = registerTable s (boundaryRead s) n
  | 1 => statusWord_eq s
  | 7 | 9 | 18 | 22 => counterHi_eq _
  | 12 => lzStateWord_eq _
  | 0 | 2 | 3 | 4 | 5 | 6 | 8 | 10 | 11 | 13 | 14 | 15 | 16 | 17 | 19 | 20 | 21 => rfl
  | _ + 23 => rfl

theorem boundaryRead_of_not_run {s : State} (h : s.runState ≠ .run) : boundaryRead s = boundaryNow s := if_neg h

/-- During a run a read sees the present boundary or a recorded one (R78). -/
theorem boundaryRead_of_run {s : State} (h : s.runState = .run) :
    boundaryRead s = boundaryNow s ∨ boundaryRead s ∈ s.boundaries := by
  have hlt : Config.freeChoice s.draws % (s.boundaries.length + 1) < (boundaryNow s :: s.boundaries).length :=
    Nat.mod_lt _ (Nat.succ_pos _)
  rw [boundaryRead, if_pos h, List.getD_eq_getElem _ _ hlt]
  exact List.mem_cons.mp (List.getElem_mem _)

/-- A pending read gives the register of the table and draws once more; it is then no longer pending (R70). -/
theorem step_read {s : State} {n : Nat} {es : List Event} (h : s.events = .read n :: es) :
    step s = .next { s with events := es, draws := s.draws + 1, hostData := registerTable s (boundaryRead s) n } := by
  unfold step nextStep
  rw [h]
  change Host.Outcome.next (hostRead n { s with events := es }) = _
  rw [hostRead, regRead_eq_registerTable]
  rfl

/-- Settles O49: outside a run the boundary read is the present one. -/
theorem registerFileReads : Obligations.RegisterFileReads := by
  refine ⟨rfl, rfl, rfl, fun s n es hr he => ?_⟩
  rw [step_read he, boundaryRead_of_not_run hr]
  rfl

/-- Settles O50: one boundary serves every register, the one the read sees. -/
theorem readsDuringARun : Obligations.ReadsDuringARun := by
  intro s n es hr he
  refine ⟨boundaryRead s, boundaryRead_of_run hr, ?_⟩
  have hcode : s.runState.code = 1 := by rw [hr]; rfl
  rw [step_read he]
  unfold registerTable
  rewrite [hcode]
  rfl

/-! ## Writes the host may make (R43, R244) -/

/-- Every value but 1, 2 and 3 is no command (R244). -/
theorem decodeCommand_error {v : Word} (h : v = 0 ∨ 3 < v.toNat) : decodeCommand v = .error (.notACommand v) := by
  have hne : v ≠ 1 ∧ v ≠ 2 ∧ v ≠ 3 := by
    refine ⟨?_, ?_, ?_⟩ <;> rintro rfl <;> revert h <;> decide
  rw [decodeCommand, if_neg hne.1, if_neg hne.2.1, if_neg hne.2.2]

theorem step_write {s : State} {n : Nat} {v : Word} {es : List Event} (h : s.events = .write n v :: es) :
    step s = hostWrite n v { s with events := es } := by
  unfold step nextStep
  rw [h]
  rfl

theorem hostWrite_noCommand {v : Word} (h : v = 0 ∨ 3 < v.toNat) (s : State) : hostWrite 0 v s = .next s := by
  simp only [hostWrite, decodeCommand_error h]

theorem hostWrite_other {n : Nat} (h0 : n ≠ 0) (h5 : n ≠ 5) (v : Word) (s : State) : hostWrite n v s = .next s := by
  unfold hostWrite
  split
  · exact absurd rfl h0
  · exact absurd rfl h5
  · rfl

/-- Settles O48, by the register number. -/
theorem writesTheHostMayMake : Obligations.WritesTheHostMayMake := by
  intro s n v es he
  rw [step_write he]
  refine ⟨?_, fun h0 h5 => hostWrite_other h0 h5 v _, ?_, ?_⟩
  · rintro rfl hv; exact hostWrite_noCommand hv _
  · rintro rfl hr; exact if_pos hr
  · rintro rfl hr; exact if_neg hr

/-- Settles O53: the values by computation, the two levels by their definitions. -/
theorem resetValues : Obligations.ResetValues :=
  ⟨rfl, rfl, rfl, rfl, rfl, rfl, fun _ => ⟨decide_eq_true_iff, decide_eq_true_iff⟩⟩

end Sys2Proof.Machine
end

section
/-! PROOFS. `CODE` below `RANGE`: which decisions keep it (spec/10_state.md R26; O16, O17). -/

namespace Sys2Proof.Machine

/-! ## `CODE` against `RANGE` (R26) -/

/-- `CODE` lies below `RANGE`. -/
def Rc.CodeBelow (r : Rc) : Prop := r.code.toNat < r.range.toNat

theorem shiftIn_toNat (c : Word) (b : Byte) : (shiftIn c b).toNat = c.toNat * 256 % 2 ^ 32 + b.toNat := by
  have hb := b.isLt
  have hc : c.toNat <<< 8 % 2 ^ 32 = (c.toNat % 2 ^ 24) <<< 8 := by
    simp only [Nat.shiftLeft_eq]; omega
  rw [shiftIn, BitVec.toNat_or, BitVec.toNat_shiftLeft, BitVec.toNat_setWidth,
    Nat.mod_eq_of_lt (by omega : b.toNat < 2 ^ 32), hc, ← Nat.shiftLeft_add_eq_or_of_lt hb, Nat.shiftLeft_eq]
  omega

/-- `RC.NORM` from `CODE` at most `RANGE` neither brings `CODE` below `RANGE` nor takes it from there (R122). -/
theorem rcNorm_codeBelow_iff {inp : List Byte} {r r' : Rc} (h : rcNorm inp r = .ok () r')
    (hle : r.code.toNat ≤ r.range.toNat) : r'.CodeBelow ↔ r.CodeBelow := by
  rcases rcNorm_cases inp r with ⟨_, hn⟩ | ⟨hlt, b, _, hn⟩ | ⟨_, _, hn⟩
  · cases hn.symm.trans h; rfl
  · cases hn.symm.trans h
    have hb := b.isLt
    have hrange : (r.range <<< 8).toNat = r.range.toNat * 256 := by
      rw [BitVec.toNat_shiftLeft, Nat.shiftLeft_eq]; omega
    simp only [Rc.CodeBelow, shiftIn_toNat, hrange]
    omega
  · cases hn.symm.trans h

/-- Where `RC.NORM` takes no byte it does nothing (R122). -/
theorem rcNorm_eq_of_inPos {inp : List Byte} {r r' : Rc} (h : rcNorm inp r = .ok () r') (hi : r'.inPos = r.inPos) :
    r' = r := by
  rcases rcNorm_cases inp r with ⟨_, hn⟩ | ⟨_, b, _, hn⟩ | ⟨_, _, hn⟩
  · cases hn.symm.trans h; rfl
  · cases hn.symm.trans h; exact absurd hi (Nat.succ_ne_self _)
  · cases hn.symm.trans h

/-- A completed decision is the bit of its core, and the core after one `RC.NORM`. -/
theorem decideAt_eq_ok {inp : List Byte} {cell : Option Nat} {r r' : Rc} {b : Bool}
    (h : decideAt inp cell r = .ok b r') :
    b = (decideCore cell r).1 ∧ rcNorm inp (decideCore cell r).2 = .ok () r' := by
  rw [decideAt_eq inp cell r (decideAt_cell h)] at h
  obtain ⟨_, m, hn, hb⟩ := Res.bind_eq_ok.mp h
  cases hb
  exact ⟨rfl, hn⟩

theorem rcBound_le (range : Word) (p : Prob) : (rcBound range p).toNat ≤ range.toNat := by
  have hp := p.isLt
  rw [rcBound_toNat]
  calc range.toNat / 2048 * p.toNat ≤ range.toNat / 2048 * 2048 := Nat.mul_le_mul_left _ (by omega)
    _ ≤ range.toNat := Nat.div_mul_le_self _ _

/-- An adaptive decision takes the lower part of the interval or the upper, `CODE` counted from its foot (R124). -/
theorem decideCore_some_cases (a : Nat) (r : Rc) :
    ∃ bound, bound ≤ r.range.toNat ∧
      ((r.code.toNat < bound ∧ (decideCore (some a) r).1 = false ∧ (decideCore (some a) r).2.range.toNat = bound ∧
          (decideCore (some a) r).2.code.toNat = r.code.toNat) ∨
        (bound ≤ r.code.toNat ∧ (decideCore (some a) r).1 = true ∧
          (decideCore (some a) r).2.range.toNat = r.range.toNat - bound ∧
          (decideCore (some a) r).2.code.toNat = r.code.toNat - bound)) := by
  have hle := rcBound_le r.range (pmemRead r.pmem a)
  refine ⟨_, hle, ?_⟩
  simp only [decideCore]
  split
  · next h => exact Or.inl ⟨BitVec.lt_def.mp h, rfl, rfl, rfl⟩
  · next h =>
    have hc : rcBound r.range (pmemRead r.pmem a) ≤ r.code := BitVec.not_lt.mp h
    exact Or.inr ⟨BitVec.le_def.mp hc, rfl, BitVec.toNat_sub_of_le (BitVec.le_def.mpr hle),
      BitVec.toNat_sub_of_le hc⟩

/-- A direct decision takes one half of `RANGE` or the other, an odd `RANGE` losing its low bit (R126, R127). -/
theorem decideCore_none_cases (r : Rc) :
    (decideCore none r).2.range.toNat = r.range.toNat / 2 ∧
      (decideCore none r).2.code.toNat =
        if r.range.toNat / 2 ≤ r.code.toNat then r.code.toNat - r.range.toNat / 2 else r.code.toNat := by
  have hhalf : (r.range >>> 1).toNat = r.range.toNat / 2 := by
    rw [BitVec.toNat_ushiftRight, Nat.shiftRight_eq_div_pow]
  simp only [decideCore, BitVec.le_def, hhalf]
  split
  · next h => exact ⟨hhalf, by rw [BitVec.toNat_sub_of_le (by rwa [BitVec.le_def, hhalf]), hhalf]⟩
  · exact ⟨hhalf, rfl⟩

/-- An adaptive decision keeps `CODE` below `RANGE` (R26). -/
theorem rcBit_codeBelow {inp : List Byte} {a : Nat} {r r' : Rc} {b : Bool} (h : rcBit inp a r = .ok b r')
    (hr : r.CodeBelow) : r'.CodeBelow := by
  obtain ⟨-, hn⟩ := decideAt_eq_ok (cell := some a) h
  have hcore : (decideCore (some a) r).2.CodeBelow := by
    unfold Rc.CodeBelow at hr ⊢
    obtain ⟨bound, hle, ⟨hc, -, h1, h2⟩ | ⟨hc, -, h1, h2⟩⟩ := decideCore_some_cases a r <;> omega
  exact (rcNorm_codeBelow_iff hn (Nat.le_of_lt hcore)).mpr hcore

/-- From `CODE` at or above `RANGE` an adaptive decision is 1, and with no byte taken `CODE` stays there (R125 c). -/
theorem rcBit_of_code_not_below {inp : List Byte} {a : Nat} {r r' : Rc} {b : Bool} (h : rcBit inp a r = .ok b r')
    (hr : r.range.toNat ≤ r.code.toNat) :
    b = true ∧ (r'.inPos = r.inPos → r'.range.toNat ≤ r'.code.toNat) := by
  obtain ⟨hb, hn⟩ := decideAt_eq_ok (cell := some a) h
  obtain ⟨bound, hle, ⟨hc, -⟩ | ⟨-, h1, h2, h3⟩⟩ := decideCore_some_cases a r
  · omega
  · refine ⟨hb.trans h1, fun hi => ?_⟩
    have hin : (decideCore (some a) r).2.inPos = r.inPos := by simp only [decideCore]; split <;> rfl
    rw [rcNorm_eq_of_inPos hn (hi.trans hin.symm)]
    omega

/-- A direct decision keeps `CODE` below `RANGE` but for an odd `RANGE` with `CODE` one below it (R126). -/
theorem directBit_codeBelow_iff {inp : List Byte} {r r' : Rc} {b : Bool} (h : directBit inp r = .ok b r')
    (hr : r.CodeBelow) :
    r'.CodeBelow ↔ ¬ (r.range.toNat % 2 = 1 ∧ r.code.toNat + 1 = r.range.toNat) := by
  obtain ⟨-, hn⟩ := decideAt_eq_ok (cell := none) h
  obtain ⟨h1, h2⟩ := decideCore_none_cases r
  unfold Rc.CodeBelow at hr
  have hle : (decideCore none r).2.code.toNat ≤ (decideCore none r).2.range.toNat := by
    rw [h1, h2]; split <;> omega
  rw [rcNorm_codeBelow_iff hn hle, Rc.CodeBelow, h1, h2]
  split <;> omega

/-- `RC.DIRECT(1)` is one direct decision (R126). -/
theorem rcDirect_one_ok {inp : List Byte} {v : Nat} {r r' : Rc} (h : rcDirect inp 1 r = .ok v r') :
    ∃ b, directBit inp r = .ok b r' := by
  obtain ⟨b, m, hb, hm⟩ := Res.bind_eq_ok.mp h
  cases hm
  exact ⟨b, hb⟩

/-- Four bytes shifted in after another are all of `CODE`, and all ones exactly where each of them is (R121). -/
theorem primed_lt_iff (b0 b1 b2 b3 b4 : Byte) :
    ([b0, b1, b2, b3, b4].foldl shiftIn 0).toNat < (0xFFFFFFFF#32).toNat ↔
      ¬ (b1 = 0xFF ∧ b2 = 0xFF ∧ b3 = 0xFF ∧ b4 = 0xFF) := by
  have h1 := b1.isLt
  have h2 := b2.isLt
  have h3 := b3.isLt
  have h4 := b4.isLt
  simp only [List.foldl_cons, List.foldl_nil, shiftIn_toNat, BitVec.toNat_eq]
  simp only [BitVec.ofNat_eq_ofNat, BitVec.toNat_ofNat]
  omega

/-- `RC.INIT` leaves `CODE` below `RANGE` exactly where bytes 1 to 4 are not all `0xFF` (R26, R121). -/
theorem rcInit_codeBelow_iff {inp : List Byte} {r r' : Rc} (h : rcInit inp r = .ok () r') :
    r'.CodeBelow ↔ ¬ (∀ k, 1 ≤ k → k ≤ 4 → inp[r.inPos + k]? = some 0xFF) := by
  rcases rcInit_cases inp r with ⟨h5, hi⟩ | ⟨_, m, hi⟩
  · cases hi.symm.trans h
    have hlen : ((inp.drop r.inPos).take 5).length = 5 := by simp; omega
    obtain ⟨b0, b1, b2, b3, b4, hb⟩ : ∃ b0 b1 b2 b3 b4, (inp.drop r.inPos).take 5 = [b0, b1, b2, b3, b4] := by
      generalize (inp.drop r.inPos).take 5 = l at hlen
      match l, hlen with
      | [b0, b1, b2, b3, b4], _ => exact ⟨b0, b1, b2, b3, b4, rfl⟩
    have hget : ∀ k, k < 5 → inp[r.inPos + k]? = [b0, b1, b2, b3, b4][k]? := by
      intro k hk
      rw [← hb, List.getElem?_take_of_lt hk, List.getElem?_drop]
    unfold Rc.CodeBelow
    dsimp only
    rw [hb]
    refine (primed_lt_iff b0 b1 b2 b3 b4).trans (not_congr ⟨?_, fun hall => ?_⟩)
    · rintro ⟨rfl, rfl, rfl, rfl⟩ k hk1 hk4
      rw [hget k (by omega)]
      interval_cases k <;> rfl
    · have hbyte : ∀ k, 1 ≤ k → k ≤ 4 → [b0, b1, b2, b3, b4][k]? = some 0xFF := fun k h1 h4 =>
        (hget k (by omega)).symm.trans (hall k h1 h4)
      exact ⟨Option.some.inj (hbyte 1 (by omega) (by omega)), Option.some.inj (hbyte 2 (by omega) (by omega)),
        Option.some.inj (hbyte 3 (by omega) (by omega)), Option.some.inj (hbyte 4 (by omega) (by omega))⟩
  · cases hi.symm.trans h

/-- Settles O16, operation by operation. -/
theorem codeStaysBelowRangeInAdaptiveDecisions : Obligations.CodeStaysBelowRangeInAdaptiveDecisions := by
  refine ⟨fun _ _ _ h => rcInit_codeBelow_iff h, fun _ _ _ h hr => ?_, fun _ _ _ _ _ h hr => rcBit_codeBelow h hr,
    fun _ _ _ _ h hr => ?_, fun _ _ _ _ _ h hr => rcBit_of_code_not_below h hr⟩
  · exact (rcNorm_codeBelow_iff h (Nat.le_of_lt hr)).mpr hr
  · obtain ⟨b, hb⟩ := rcDirect_one_ok h
    exact directBit_codeBelow_iff hb hr

/-- The largest `RANGE`, with `CODE` one below it and every cell 1024. -/
def oddRangeRc : Rc :=
  { range := 0xFFFFFFFF, code := 0xFFFFFFFE, inPos := 0, pmem := { base := .init, cells := [] } }

/-- Refutes O17: from `RANGE` 0xFFFFFFFF and `CODE` 0xFFFFFFFE one direct decision leaves both at 0x7FFFFFFF. -/
theorem not_codeStaysBelowRangeInDirectDecisions : ¬ Obligations.CodeStaysBelowRangeInDirectDecisions := by
  intro h
  have hd : rcDirect [] 1 oddRangeRc = .ok 1 { oddRangeRc with range := 0x7FFFFFFF, code := 0x7FFFFFFF } := by decide
  exact absurd (h [] 1 1 _ _ hd (rcOk_init rfl (by decide)) (by decide)) (by decide)

end Sys2Proof.Machine
end

section
/-! PROOFS. The two memories over a step (spec/20_memory.md R65, R68, R77): which cells a symbol trains, and that every
step keeps the canonical form (O11, O18, O51, O56). -/

namespace Sys2Proof.Machine

/-! ## A fetched symbol spells its own cells (R107, R198) -/

/-- Some decisions of the stream in just the cells `cells` lead the range decoder from `r` to `r'`. -/
def SpelledIn (inp : List Byte) (r : Rc) (cells : List (Option Nat)) (r' : Rc) : Prop :=
  ∃ ds, spells inp r cells ds r'

theorem SpelledIn.cons {inp : List Byte} {a : Nat} {b : Bool} {r m r' : Rc} {cells : List (Option Nat)}
    (h : rcBit inp a r = .ok b m) (h' : SpelledIn inp m cells r') : SpelledIn inp r (some a :: cells) r' := by
  obtain ⟨ds, hs⟩ := h'
  exact ⟨b :: ds, m, h, hs⟩

theorem SpelledIn.append {inp : List Byte} {r m r' : Rc} {cells cells' : List (Option Nat)}
    (h : SpelledIn inp r cells m) (h' : SpelledIn inp m cells' r') : SpelledIn inp r (cells ++ cells') r' := by
  obtain ⟨ds, hs⟩ := h
  obtain ⟨ds', hs'⟩ := h'
  exact ⟨ds ++ ds', (spells_append (spells_length hs)).mpr ⟨m, hs, hs'⟩⟩

/-- A cell that none of the decisions uses keeps its value (R65, R214). -/
theorem SpelledIn.pmemRead_eq {inp : List Byte} {r r' : Rc} {cells : List (Option Nat)}
    (h : SpelledIn inp r cells r') (hr : RcOk r) {a : Nat} (ha : some a ∉ cells) :
    pmemRead r'.pmem a = pmemRead r.pmem a := by
  obtain ⟨ds, hs⟩ := h
  obtain ⟨-, -, -, -, hkeep⟩ := spells_ok hr hs
  exact hkeep a ha

theorem lenDec_spelledIn {inp : List Byte} {t : LenTable} {ps : Fin 4} {v : Nat} {r r' : Rc}
    (h : lenDec inp t ps r = .ok v r') : SpelledIn inp r (lenCells t ps v) r' :=
  ⟨_, (lenDec_eq_ok.mp h).2⟩

/-- The cells of slot and extension are those of the distance they spell (R101). -/
theorem distParts_spelledIn {inp : List Byte} {len : Nat} {p : Nat × Nat × Nat} {r r' : Rc}
    (h : distParts inp len r = .ok p r') :
    SpelledIn inp r (distanceCells len (distWord p.1 p.2.1 p.2.2).toNat) r' := by
  obtain ⟨hp, hs⟩ := distParts_eq_ok.mp h
  obtain ⟨hparts, hlt⟩ := dxPartsOf_slotDistance hp
  have hv : (distWord p.1 p.2.1 p.2.2).toNat = slotDistance p.1 p.2.1 p.2.2 := by
    rw [distWord, BitVec.toNat_ofNat, Nat.mod_eq_of_lt hlt]
  rw [hv, distanceCells, hparts]
  exact ⟨_, hs⟩

/-- After `isMatch`, a literal uses the cells of its byte: plain, or in the banks of the byte at `REP0` (R200, R201). -/
theorem fetchLiteral_spelledIn {s : State} {r r' : Rc} {i : Instr}
    (h : fetchLiteral s.input s.seq s.ow r = .ok i r') :
    ∃ cells, symbolCells (contextOf s) i = some (isMatchCell s.seq.state (posState s.seq.pos)) :: cells ∧
      SpelledIn s.input r cells r' := by
  unfold fetchLiteral at h
  split at h
  · obtain ⟨b, m, hl, hi⟩ := Res.bind_eq_ok.mp h
    cases hi
    exact ⟨_, rfl, _, litNormal_eq_ok.mp hl⟩
  · split at h
    · next mb _ hg =>
      rw [owGet_eq] at hg
      split at hg
      · cases hg
        obtain ⟨b, m, hl, hi⟩ := Res.bind_eq_ok.mp h
        cases hi
        exact ⟨_, rfl, _, litMatched_eq_ok.mp hl⟩
      · cases hg
    · cases h
    · cases h

/-- After `isMatch` and `isRep`, a new match or an `EOS` uses the cells of its length and its distance (R202, R208). -/
theorem fetchMatch_spelledIn (c : Context) {inp : List Byte} {r r' : Rc} {i : Instr}
    (h : fetchMatch inp c.ps r = .ok i r') :
    ∃ cells, symbolCells c i = some (isMatchCell c.st c.ps) :: some (isRepCell c.st) :: cells ∧
      SpelledIn inp r cells r' := by
  obtain ⟨v, m, hlen, h⟩ := Res.bind_eq_ok.mp h
  obtain ⟨p, m', hdist, hi⟩ := Res.bind_eq_ok.mp h
  have hcells := (lenDec_spelledIn hlen).append (distParts_spelledIn hdist)
  have hv : Config.matchMinLen + v - Config.matchMinLen = v := Nat.add_sub_cancel_left _ _
  cases hi
  refine ⟨_, ?_, hcells⟩
  split
  · next hd =>
    have hd' : (distWord p.1 p.2.1 p.2.2).toNat = 0xFFFFFFFF := congrArg BitVec.toNat hd
    simp only [symbolCells, hv, hd']
  · simp only [symbolCells, hv]

/-- A repeat's length is read in the cells of `REPLEN` (R204 to R207). -/
theorem fetchRep_spelledIn {inp : List Byte} {ps : Fin 4} {make : Nat → Instr} {r r' : Rc} {i : Instr}
    (h : fetchRep inp ps make r = .ok i r') :
    ∃ len, i = make len ∧ SpelledIn inp r (lenCells .repLen ps (len - Config.matchMinLen)) r' := by
  obtain ⟨v, m, hlen, hi⟩ := Res.bind_eq_ok.mp h
  cases hi
  refine ⟨_, rfl, ?_⟩
  rw [Nat.add_sub_cancel_left]
  exact lenDec_spelledIn hlen

/-- After `isMatch` and `isRep`, a repeat uses the cells that select it and those of its length (R198). -/
theorem fetchRepeat_spelledIn (c : Context) {inp : List Byte} {r r' : Rc} {i : Instr}
    (h : fetchRepeat inp c.st c.ps r = .ok i r') :
    ∃ cells, symbolCells c i = some (isMatchCell c.st c.ps) :: some (isRepCell c.st) :: cells ∧
      SpelledIn inp r cells r' := by
  obtain ⟨g0, r0, h0, h⟩ := Res.bind_eq_ok.mp h
  cases g0
  case false =>
    obtain ⟨long, r1, h1, h⟩ := Res.bind_eq_ok.mp h
    cases long
    case false => cases h; exact ⟨_, rfl, .cons h0 (.cons h1 ⟨[], rfl⟩)⟩
    case true =>
      obtain ⟨len, rfl, hlen⟩ := fetchRep_spelledIn h
      exact ⟨_, rfl, .cons h0 (.cons h1 hlen)⟩
  case true =>
    obtain ⟨g1, r1, h1, h⟩ := Res.bind_eq_ok.mp h
    cases g1
    case false =>
      obtain ⟨len, rfl, hlen⟩ := fetchRep_spelledIn h
      exact ⟨_, rfl, .cons h0 (.cons h1 hlen)⟩
    case true =>
      obtain ⟨g2, r2, h2, h⟩ := Res.bind_eq_ok.mp h
      cases g2
      case false =>
        obtain ⟨len, rfl, hlen⟩ := fetchRep_spelledIn h
        exact ⟨_, rfl, .cons h0 (.cons h1 (.cons h2 hlen))⟩
      case true =>
        obtain ⟨len, rfl, hlen⟩ := fetchRep_spelledIn h
        exact ⟨_, rfl, .cons h0 (.cons h1 (.cons h2 hlen))⟩

/-- Whatever a fetch answers, its decisions are in the cells R107 gives that symbol. -/
theorem fetchSymbol_spelledIn {s : State} {i : Instr} {r : Rc} (h : fetchSymbol s = .ok i r) :
    SpelledIn s.input s.rc (symbolCells (contextOf s) i) r := by
  obtain ⟨m, r1, h1, h⟩ := Res.bind_eq_ok.mp h
  cases m
  case false =>
    obtain ⟨cells, hc, hs⟩ := fetchLiteral_spelledIn h
    rw [hc]
    exact .cons h1 hs
  case true =>
    obtain ⟨rep, r2, h2, h⟩ := Res.bind_eq_ok.mp h
    have tail : ∃ cells, symbolCells (contextOf s) i = some (isMatchCell s.seq.state (posState s.seq.pos)) ::
        some (isRepCell s.seq.state) :: cells ∧ SpelledIn s.input r2 cells r := by
      cases rep
      case false => exact fetchMatch_spelledIn (contextOf s) h
      case true => exact fetchRepeat_spelledIn (contextOf s) h
    obtain ⟨cells, hc, hs⟩ := tail
    rw [hc]
    exact .cons h1 (.cons h2 hs)

/-! ## A symbol's meaning does not touch the range decoder (R261) -/

/-- All that a copy tail can do to the state: the sequencer and the window move, or a fault is taken (R209). -/
theorem copyOutcome_next {len : Nat} {q : Seq} {s t : State} (h : copyOutcome len q s = .next t) :
    (∃ q' o', validateAndCopy len q s.ow = .ok q' o' ∧ t = { s with seq := q', ow := o' }) ∨
      ∃ c o', t = takeFault c { s with seq := q, ow := o' } := by
  unfold copyOutcome at h
  split at h
  · next q' o' hv => cases h; exact Or.inl ⟨q', o', hv, rfl⟩
  · next c o' _ => cases h; exact Or.inr ⟨c, o', rfl⟩
  · cases h

/-- The meaning of a symbol that does not fault leaves the range decoder where the fetch left it. -/
theorem exec_symbol_rc {i : Instr} (hi : isSymbol i = true) (hw : i.wellFormed = true) {s t : State}
    (ht : exec i s = .next t) (hf : t.runState ≠ .fault) : t.rc = s.rc := by
  cases exec_symbol_does hi hw s with
  | literal b hb => cases hb.symm.trans ht; rfl
  | ends he => cases he.symm.trans ht; rfl
  | copies len q hq =>
    rcases copyOutcome_next (hq.symm.trans ht) with ⟨_, _, _, rfl⟩ | ⟨_, _, rfl⟩
    · rfl
    · exact absurd rfl hf
  | invalid q hq => cases hq.symm.trans ht; exact absurd rfl hf

/-- A step of a run that fetches `i` is the meaning of `i` where the fetch leaves the range decoder (R197, R198). -/
theorem step_of_fetch {s : State} (he : s.events = []) (hr : s.runState = .run) (hsize : sizeReached s = false)
    {i : Instr} {r : Rc} (hf : fetchSymbol s = .ok i r) : step s = exec i { passBoundary s with rc := r } := by
  simp only [step, nextStep, he, engineStep, hr, hsize, hf, runFetched, Bool.false_eq_true, if_false]

/-- Settles O11: the fetch trains the symbol's cells alone, and the symbol's meaning trains none. -/
theorem symbolTrainsOnlyItsCells : Obligations.SymbolTrainsOnlyItsCells := by
  intro s t i r hinv he hr hsize hf ht hnf a ha
  have fetched := fetchSymbolFrom_ok hf
  rw [step_of_fetch he hr hsize hf] at ht
  have hrc : t.rc = r := exec_symbol_rc fetched.symbol fetched.wellFormed ht hnf
  rw [hrc]
  exact (fetchSymbol_spelledIn hf).pmemRead_eq (hinv.run hr).rc ha

/-! ## The range decoder keeps `PMEM` in canonical form (R65) -/

theorem rcNorm_pmem {inp : List Byte} {r r' : Rc} {u : Unit} (h : rcNorm inp r = .ok u r') : r'.pmem = r.pmem := by
  rcases rcNorm_cases inp r with ⟨_, hn⟩ | ⟨_, b, _, hn⟩ | ⟨_, _, hn⟩ <;> cases hn.symm.trans h <;> rfl

theorem rcInit_pmem {inp : List Byte} {r r' : Rc} {u : Unit} (h : rcInit inp r = .ok u r') : r'.pmem = r.pmem := by
  rcases rcInit_cases inp r with ⟨_, hi⟩ | ⟨_, m, hi⟩ <;> cases hi.symm.trans h
  rfl

theorem decideCore_pmem_wf {cell : Option Nat} {r : Rc} (h : r.pmem.wf = true)
    (hc : ∀ a, cell = some a → a < Config.pmemSize) : (decideCore cell r).2.pmem.wf = true := by
  cases cell with
  | some a =>
    simp only [decideCore]
    split <;> exact Pmem.wf_pmemWrite h (hc a rfl) _
  | none =>
    simp only [decideCore]
    split <;> exact h

theorem decideAt_pmem_wf {inp : List Byte} {cell : Option Nat} {r r' : Rc} {b : Bool}
    (hd : decideAt inp cell r = .ok b r') (h : r.pmem.wf = true) : r'.pmem.wf = true := by
  rw [rcNorm_pmem (decideAt_eq_ok hd).2]
  exact decideCore_pmem_wf h (decideAt_cell hd)

/-- Any string of decisions keeps `PMEM` in canonical form, whether or not the range decoder is in order. -/
theorem spells_pmem_wf {inp : List Byte} : ∀ {cells : List (Option Nat)} {ds : List Bool} {r r' : Rc},
    spells inp r cells ds r' → r.pmem.wf = true → r'.pmem.wf = true
  | [], [], _, _, hs, h => by cases hs; exact h
  | _ :: _, _ :: _, _, _, ⟨_, hd, hs⟩, h => spells_pmem_wf hs (decideAt_pmem_wf hd h)
  | [], _ :: _, _, _, hs, _ => hs.elim
  | _ :: _, [], _, _, hs, _ => hs.elim

theorem Spelled.pmem_wf {inp : List Byte} {r r' : Rc} (h : Spelled inp r r') (hr : r.pmem.wf = true) :
    r'.pmem.wf = true := by
  obtain ⟨_, _, hs⟩ := h
  exact spells_pmem_wf hs hr

/-- Where the operation completes, decisions of the stream are all it did to the range decoder. -/
def Decides {α : Type} (inp : List Byte) (r : Rc) (x : Res Rc α) : Prop := ∀ a r', x = .ok a r' → Spelled inp r r'

theorem Decides.map {α β : Type} {inp : List Byte} {r : Rc} {x : Res Rc α} {f : α → β} (h : Decides inp r x) :
    Decides inp r (x.bind fun a r => .ok (f a) r) := by
  intro b r' hb
  obtain ⟨a, m, ha, hm⟩ := Res.bind_eq_ok.mp hb
  cases hm
  exact h a _ ha

theorem decides_distParts (inp : List Byte) (len : Nat) (r : Rc) : Decides inp r (distParts inp len r) :=
  fun _ _ h => ⟨_, _, (distParts_eq_ok.mp h).2⟩

theorem decides_lenDec (inp : List Byte) (t : LenTable) (ps : Fin 4) (r : Rc) : Decides inp r (lenDec inp t ps r) :=
  fun _ _ h => ⟨_, _, (lenDec_eq_ok.mp h).2⟩

theorem decides_distDec (inp : List Byte) (len : Nat) (r : Rc) : Decides inp r (distDec inp len r) := by
  intro a r' h
  obtain ⟨p, m, hp, hd⟩ := Res.bind_eq_ok.mp h
  have hm : r' = m := by
    rcases distResult_cases (distWord p.1 p.2.1 p.2.2) m with ⟨_, hc⟩ | ⟨_, hc⟩ | ⟨_, _, hc⟩ <;>
      cases hc.symm.trans hd <;> rfl
  rw [hm]
  exact decides_distParts inp len r p m hp

/-! ## Outcomes with both memories in canonical form (R65, R68) -/

/-- If the outcome is a next state, both its memories are in canonical form. -/
def NextCanonical (o : Host.Outcome State Fault Refusal) : Prop := ∀ t, o = .next t → Memory.wf t = true

theorem nextCanonical_next {s : State} (h : Memory.wf s = true) : NextCanonical (.next s) := by
  rintro t ⟨⟩; exact h

theorem nextCanonical_fault (f : Fault) : NextCanonical (.fault f) := by rintro t ⟨⟩

/-- A fault leaves both memories unspecified: nothing is listed (R263). -/
theorem nextCanonical_takeFault (c : Cause) (s : State) : NextCanonical (.next (takeFault c s)) :=
  nextCanonical_next (memory_wf_unspecify _)

theorem memory_wf_setRc {s : State} (h : Memory.wf s = true) {r : Rc} (hr : r.pmem.wf = true) :
    Memory.wf { s with rc := r } = true := memory_wf_iff.mpr ⟨hr, (memory_wf_iff.mp h).2⟩

theorem memory_wf_setOw {s : State} (h : Memory.wf s = true) {o : Ow} (ho : o.wf = true) :
    Memory.wf { s with ow := o } = true := memory_wf_iff.mpr ⟨(memory_wf_iff.mp h).1, ho⟩

section
variable {s : State} (h : Memory.wf s = true)
include h

theorem nextCanonical_rcOutcome {α : Type} {g : α → Result} {x : Res Rc α}
    (hx : ∀ a r, x = .ok a r → r.pmem.wf = true) : NextCanonical (rcOutcome s g x) := by
  cases x with
  | ok a r => exact nextCanonical_next (memory_wf_setRc h (hx a r rfl))
  | raise c r => exact nextCanonical_takeFault c _
  | stop f => exact nextCanonical_fault f

theorem nextCanonical_of_decides {α : Type} {g : α → Result} {x : Res Rc α} (hx : Decides s.input s.rc x) :
    NextCanonical (rcOutcome s g x) :=
  nextCanonical_rcOutcome h fun a r he => (hx a r he).pmem_wf (memory_wf_iff.mp h).1

theorem nextCanonical_owOutcome {α : Type} {g : α → Result} {x : Res Ow α}
    (hx : ∀ a o, x = .ok a o → o.wf = true) : NextCanonical (owOutcome s g x) := by
  cases x with
  | ok a o => exact nextCanonical_next (memory_wf_setOw h (hx a o rfl))
  | raise c o => exact nextCanonical_takeFault c _
  | stop f => exact nextCanonical_fault f

/-- The rows of the distance field list nothing (R186). -/
theorem nextCanonical_distanceOutcome (v : Word) : NextCanonical (distanceOutcome v s) := by
  unfold distanceOutcome
  rcases distResult_cases v s with ⟨_, hd⟩ | ⟨_, hd⟩ | ⟨_, _, hd⟩ <;> rw [hd]
  · exact nextCanonical_next h
  · exact nextCanonical_next h
  · exact nextCanonical_takeFault _ _

theorem nextCanonical_copyOutcome (len : Nat) (q : Seq) : NextCanonical (copyOutcome len q s) := by
  intro t ht
  rcases copyOutcome_next ht with ⟨q', o', hv, rfl⟩ | ⟨c, o', rfl⟩
  · exact memory_wf_setOw h (Ow.wf_validateAndCopy (memory_wf_iff.mp h).2 hv)
  · exact memory_wf_unspecify _

theorem memory_wf_putLiteral (b : Byte) : Memory.wf (putLiteral b s) = true :=
  memory_wf_setOw h (Ow.wf_owPut (memory_wf_iff.mp h).2 b)

theorem memory_wf_endRun : Memory.wf (endRun s) = true :=
  memory_wf_setOw h (Ow.wf_owFlush (memory_wf_iff.mp h).2)

theorem nextCanonical_execNewMatch (len : Nat) (dist : Word) : NextCanonical (execNewMatch len dist s) := by
  unfold execNewMatch
  split
  · exact nextCanonical_next (memory_wf_endRun h)
  · split
    · exact nextCanonical_copyOutcome h len _
    · exact nextCanonical_takeFault _ _

/-- The init phase lists no cell and does not touch `WIN` (R242). -/
theorem nextCanonical_execStart : NextCanonical (execStart s) := by
  unfold execStart
  split
  · exact nextCanonical_next h
  · rcases rcInit_cases (initPhase s).input (initPhase s).rc with ⟨-, hi⟩ | ⟨-, m, hi⟩ <;> rw [hi]
    · exact nextCanonical_next (memory_wf_iff.mpr ⟨Pmem.wf_nil _, (memory_wf_iff.mp h).2⟩)
    · exact nextCanonical_takeFault _ _

theorem nextCanonical_execStrip : NextCanonical (execStrip s) := by
  unfold execStrip
  split <;> exact nextCanonical_next h

/-- Every instruction, with whatever operands, keeps both memories in canonical form. -/
theorem nextCanonical_exec (i : Instr) : NextCanonical (exec i s) := by
  obtain ⟨hpmem, how⟩ := memory_wf_iff.mp h
  cases i
  case lit b => exact nextCanonical_next (memory_wf_putLiteral h b)
  case litm b => exact nextCanonical_next (memory_wf_putLiteral h b)
  case newMatch len dist => exact nextCanonical_execNewMatch h len dist
  case eos => exact nextCanonical_next (memory_wf_endRun h)
  case shortrep => exact nextCanonical_copyOutcome h _ _
  case rep0 => exact nextCanonical_copyOutcome h _ _
  case rep1 => exact nextCanonical_copyOutcome h _ _
  case rep2 => exact nextCanonical_copyOutcome h _ _
  case rep3 => exact nextCanonical_copyOutcome h _ _
  case lenLow => exact nextCanonical_next h
  case lenMid => exact nextCanonical_next h
  case lenHigh => exact nextCanonical_next h
  case dxSlot0 => exact nextCanonical_distanceOutcome h (distWord 0 0 0)
  case dxSlot1 => exact nextCanonical_distanceOutcome h (distWord 1 0 0)
  case dxSlot2 => exact nextCanonical_distanceOutcome h (distWord 2 0 0)
  case dxSlot3 => exact nextCanonical_distanceOutcome h (distWord 3 0 0)
  case rcInit => exact nextCanonical_rcOutcome h fun _ _ hx => (rcInit_pmem hx).symm ▸ hpmem
  case rcNorm => exact nextCanonical_rcOutcome h fun _ _ hx => (rcNorm_pmem hx).symm ▸ hpmem
  case rcBit => exact nextCanonical_of_decides h fun _ _ hx => spelled_rcBit hx
  case rcDirect => exact nextCanonical_of_decides h fun _ _ hx => ⟨_, _, (rcDirect_eq_ok.mp hx).2⟩
  case btDec => exact nextCanonical_of_decides h fun _ _ hx => ⟨_, _, (btDec_eq_ok.mp hx).2⟩
  case btRdec => exact nextCanonical_of_decides h fun _ _ hx => ⟨_, _, (btRdec_eq_ok.mp hx).2⟩
  case lenDec t ps => exact nextCanonical_of_decides h (decides_lenDec _ t ps _)
  case litNormal => exact nextCanonical_of_decides h fun _ _ hx => ⟨_, _, litNormal_eq_ok.mp hx⟩
  case litMatched => exact nextCanonical_of_decides h fun _ _ hx => ⟨_, _, litMatched_eq_ok.mp hx⟩
  case distDec len => exact nextCanonical_of_decides h (decides_distDec _ len _)
  case owPut b => exact nextCanonical_next (memory_wf_setOw h (Ow.wf_owPut how b))
  case owFlush => exact nextCanonical_next (memory_wf_setOw h (Ow.wf_owFlush how))
  case owGet d =>
    refine nextCanonical_owOutcome h fun _ _ hx => ?_
    rw [owGet_eq] at hx
    split at hx <;> cases hx
    exact how
  case owCopy => exact nextCanonical_owOutcome h fun _ _ hx => Ow.wf_owCopy _ _ how hx
  case crc32 => exact nextCanonical_next h
  case cfStrip => exact nextCanonical_next h
  case cfAttach => exact nextCanonical_next h
  case reset => exact nextCanonical_next (memory_wf_unspecify _)
  case start => exact nextCanonical_execStart h
  case strip => exact nextCanonical_execStrip h
  all_goals exact nextCanonical_distanceOutcome h _

/-- An instruction read off decisions of the stream keeps both memories in canonical form, or the fetch faults. -/
theorem nextCanonical_runFetched {f : Res Rc Instr} (hf : Decides s.input s.rc f) :
    NextCanonical (runFetched f s) := by
  cases f with
  | ok i r => exact nextCanonical_exec (memory_wf_setRc h ((hf i r rfl).pmem_wf (memory_wf_iff.mp h).1)) i
  | raise c r => exact nextCanonical_takeFault c _
  | stop e => exact nextCanonical_fault e

theorem nextCanonical_engineStep : NextCanonical (engineStep s) := by
  unfold engineStep
  split
  · split
    · exact nextCanonical_next (memory_wf_endRun h)
    · exact nextCanonical_runFetched (s := passBoundary s) h fun _ _ hf => (fetchSymbolFrom_ok hf).spelled
  · exact nextCanonical_next h

theorem nextCanonical_hostWrite (n : Nat) (v : Word) : NextCanonical (hostWrite n v s) := by
  unfold hostWrite
  split
  · split
    · exact nextCanonical_exec h _
    · exact nextCanonical_next h
  · split <;> exact nextCanonical_next h
  · exact nextCanonical_next h

/-- Every event, a unit's own included, keeps both memories in canonical form (log 8, log 9). -/
theorem nextCanonical_handle (e : Event) : NextCanonical (handle e s) := by
  cases e with
  | engine => exact nextCanonical_engineStep h
  | write n v => exact nextCanonical_hostWrite h n v
  | read n => exact nextCanonical_next h
  | present bytes => exact nextCanonical_next h
  | unit i => exact nextCanonical_exec h i
  | lenField t ps => exact nextCanonical_runFetched h (decides_lenDec _ t ps _).map
  | dxField len => exact nextCanonical_runFetched h (decides_distParts _ len _).map

end

/-- Settles O56: a step is the engine's turn or one event. -/
theorem everyStepKeepsMemoryCanonical : Obligations.EveryStepKeepsMemoryCanonical := by
  intro s t h ht
  unfold step nextStep at ht
  split at ht
  · exact nextCanonical_engineStep h t ht
  · next e rest _ => exact nextCanonical_handle (s := { s with events := rest }) h e t ht

/-! ## What has no cell, and what presenting does -/

/-- A decision on an address that is no cell stops (R65; log 14). -/
theorem rcBit_stop {a : Nat} (ha : Config.pmemSize ≤ a) (inp : List Byte) (r : Rc) :
    rcBit inp a r = .stop (.pmemAddress a) := if_neg (Nat.not_lt.mpr ha)

/-- Settles O18. -/
theorem rcBitStopsOnNoCell : Obligations.RcBitStopsOnNoCell := by
  intro s a ha
  change rcOutcome s .bit (rcBit s.input a s.rc) = _
  rw [rcBit_stop ha]
  rfl

/-- Settles O51: the event is the oldest pending, and its handling sets one field. -/
theorem presentingInputTouchesNothingElse : Obligations.PresentingInputTouchesNothingElse := by
  intro s bytes es he
  unfold step nextStep
  rw [he]
  rfl

end Sys2Proof.Machine
end

section
/-! PROOFS. The words of symbols and fields, written and read back (spec/30_encoding.md R94 to R105; O1 to O4, O6). -/

namespace Sys2Proof.Machine

/-! ## A distance and its parts (R101, R187) -/

/-- The parts of a slot row come back from the 32-bit value they spell. -/
theorem dxPartsOf_distWord {p : Nat × Nat × Nat} (h : dxPartsOk p) :
    dxPartsOf (distWord p.1 p.2.1 p.2.2).toNat = p := by
  obtain ⟨hparts, hlt⟩ := dxPartsOf_slotDistance h
  rw [distWord, BitVec.toNat_ofNat, Nat.mod_eq_of_lt hlt]
  exact hparts

/-- A 32-bit value comes back from its parts. -/
theorem distWord_dxPartsOf (v : Word) :
    distWord (dxPartsOf v.toNat).1 (dxPartsOf v.toNat).2.1 (dxPartsOf v.toNat).2.2 = v := by
  rw [distWord, (slotDistance_dxPartsOf v.isLt).2, BitVec.ofNat_toNat, BitVec.setWidth_eq]

/-- The decisions of slot and extension are those of the value they spell. -/
theorem distanceBits_distWord {p : Nat × Nat × Nat} (h : dxPartsOk p) :
    distanceBits (distWord p.1 p.2.1 p.2.2).toNat = dxBits p.1 p.2.1 p.2.2 := by
  rw [distanceBits, dxPartsOf_distWord h]

theorem distanceCells_distWord (len : Nat) {p : Nat × Nat × Nat} (h : dxPartsOk p) :
    distanceCells len (distWord p.1 p.2.1 p.2.2).toNat = dxCells len p.1 p.2.1 p.2.2 := by
  rw [distanceCells, dxPartsOf_distWord h]

/-! ## A match and the end marker (R96, R103) -/

/-- The symbol of a match length and a distance value: `0xFFFFFFFF` makes it an `EOS`. -/
def matchSymbol (len : Nat) (v : Word) : Instr :=
  if v = Config.endMarkerDistance then .eos len else .newMatch len v

theorem matchSymbol_endMarker (len : Nat) : matchSymbol len Config.endMarkerDistance = .eos len := if_pos rfl

theorem matchSymbol_of_ne {len : Nat} {v : Word} (h : v ≠ Config.endMarkerDistance) :
    matchSymbol len v = .newMatch len v := if_neg h

/-- A property of both kinds of match holds of the symbol of a length and a value. -/
theorem matchSymbol_ind {P : Instr → Prop} {len : Nat} {v : Word} (eos : v = Config.endMarkerDistance → P (.eos len))
    (newMatch : v ≠ Config.endMarkerDistance → P (.newMatch len v)) : P (matchSymbol len v) := by
  by_cases h : v = Config.endMarkerDistance
  · rw [h, matchSymbol_endMarker]; exact eos h
  · rw [matchSymbol_of_ne h]; exact newMatch h

theorem isSymbol_matchSymbol (len : Nat) (v : Word) : isSymbol (matchSymbol len v) = true :=
  matchSymbol_ind (P := (isSymbol · = true)) (fun _ => rfl) fun _ => rfl

theorem wellFormed_matchSymbol {len : Nat} (v : Word) (h : matchLenOk len = true) :
    (matchSymbol len v).wellFormed = true :=
  matchSymbol_ind (P := (Instr.wellFormed · = true)) (fun _ => h) fun hv => by simp [Instr.wellFormed, h, hv]

theorem formFits_matchSymbol (charState : Bool) (len : Nat) (v : Word) :
    formFits charState (matchSymbol len v) = true :=
  matchSymbol_ind (P := (formFits charState · = true)) (fun _ => rfl) fun _ => rfl

/-- Format M: `10`, the length field, the slot and its extension (R96). -/
theorem encode_matchSymbol (len : Nat) (v : Word) :
    encode (matchSymbol len v) =
      .decisions (true :: false :: (lenBits (len - Config.matchMinLen) ++ distanceBits v.toNat)) :=
  matchSymbol_ind (P := (encode · = _)) (fun hv => by rw [hv]; rfl) fun _ => rfl

/-! ## What each field is read from -/

theorem matchLenOk_iff {len : Nat} : matchLenOk len = true ↔ 2 ≤ len ∧ len ≤ 273 := by simp [matchLenOk]

/-- The length field `len - 2` spells `len` and no other match length does (R99). -/
theorem decodeLength_eq_ok {ds rest : List Bool} {len : Nat} :
    decodeLength ds = .ok (len, rest) ↔
      matchLenOk len = true ∧ ds = lenBits (len - Config.matchMinLen) ++ rest := by
  rw [matchLenOk_iff]
  constructor
  · intro h
    unfold decodeLength at h
    split at h
    · next f rest' hf =>
      obtain ⟨v, hv, hval, rfl⟩ := decodeLenField_ok hf
      cases h
      simp only [hval, Option.getD_some, Nat.add_sub_cancel_left, and_true, Config.matchMinLen]
      omega
    · cases h
  · rintro ⟨⟨hlo, hhi⟩, rfl⟩
    have hle : len - Config.matchMinLen ≤ 271 := by simp only [Config.matchMinLen]; omega
    obtain ⟨hf, hval⟩ := decodeLenField_lenBits hle rest
    simp only [decodeLength, hf, hval, Option.getD_some, Nat.add_sub_cancel' (show Config.matchMinLen ≤ len from hlo)]

/-- A slot and its extension are read exactly off the decisions of theirs (R101). -/
theorem decodeDxParts_eq_ok {ds rest : List Bool} {p : Nat × Nat × Nat} :
    decodeDxParts ds = .ok (p, rest) ↔ dxPartsOk p ∧ ds = dxBits p.1 p.2.1 p.2.2 ++ rest :=
  ⟨decodeDxParts_ok, fun ⟨hp, hds⟩ => hds ▸ decodeDxParts_dxBits hp rest⟩

theorem decodeDxParts_distanceBits (v : Word) (rest : List Bool) :
    decodeDxParts (distanceBits v.toNat ++ rest) = .ok (dxPartsOf v.toNat, rest) :=
  decodeDxParts_eq_ok.mpr ⟨(slotDistance_dxPartsOf v.isLt).1, rfl⟩

/-- Format L: the eight decisions of the byte, as `LIT` or `LITM` (R95). -/
theorem decodeLiteral_eq_ok {charState : Bool} {ds rest : List Bool} {i : Instr} :
    decodeLiteral charState ds = .ok (i, rest) ↔
      ∃ b : Byte, i = (if charState then .lit b else .litm b) ∧ ds = msbBits 8 b.toNat ++ rest := by
  constructor
  · intro h
    unfold decodeLiteral at h
    split at h
    · next v rest' hv =>
      obtain ⟨bs, hlen, rfl, rfl⟩ := readMsb_ok 8 _ _ hv
      cases h
      have hlt : bitsFrom 0 bs < 2 ^ 8 := hlen ▸ bitsFrom_lt bs
      refine ⟨BitVec.ofNat 8 (bitsFrom 0 bs), rfl, ?_⟩
      rw [BitVec.toNat_ofNat, Nat.mod_eq_of_lt hlt, ← hlen, msbBits_bitsFrom]
    · cases h
  · rintro ⟨b, rfl, rfl⟩
    simp only [decodeLiteral, readMsb_append 8 _ rest 0 (msbBits_length 8 _), bitsFrom_msbBits,
      Nat.mod_eq_of_lt b.isLt, ofNat_toNat_self]

/-- After `10`, a match is read exactly off its length field and its distance (R96, R103). -/
theorem decodeMatch_eq_ok {ds rest : List Bool} {i : Instr} :
    decodeMatch ds = .ok (i, rest) ↔
      ∃ (len : Nat) (v : Word), matchLenOk len = true ∧ i = matchSymbol len v ∧
        ds = lenBits (len - Config.matchMinLen) ++ distanceBits v.toNat ++ rest := by
  constructor
  · intro h
    unfold decodeMatch at h
    split at h
    · cases h
    · next len ds' hlen =>
      split at h
      · cases h
      · next slot x a rest' hdist =>
        cases h
        obtain ⟨hok, rfl⟩ := decodeLength_eq_ok.mp hlen
        obtain ⟨hp, rfl⟩ := decodeDxParts_eq_ok.mp hdist
        refine ⟨len, distWord slot x a, hok, rfl, ?_⟩
        rw [distanceBits_distWord (p := (slot, x, a)) hp, List.append_assoc]
  · rintro ⟨len, v, hok, rfl, rfl⟩
    have hlen := decodeLength_eq_ok.mpr ⟨hok, List.append_assoc _ (distanceBits v.toNat) rest⟩
    have hword := distWord_dxPartsOf v
    rw [distWord] at hword
    simp only [decodeMatch, hlen, decodeDxParts_distanceBits, hword, matchSymbol]

/-- A repeat is read exactly off its length field (R97, R98). -/
theorem decodeRep_eq_ok {make : Nat → Instr} {ds rest : List Bool} {i : Instr} :
    decodeRep make ds = .ok (i, rest) ↔
      ∃ len, matchLenOk len = true ∧ i = make len ∧ ds = lenBits (len - Config.matchMinLen) ++ rest := by
  constructor
  · intro h
    unfold decodeRep at h
    split at h
    · next len rest' hlen =>
      cases h
      obtain ⟨hok, hds⟩ := decodeLength_eq_ok.mp hlen
      exact ⟨len, hok, rfl, hds⟩
    · cases h
  · rintro ⟨len, hok, rfl, hds⟩
    simp only [decodeRep, decodeLength_eq_ok.mpr ⟨hok, hds⟩]

/-! ## A symbol's word reads back (R94 to R104) -/

/-- Settles O1, by the kind of symbol: the tree of R94 selects its field reader, and that reads its fields back. -/
theorem symbolWordsDecodeBack : Obligations.SymbolWordsDecodeBack := by
  intro i charState ds rest hi hw hf he
  cases i
  case lit b => cases he; cases charState <;> cases hf; exact decodeLiteral_eq_ok.mpr ⟨b, rfl, rfl⟩
  case litm b => cases he; cases charState <;> cases hf; exact decodeLiteral_eq_ok.mpr ⟨b, rfl, rfl⟩
  case newMatch len dist =>
    cases he
    simp only [Instr.wellFormed, Bool.and_eq_true, bne_iff_ne] at hw
    exact decodeMatch_eq_ok.mpr ⟨len, dist, hw.1, (matchSymbol_of_ne hw.2).symm, rfl⟩
  case eos len => cases he; exact decodeMatch_eq_ok.mpr ⟨len, _, hw, (matchSymbol_endMarker len).symm, rfl⟩
  case shortrep => cases he; rfl
  case rep0 len => cases he; exact decodeRep_eq_ok.mpr ⟨len, hw, rfl, rfl⟩
  case rep1 len => cases he; exact decodeRep_eq_ok.mpr ⟨len, hw, rfl, rfl⟩
  case rep2 len => cases he; exact decodeRep_eq_ok.mpr ⟨len, hw, rfl, rfl⟩
  case rep3 len => cases he; exact decodeRep_eq_ok.mpr ⟨len, hw, rfl, rfl⟩
  all_goals cases hi

/-! ## A decoded symbol was written (R94 to R105) -/

/-- `i` is a symbol that fits `charState`; its word is `pre` and then what `ds` has before `rest`. -/
structure WordAfter (charState : Bool) (pre ds : List Bool) (i : Instr) (rest : List Bool) : Prop where
  symbol : isSymbol i = true
  wellFormed : i.wellFormed = true
  fits : formFits charState i = true
  word : ∃ w, encode i = .decisions (pre ++ w) ∧ ds = w ++ rest

theorem decodeLiteral_word {charState : Bool} {ds rest : List Bool} {i : Instr}
    (h : decodeLiteral charState ds = .ok (i, rest)) : WordAfter charState [false] ds i rest := by
  obtain ⟨b, rfl, hds⟩ := decodeLiteral_eq_ok.mp h
  cases charState
  case false => exact ⟨rfl, rfl, rfl, _, rfl, hds⟩
  case true => exact ⟨rfl, rfl, rfl, _, rfl, hds⟩

theorem decodeMatch_word (charState : Bool) {ds rest : List Bool} {i : Instr}
    (h : decodeMatch ds = .ok (i, rest)) : WordAfter charState [true, false] ds i rest := by
  obtain ⟨len, v, hok, rfl, hds⟩ := decodeMatch_eq_ok.mp h
  exact ⟨isSymbol_matchSymbol len v, wellFormed_matchSymbol v hok, formFits_matchSymbol charState len v, _,
    encode_matchSymbol len v, hds⟩

/-- The word of a repeat is what selects it, `pre`, and its length field. -/
theorem decodeRep_word {make : Nat → Instr} {charState : Bool} {pre ds rest : List Bool} {i : Instr}
    (hmake : ∀ len, matchLenOk len = true → isSymbol (make len) = true ∧ (make len).wellFormed = true ∧
      formFits charState (make len) = true ∧
      encode (make len) = .decisions (pre ++ lenBits (len - Config.matchMinLen)))
    (h : decodeRep make ds = .ok (i, rest)) : WordAfter charState pre ds i rest := by
  obtain ⟨len, hok, rfl, hds⟩ := decodeRep_eq_ok.mp h
  obtain ⟨hsymbol, hwf, hfits, hword⟩ := hmake len hok
  exact ⟨hsymbol, hwf, hfits, _, hword, hds⟩

/-- The decisions of the tree of R94 before the fields belong to the word too. -/
theorem WordAfter.whole {charState : Bool} {pre ds rest : List Bool} {i : Instr}
    (h : WordAfter charState pre ds i rest) :
    isSymbol i = true ∧ i.wellFormed = true ∧ formFits charState i = true ∧
      ∃ w, encode i = .decisions w ∧ pre ++ ds = w ++ rest := by
  obtain ⟨w, hword, hds⟩ := h.word
  exact ⟨h.symbol, h.wellFormed, h.fits, pre ++ w, hword, by rw [hds, List.append_assoc]⟩

/-- Settles O3, by the path through the tree of R94. -/
theorem decodedSymbolWasEncoded : Obligations.DecodedSymbolWasEncoded := by
  intro i charState ds rest h
  unfold decodeSymbol at h
  split at h
  · exact (decodeLiteral_word h).whole
  · exact (decodeMatch_word charState h).whole
  · cases h; exact ⟨rfl, rfl, rfl, _, rfl, rfl⟩
  · exact (decodeRep_word (make := .rep0) (pre := [true, true, false, true]) (fun _ hl => ⟨rfl, hl, rfl, rfl⟩) h).whole
  · exact (decodeRep_word (make := .rep1) (pre := [true, true, true, false]) (fun _ hl => ⟨rfl, hl, rfl, rfl⟩) h).whole
  · exact (decodeRep_word (make := .rep2) (pre := [true, true, true, true, false])
      (fun _ hl => ⟨rfl, hl, rfl, rfl⟩) h).whole
  · exact (decodeRep_word (make := .rep3) (pre := [true, true, true, true, true])
      (fun _ hl => ⟨rfl, hl, rfl, rfl⟩) h).whole
  · cases h

/-! ## Field rows read back (R99, R101) -/

/-- A length row is the row of its value, which is 0 to 271, and its word is the field of that value. -/
theorem lenRow_of_lenValue {i : Instr} {v : Nat} (h : i.lenValue? = some v) :
    v ≤ 271 ∧ lenFieldOf v = i ∧ encode i = .decisions (lenBits v) := by
  cases i
  case lenLow l =>
    cases h
    have := l.isLt
    exact ⟨by omega, by rw [lenFieldOf, if_pos (by omega), ofNat_toNat_self], rfl⟩
  case lenMid m =>
    cases h
    have := m.isLt
    exact ⟨by omega,
      by rw [lenFieldOf, if_neg (by omega), if_pos (by omega), Nat.add_sub_cancel_left, ofNat_toNat_self], rfl⟩
  case lenHigh b =>
    cases h
    have := b.isLt
    exact ⟨by omega,
      by rw [lenFieldOf, if_neg (by omega), if_neg (by omega), Nat.add_sub_cancel_left, ofNat_toNat_self], rfl⟩
  all_goals cases h

/-- Settles O2: a row's word is the field of its value or of its parts, and these make the row again. -/
theorem fieldWordsDecodeBack : Obligations.FieldWordsDecodeBack := by
  refine fun i ds rest he => ⟨fun hlen => ?_, fun hdx => ?_⟩
  · obtain ⟨v, hv⟩ := Option.isSome_iff_exists.mp hlen
    obtain ⟨hle, hrow, hword⟩ := lenRow_of_lenValue hv
    cases he.symm.trans hword
    rw [(decodeLenField_lenBits hle rest).1, hrow]
  · obtain ⟨⟨slot, x, a⟩, hp⟩ := Option.isSome_iff_exists.mp hdx
    obtain ⟨hok, hrow⟩ := dxParts_row hp
    cases he.symm.trans (encode_dxParts hp)
    simp only [decodeDxField, decodeDxParts_dxBits hok rest, hrow, Option.getD_some]

/-! ## No decision string is illegal (R105) -/

/-- Where `n` decisions are left, `read` reads something and takes at most `n`. -/
def ReadsWithin {α : Type} (n : Nat) (read : List Bool → Parse α) : Prop :=
  ∀ ds, n ≤ ds.length → ∃ a rest, read ds = .ok (a, rest) ∧ ds.length ≤ rest.length + n

theorem ReadsWithin.mono {α : Type} {m n : Nat} {read : List Bool → Parse α} (h : ReadsWithin m read) (hmn : m ≤ n) :
    ReadsWithin n read := fun ds hds => by
  obtain ⟨a, rest, hr, hlen⟩ := h ds (hmn.trans hds)
  exact ⟨a, rest, hr, by omega⟩

/-- Nothing more is read. -/
theorem readsWithin_pure {α : Type} (a : α) : ReadsWithin 0 fun ds => (.ok (a, ds) : Parse α) :=
  fun ds _ => ⟨a, ds, rfl, Nat.le_refl _⟩

/-- One decision selects between two readers. -/
theorem ReadsWithin.branch {α : Type} {n : Nat} {read : List Bool → Parse α}
    (h0 : ReadsWithin n fun ds => read (false :: ds)) (h1 : ReadsWithin n fun ds => read (true :: ds)) :
    ReadsWithin (n + 1) read := by
  have both : ∀ b, ReadsWithin n fun ds => read (b :: ds) := Bool.forall_bool.mpr ⟨h0, h1⟩
  rintro (_ | ⟨b, ds⟩) hds
  · cases hds
  · obtain ⟨a, rest, hr, hlen⟩ := both b ds (Nat.le_of_succ_le_succ hds)
    exact ⟨a, rest, hr, by rw [List.length_cons]; omega⟩

/-- First `first`, then `next` on what it read. -/
theorem ReadsWithin.bind {α β : Type} {m n : Nat} {first : List Bool → Parse α} {next : α → List Bool → Parse β}
    {read : List Bool → Parse β} (h1 : ReadsWithin m first)
    (hread : ∀ {ds a rest}, first ds = .ok (a, rest) → read ds = next a rest) (h2 : ∀ a, ReadsWithin n (next a)) :
    ReadsWithin (m + n) read := by
  intro ds hds
  obtain ⟨a, rest, hr, hlen⟩ := h1 ds (by omega)
  obtain ⟨b, rest', hr', hlen'⟩ := h2 a rest (by omega)
  exact ⟨b, rest', (hread hr).trans hr', by omega⟩

theorem readsWithin_readMsb (n acc : Nat) : ReadsWithin n (readMsb n acc) := fun ds hds =>
  ⟨_, ds.drop n, by rw [← readMsb_append n (ds.take n) (ds.drop n) acc (List.length_take_of_le hds),
    List.take_append_drop], by rw [List.length_drop]; omega⟩

theorem readsWithin_readLsb (n : Nat) : ReadsWithin n (readLsb n) := fun ds hds =>
  ⟨_, ds.drop n, by rw [← readLsb_append n (ds.take n) (ds.drop n) (List.length_take_of_le hds),
    List.take_append_drop], by rw [List.length_drop]; omega⟩

/-- A length field is at most ten decisions (R99). -/
theorem readsWithin_decodeLenField : ReadsWithin 10 decodeLenField := by
  have row : ∀ (n : Nat) (make : Nat → Instr) (read : List Bool → Parse Instr),
      (∀ {ds v rest}, readMsb n 0 ds = .ok (v, rest) → read ds = .ok (make v, rest)) → ReadsWithin n read :=
    fun n _ _ hread => (readsWithin_readMsb n 0).bind hread fun _ => readsWithin_pure _
  refine .branch (n := 9) ((row 3 (.lenLow <| .ofNat 3 ·) _ ?_).mono (by decide))
    (.branch (n := 8) ((row 3 (.lenMid <| .ofNat 3 ·) _ ?_).mono (by decide)) (row 8 (.lenHigh <| .ofNat 8 ·) _ ?_))
  all_goals intro ds v rest h; simp only [decodeLenField, h]

theorem readsWithin_decodeLength : ReadsWithin 10 decodeLength :=
  readsWithin_decodeLenField.bind (next := fun f ds => .ok (Config.matchMinLen + f.lenValue?.getD 0, ds))
    (fun h => by simp only [decodeLength, h]) fun _ => readsWithin_pure _

/-- A slot is six decisions, and its extension at most thirty (R101). -/
theorem readsWithin_decodeDxParts : ReadsWithin 36 decodeDxParts := by
  intro ds hds
  obtain ⟨slot, ds1, h1, hl1⟩ := readsWithin_readMsb 6 0 ds (by omega)
  have hslot : slot < 2 ^ 6 := by
    obtain ⟨bs, hlen, -, rfl⟩ := readMsb_ok 6 _ _ h1
    exact hlen ▸ bitsFrom_lt bs
  have hbits : slotBits slot ≤ 30 := by unfold slotBits; omega
  simp only [decodeDxParts, h1]
  split
  · exact ⟨_, _, rfl, by omega⟩
  · split
    · obtain ⟨x, ds2, h2, hl2⟩ := readsWithin_readLsb (slotBits slot) ds1 (by omega)
      rw [h2]
      exact ⟨_, _, rfl, by omega⟩
    · next h14 =>
      have halign : slotBits slot - Config.alignBits + Config.alignBits ≤ 30 := by
        simp only [slotBits, Config.endPosModelIndex, Config.alignBits] at *; omega
      obtain ⟨x, ds2, h2, hl2⟩ := readsWithin_readMsb (slotBits slot - Config.alignBits) 0 ds1 (by omega)
      obtain ⟨a, ds3, h3, hl3⟩ := readsWithin_readLsb Config.alignBits ds2 (by omega)
      rw [h2]
      dsimp only
      rw [h3]
      exact ⟨_, _, rfl, by omega⟩

theorem readsWithin_decodeLiteral (charState : Bool) : ReadsWithin 8 (decodeLiteral charState) :=
  (readsWithin_readMsb 8 0).bind
    (next := fun v ds => .ok (if charState then Instr.lit (BitVec.ofNat 8 v) else .litm (BitVec.ofNat 8 v), ds))
    (fun h => by simp only [decodeLiteral, h]) fun _ => readsWithin_pure _

theorem readsWithin_decodeMatch : ReadsWithin 46 decodeMatch := by
  intro ds hds
  obtain ⟨len, ds1, h1, hl1⟩ := readsWithin_decodeLength ds (by omega)
  obtain ⟨p, ds2, h2, hl2⟩ := readsWithin_decodeDxParts ds1 (by omega)
  simp only [decodeMatch, h1, h2]
  exact ⟨_, _, rfl, by omega⟩

theorem readsWithin_decodeRep (make : Nat → Instr) : ReadsWithin 10 (decodeRep make) :=
  readsWithin_decodeLength.bind (next := fun len ds => .ok (make len, ds)) (fun h => by simp only [decodeRep, h])
    fun _ => readsWithin_pure _

/-- A symbol is at most 48 decisions: two of the tree of R94 and 46 of a match, and every other path is shorter. -/
theorem readsWithin_decodeSymbol (charState : Bool) : ReadsWithin 48 (decodeSymbol charState) := by
  have long : ∀ make, ReadsWithin 43 (decodeRep make) := fun make => (readsWithin_decodeRep make).mono (by decide)
  have repeats : ReadsWithin 46 fun ds => decodeSymbol charState (true :: true :: ds) :=
    .branch (n := 45)
      (.branch (n := 44) ((readsWithin_pure Instr.shortrep).mono (Nat.zero_le _)) ((long .rep0).mono (by decide)))
      (.branch (n := 44) ((long .rep1).mono (by decide)) (.branch (n := 43) (long .rep2) (long .rep3)))
  exact .branch (n := 47) ((readsWithin_decodeLiteral charState).mono (by decide))
    (.branch (n := 46) readsWithin_decodeMatch repeats)

/-- Settles O4. -/
theorem noDecisionStringIsIllegal : Obligations.NoDecisionStringIsIllegal := by
  intro charState ds hds
  obtain ⟨i, rest, h, -⟩ := readsWithin_decodeSymbol charState ds hds
  exact ⟨i, rest, h⟩

/-! ## Five words written out -/

/-- Settles O6: each string is the word of its symbol, and reads back (O1). -/
theorem writtenOutWordsDecode : Obligations.WrittenOutWordsDecode :=
  ⟨symbolWordsDecodeBack (.lit 0x61) true _ [] rfl rfl rfl rfl,
    symbolWordsDecodeBack (.litm 0x61) false _ [] rfl rfl rfl rfl,
    symbolWordsDecodeBack (.newMatch 11 5) true _ [] rfl rfl rfl rfl,
    symbolWordsDecodeBack .shortrep true _ [] rfl rfl rfl rfl,
    symbolWordsDecodeBack (.rep0 2) true _ [] rfl rfl rfl rfl⟩

end Sys2Proof.Machine
end

section
/-! PROOFS. The fetch of a symbol and the word the stream spells (spec/30_encoding.md R90, R93, R107; O7). -/

namespace Sys2Proof.Machine

/-! ## What each field is fetched from -/

theorem lenCells_length (t : LenTable) (ps : Fin 4) (v : Nat) : (lenCells t ps v).length = (lenBits v).length := by
  unfold lenCells lenBits
  split
  · simp
  · split <;> simp

/-- The length field of a match length, in the cells of its table (R99, R151). -/
theorem lenDec_len_eq_ok {inp : List Byte} {t : LenTable} {ps : Fin 4} {len : Nat} {r r' : Rc} :
    (matchLenOk len = true ∧
      spells inp r (lenCells t ps (len - Config.matchMinLen)) (lenBits (len - Config.matchMinLen)) r') ↔
    ∃ v, lenDec inp t ps r = .ok v r' ∧ Config.matchMinLen + v = len := by
  simp only [lenDec_eq_ok, matchLenOk_iff, Config.matchMinLen]
  constructor
  · rintro ⟨⟨hlo, hhi⟩, hs⟩
    exact ⟨len - 2, ⟨by omega, hs⟩, by omega⟩
  · rintro ⟨v, ⟨hv, hs⟩, rfl⟩
    rw [Nat.add_sub_cancel_left]
    exact ⟨by omega, hs⟩

/-- `DIST.DEC`'s decisions are those of the 32-bit value they come to (R186). -/
theorem distParts_eq_ok_iff_word {inp : List Byte} {len : Nat} {v : Word} {r r' : Rc} :
    (∃ p, distParts inp len r = .ok p r' ∧ distWord p.1 p.2.1 p.2.2 = v) ↔
      spells inp r (distanceCells len v.toNat) (distanceBits v.toNat) r' := by
  constructor
  · rintro ⟨p, hp, rfl⟩
    obtain ⟨hok, hs⟩ := distParts_eq_ok.mp hp
    rwa [distanceCells_distWord len hok, distanceBits_distWord hok]
  · intro hs
    exact ⟨dxPartsOf v.toNat, distParts_eq_ok.mpr ⟨(slotDistance_dxPartsOf v.isLt).1, hs⟩, distWord_dxPartsOf v⟩

/-- A repeat is fetched exactly where the stream spells its length field in the cells of `REPLEN` (R204 to R207). -/
theorem fetchRep_eq_ok {inp : List Byte} {ps : Fin 4} {make : Nat → Instr} {r r' : Rc} {i : Instr} :
    fetchRep inp ps make r = .ok i r' ↔
      ∃ len, matchLenOk len = true ∧ i = make len ∧
        spells inp r (lenCells .repLen ps (len - Config.matchMinLen)) (lenBits (len - Config.matchMinLen)) r' := by
  simp only [fetchRep, Res.bind_eq_ok, Res.ok.injEq]
  constructor
  · rintro ⟨v, _, hv, rfl, rfl⟩
    obtain ⟨hok, hs⟩ := lenDec_len_eq_ok.mpr ⟨v, hv, rfl⟩
    exact ⟨_, hok, rfl, hs⟩
  · rintro ⟨len, hok, rfl, hs⟩
    obtain ⟨v, hv, rfl⟩ := lenDec_len_eq_ok.mp ⟨hok, hs⟩
    exact ⟨v, r', hv, rfl, rfl⟩

/-- A match is fetched exactly where the stream spells its length field and its distance (R202, R208). -/
theorem fetchMatch_eq_ok {inp : List Byte} {ps : Fin 4} {r r' : Rc} {i : Instr} :
    fetchMatch inp ps r = .ok i r' ↔
      ∃ (len : Nat) (v : Word), matchLenOk len = true ∧ i = matchSymbol len v ∧
        spells inp r (lenCells .len ps (len - Config.matchMinLen) ++ distanceCells len v.toNat)
          (lenBits (len - Config.matchMinLen) ++ distanceBits v.toNat) r' := by
  simp only [fetchMatch, Res.bind_eq_ok, Res.ok.injEq, spells_append (lenCells_length _ _ _)]
  constructor
  · rintro ⟨v, m, hv, p, _, hp, rfl, rfl⟩
    obtain ⟨hok, hlen⟩ := lenDec_len_eq_ok.mpr ⟨v, hv, rfl⟩
    exact ⟨_, _, hok, rfl, m, hlen, distParts_eq_ok_iff_word.mp ⟨p, hp, rfl⟩⟩
  · rintro ⟨len, w, hok, rfl, m, hlen, hdist⟩
    obtain ⟨v, hv, rfl⟩ := lenDec_len_eq_ok.mp ⟨hok, hlen⟩
    obtain ⟨p, hp, rfl⟩ := distParts_eq_ok_iff_word.mpr hdist
    exact ⟨v, m, hv, p, r', hp, rfl, rfl⟩

/-- In a char state a literal is a `LIT` in the plain tree (R200). -/
theorem fetchLiteral_of_charState {s : State} (h : charState s.seq.state = true) (r : Rc) :
    fetchLiteral s.input s.seq s.ow r =
      (litNormal s.input (litBase s.seq.pos s.seq.prev) r).bind fun b r => .ok (.lit b) r := if_pos h

/-- Else it is a `LITM` against the byte at `REP0`, where that is in range (R201). -/
theorem fetchLiteral_of_not_charState {s : State} (h : charState s.seq.state = false)
    (hrep : s.seq.rep0.toNat < s.ow.total ∧ s.seq.rep0.toNat < Config.windowCap) (r : Rc) :
    fetchLiteral s.input s.seq s.ow r =
      (litMatched s.input (contextOf s).base (contextOf s).mb r).bind fun b r => .ok (.litm b) r := by
  rw [fetchLiteral, h, if_neg Bool.false_ne_true, owGet_eq, if_pos hrep]
  rfl

/-- A `LITM` whose match byte is out of range is not fetched (R174, R201). -/
theorem fetchLiteral_ne_ok {s : State} (h : charState s.seq.state = false)
    (hrep : ¬ (s.seq.rep0.toNat < s.ow.total ∧ s.seq.rep0.toNat < Config.windowCap)) (r r' : Rc) (i : Instr) :
    fetchLiteral s.input s.seq s.ow r ≠ .ok i r' := by
  rw [fetchLiteral, h, if_neg Bool.false_ne_true, owGet_eq, if_neg hrep]
  rintro ⟨⟩

/-- A literal is fetched exactly where it is possible and the stream spells its byte in the cells of its form. -/
theorem fetchLiteral_eq_ok {s : State} {r r' : Rc} {i : Instr} :
    fetchLiteral s.input s.seq s.ow r = .ok i r' ↔
      ∃ b : Byte, symbolPossible s i ∧
        (i = .lit b ∧ spells s.input r (treeCells (contextOf s).base 1 (msbBits 8 b.toNat)) (msbBits 8 b.toNat) r' ∨
          i = .litm b ∧ spells s.input r (matchedCells (contextOf s).base (contextOf s).mb 1 (msbBits 8 b.toNat))
            (msbBits 8 b.toNat) r') := by
  constructor
  · intro h
    cases hc : charState s.seq.state with
    | true =>
      rw [fetchLiteral_of_charState hc] at h
      obtain ⟨b, _, hb, hi⟩ := Res.bind_eq_ok.mp h
      cases hi
      exact ⟨b, hc, .inl ⟨rfl, litNormal_eq_ok.mp hb⟩⟩
    | false =>
      by_cases hrep : s.seq.rep0.toNat < s.ow.total ∧ s.seq.rep0.toNat < Config.windowCap
      · rw [fetchLiteral_of_not_charState hc hrep] at h
        obtain ⟨b, _, hb, hi⟩ := Res.bind_eq_ok.mp h
        cases hi
        exact ⟨b, ⟨hc, hrep⟩, .inr ⟨rfl, litMatched_eq_ok.mp hb⟩⟩
      · exact absurd h (fetchLiteral_ne_ok hc hrep r r' i)
  · rintro ⟨b, hp, ⟨rfl, hs⟩ | ⟨rfl, hs⟩⟩
    · rw [fetchLiteral_of_charState hp]
      exact Res.bind_eq_ok.mpr ⟨b, r', litNormal_eq_ok.mpr hs, rfl⟩
    · obtain ⟨hc, hrep⟩ := hp
      rw [fetchLiteral_of_not_charState hc hrep]
      exact Res.bind_eq_ok.mpr ⟨b, r', litMatched_eq_ok.mpr hs, rfl⟩

/-! ## From the fetch to the word -/

/-- The cells of a match after `isMatch` and `isRep` (R107). -/
theorem symbolCells_matchSymbol (c : Context) (len : Nat) (v : Word) :
    symbolCells c (matchSymbol len v) = some (isMatchCell c.st c.ps) :: some (isRepCell c.st) ::
      (lenCells .len c.ps (len - Config.matchMinLen) ++ distanceCells len v.toNat) :=
  matchSymbol_ind (P := (symbolCells c · = _)) (fun hv => by rw [hv]; rfl) fun _ => rfl

theorem symbolPossible_matchSymbol (s : State) (len : Nat) (v : Word) : symbolPossible s (matchSymbol len v) :=
  matchSymbol_ind (P := symbolPossible s) (fun _ => trivial) fun _ => trivial

/-- `i` is possible; its cells are `first` and its word `pre`, and then what the stream spells from `r` to `r'`. -/
structure SpelledAfter (s : State) (first : List (Option Nat)) (pre : List Bool) (r : Rc) (i : Instr) (r' : Rc) :
    Prop where
  possible : symbolPossible s i
  spelled : ∃ cells ds, symbolCells (contextOf s) i = first ++ cells ∧ encode i = .decisions (pre ++ ds) ∧
    spells s.input r cells ds r'

/-- One decision in a cell, before what follows it. -/
theorem SpelledAfter.decision {s : State} {first : List (Option Nat)} {pre : List Bool} {a : Nat} {b : Bool}
    {r m r' : Rc} {i : Instr} (hb : rcBit s.input a r = .ok b m)
    (h : SpelledAfter s (first ++ [some a]) (pre ++ [b]) m i r') : SpelledAfter s first pre r i r' := by
  obtain ⟨hp, cells, ds, hcells, hword, hs⟩ := h
  exact ⟨hp, some a :: cells, b :: ds, by rw [hcells, List.append_assoc]; rfl,
    by rw [hword, List.append_assoc]; rfl, m, hb, hs⟩

section
variable {s : State} {r r' : Rc} {i : Instr}

theorem fetchLiteral_spelledAfter (h : fetchLiteral s.input s.seq s.ow r = .ok i r') :
    SpelledAfter s [some (isMatchCell (contextOf s).st (contextOf s).ps)] [false] r i r' := by
  obtain ⟨b, hp, ⟨rfl, hs⟩ | ⟨rfl, hs⟩⟩ := fetchLiteral_eq_ok.mp h
  · exact ⟨hp, _, _, rfl, rfl, hs⟩
  · exact ⟨hp, _, _, rfl, rfl, hs⟩

theorem fetchMatch_spelledAfter (h : fetchMatch s.input (contextOf s).ps r = .ok i r') :
    SpelledAfter s [some (isMatchCell (contextOf s).st (contextOf s).ps), some (isRepCell (contextOf s).st)]
      [true, false] r i r' := by
  obtain ⟨len, v, -, rfl, hs⟩ := fetchMatch_eq_ok.mp h
  exact ⟨symbolPossible_matchSymbol s len v, _, _, symbolCells_matchSymbol _ len v, encode_matchSymbol len v, hs⟩

/-- The cells and the word of a repeat are what selects it, `first` and `pre`, and then those of its length field. -/
theorem fetchRep_spelledAfter {make : Nat → Instr} {first : List (Option Nat)} {pre : List Bool}
    (hmake : ∀ len, symbolPossible s (make len) ∧
      symbolCells (contextOf s) (make len) =
        first ++ lenCells .repLen (contextOf s).ps (len - Config.matchMinLen) ∧
      encode (make len) = .decisions (pre ++ lenBits (len - Config.matchMinLen)))
    (h : fetchRep s.input (contextOf s).ps make r = .ok i r') : SpelledAfter s first pre r i r' := by
  obtain ⟨len, -, rfl, hs⟩ := fetchRep_eq_ok.mp h
  obtain ⟨hp, hcells, hword⟩ := hmake len
  exact ⟨hp, _, _, hcells, hword, hs⟩

/-- The repeats of R198 below the decision `isRep`. -/
theorem fetchRepeat_spelledAfter (h : fetchRepeat s.input (contextOf s).st (contextOf s).ps r = .ok i r') :
    SpelledAfter s [some (isMatchCell (contextOf s).st (contextOf s).ps), some (isRepCell (contextOf s).st)]
      [true, true] r i r' := by
  obtain ⟨g0, r0, h0, h⟩ := Res.bind_eq_ok.mp h
  refine .decision h0 ?_
  cases g0
  case false =>
    obtain ⟨long, r1, h1, h⟩ := Res.bind_eq_ok.mp h
    refine .decision h1 ?_
    cases long
    case false => cases h; exact ⟨trivial, [], [], rfl, rfl, rfl⟩
    case true => exact fetchRep_spelledAfter (make := .rep0) (fun _ => ⟨trivial, rfl, rfl⟩) h
  case true =>
    obtain ⟨g1, r1, h1, h⟩ := Res.bind_eq_ok.mp h
    refine .decision h1 ?_
    cases g1
    case false => exact fetchRep_spelledAfter (make := .rep1) (fun _ => ⟨trivial, rfl, rfl⟩) h
    case true =>
      obtain ⟨g2, r2, h2, h⟩ := Res.bind_eq_ok.mp h
      refine .decision h2 ?_
      cases g2
      case false => exact fetchRep_spelledAfter (make := .rep2) (fun _ => ⟨trivial, rfl, rfl⟩) h
      case true => exact fetchRep_spelledAfter (make := .rep3) (fun _ => ⟨trivial, rfl, rfl⟩) h

/-- A fetched symbol is possible, and its whole word is spelled in its cells (R107, R198). -/
theorem fetchSymbol_spelledAfter (h : fetchSymbol s = .ok i r) : SpelledAfter s [] [] s.rc i r := by
  obtain ⟨m, r1, h1, h⟩ := Res.bind_eq_ok.mp h
  refine .decision h1 ?_
  cases m
  case false => exact fetchLiteral_spelledAfter h
  case true =>
    obtain ⟨rep, r2, h2, h⟩ := Res.bind_eq_ok.mp h
    refine .decision h2 ?_
    cases rep
    case false => exact fetchMatch_spelledAfter h
    case true => exact fetchRepeat_spelledAfter h

/-! ## From the word to the fetch -/

/-- An operation goes on with the decision made. -/
theorem rcBit_bind_ok {α : Type} {inp : List Byte} {a : Nat} {b : Bool} {k : Bool → Rc → Res Rc α} {r m r' : Rc}
    {x : α} (hb : rcBit inp a r = .ok b m) (hk : k b m = .ok x r') : (rcBit inp a r).bind k = .ok x r' :=
  Res.bind_eq_ok.mpr ⟨b, m, hb, hk⟩

/-- A possible symbol whose word the stream spells in its cells is fetched: its first decisions select it (R198), the
rest are those of its fields. -/
theorem fetchSymbol_of_spells {ds : List Bool} (hi : isSymbol i = true) (hw : i.wellFormed = true)
    (hp : symbolPossible s i) (he : encode i = .decisions ds)
    (hs : spells s.input s.rc (symbolCells (contextOf s) i) ds r) : fetchSymbol s = .ok i r := by
  cases i
  case lit b =>
    cases he
    obtain ⟨r1, h1, hs⟩ := hs
    exact rcBit_bind_ok h1 (fetchLiteral_eq_ok.mpr ⟨b, hp, .inl ⟨rfl, hs⟩⟩)
  case litm b =>
    cases he
    obtain ⟨r1, h1, hs⟩ := hs
    exact rcBit_bind_ok h1 (fetchLiteral_eq_ok.mpr ⟨b, hp, .inr ⟨rfl, hs⟩⟩)
  case newMatch len dist =>
    cases he
    obtain ⟨r1, h1, r2, h2, hs⟩ := hs
    simp only [Instr.wellFormed, Bool.and_eq_true, bne_iff_ne] at hw
    exact rcBit_bind_ok h1 (rcBit_bind_ok h2
      (fetchMatch_eq_ok.mpr ⟨len, dist, hw.1, (matchSymbol_of_ne hw.2).symm, hs⟩))
  case eos len =>
    cases he
    obtain ⟨r1, h1, r2, h2, hs⟩ := hs
    exact rcBit_bind_ok h1 (rcBit_bind_ok h2
      (fetchMatch_eq_ok.mpr ⟨len, _, hw, (matchSymbol_endMarker len).symm, hs⟩))
  case shortrep =>
    cases he
    obtain ⟨r1, h1, r2, h2, r3, h3, r4, h4, rfl⟩ := hs
    exact rcBit_bind_ok h1 (rcBit_bind_ok h2 (rcBit_bind_ok h3 (rcBit_bind_ok h4 rfl)))
  case rep0 len =>
    cases he
    obtain ⟨r1, h1, r2, h2, r3, h3, r4, h4, hs⟩ := hs
    exact rcBit_bind_ok h1 (rcBit_bind_ok h2 (rcBit_bind_ok h3 (rcBit_bind_ok h4
      (fetchRep_eq_ok.mpr ⟨len, hw, rfl, hs⟩))))
  case rep1 len =>
    cases he
    obtain ⟨r1, h1, r2, h2, r3, h3, r4, h4, hs⟩ := hs
    exact rcBit_bind_ok h1 (rcBit_bind_ok h2 (rcBit_bind_ok h3 (rcBit_bind_ok h4
      (fetchRep_eq_ok.mpr ⟨len, hw, rfl, hs⟩))))
  case rep2 len =>
    cases he
    obtain ⟨r1, h1, r2, h2, r3, h3, r4, h4, r5, h5, hs⟩ := hs
    exact rcBit_bind_ok h1 (rcBit_bind_ok h2 (rcBit_bind_ok h3 (rcBit_bind_ok h4 (rcBit_bind_ok h5
      (fetchRep_eq_ok.mpr ⟨len, hw, rfl, hs⟩)))))
  case rep3 len =>
    cases he
    obtain ⟨r1, h1, r2, h2, r3, h3, r4, h4, r5, h5, hs⟩ := hs
    exact rcBit_bind_ok h1 (rcBit_bind_ok h2 (rcBit_bind_ok h3 (rcBit_bind_ok h4 (rcBit_bind_ok h5
      (fetchRep_eq_ok.mpr ⟨len, hw, rfl, hs⟩)))))
  all_goals cases hi

end

/-- Settles O7. -/
theorem fetchReadsWhatTheStreamSpells : Obligations.FetchReadsWhatTheStreamSpells := by
  intro s i r
  constructor
  · intro h
    have fetched := fetchSymbolFrom_ok h
    obtain ⟨hp, cells, ds, rfl, hword, hs⟩ := fetchSymbol_spelledAfter h
    exact ⟨fetched.symbol, fetched.wellFormed, hp, ds, hword, hs⟩
  · rintro ⟨hi, hw, hp, ds, he, hs⟩
    exact fetchSymbol_of_spells hi hw hp he hs

end Sys2Proof.Machine
end

section
/-! PROOFS. The rows that expand the length and the distance, and the interfaces that read them off the stream
(spec/30_encoding.md R99, R101; spec/45_distance_decoder.md R186; log 9; O26, O27, O52). -/

namespace Sys2Proof.Machine

/-! ## What a row returns -/

/-- A length row returns the field's value (R151). -/
theorem exec_lenRow {i : Instr} {v : Nat} (h : i.lenValue? = some v) (s : State) :
    exec i s = .next { s with result := .number v } := by
  cases i
  case lenLow => cases h; rfl
  case lenMid => cases h; rfl
  case lenHigh => cases h; rfl
  all_goals cases h

/-- Settles O26, row by row. -/
theorem lengthRowsReturnValue : Obligations.LengthRowsReturnValue := fun s =>
  ⟨fun _ => exec_lenRow rfl s, fun _ => exec_lenRow rfl s, fun _ => exec_lenRow rfl s⟩

/-- A slot row is `DIST.DEC`'s answer for the value of its parts (R186). -/
theorem exec_dxRow {i : Instr} {slot x a : Nat} (h : i.dxParts? = some (slot, x, a)) (s : State) :
    exec i s = distanceOutcome (distWord slot x a) s := by
  cases i
  all_goals cases h
  all_goals rfl

/-! ## `DIST.DEC`'s three answers for a value (R186, R253) -/

theorem distanceOutcome_endMarker (s : State) :
    distanceOutcome 0xFFFFFFFF s = .next { s with result := .endMarker } := rfl

theorem distanceOutcome_distance {v : Word} (h : v.toNat < 2 ^ 31) (s : State) :
    distanceOutcome v s = .next { s with result := .distance v } := by
  unfold distanceOutcome
  rcases distResult_cases v s with ⟨rfl, -⟩ | ⟨-, hd⟩ | ⟨hle, -⟩
  · exact absurd h (by decide)
  · rw [hd]
  · omega

theorem distanceOutcome_invalid {v : Word} (h : 2 ^ 31 ≤ v.toNat) (hne : v ≠ 0xFFFFFFFF) (s : State) :
    ∃ t, distanceOutcome v s = .next t ∧ Faulted .invalidDistance s t := by
  unfold distanceOutcome
  rcases distResult_cases v s with ⟨rfl, -⟩ | ⟨hlt, -⟩ | ⟨-, -, hd⟩
  · exact absurd rfl hne
  · omega
  · rw [hd]; exact ⟨_, rfl, faulted_rc _ s s.rc⟩

/-! ## The distance of a slot in numbers (R101) -/

theorem slotBase_eq_div_mod {slot : Nat} (h : 4 ≤ slot) : slotBase slot = (2 + slot % 2) * 2 ^ (slot / 2 - 1) := by
  conv_lhs => rw [← Nat.div_add_mod slot 2]
  exact slotBase_eq (by omega) (by omega)

theorem slotDistance_of_low {slot : Nat} (h4 : slot < 4) (x a : Nat) : slotDistance slot x a = slot := if_pos h4

/-- Slots 4 to 13: the reverse tree value is added to the slot's smallest distance. -/
theorem slotDistance_of_mid {slot x a : Nat} (h4 : 4 ≤ slot) (h14 : slot < 14) (h : dxPartsOk (slot, x, a)) :
    x < 2 ^ (slot / 2 - 1) ∧ slotDistance slot x a = (2 + slot % 2) * 2 ^ (slot / 2 - 1) + x := by
  have hn4 : ¬ slot < Config.startPosModelIndex := Nat.not_lt.mpr h4
  have h14' : slot < Config.endPosModelIndex := h14
  obtain ⟨-, h⟩ := h
  rw [if_neg hn4, if_pos h14'] at h
  exact ⟨h.1, by rw [slotDistance, if_neg hn4, if_pos h14', slotBase_eq_div_mod h4]⟩

/-- Slots from 14 up: the direct bits stand above four alignment bits. -/
theorem slotDistance_of_high {slot x a : Nat} (h14 : 14 ≤ slot) (h : dxPartsOk (slot, x, a)) :
    x < 2 ^ (slot / 2 - 5) ∧ a < 16 ∧
      slotDistance slot x a = (2 + slot % 2) * 2 ^ (slot / 2 - 1) + 16 * x + a := by
  have hn4 : ¬ slot < Config.startPosModelIndex := Nat.not_lt.mpr (le_trans (by decide) h14)
  have hn14 : ¬ slot < Config.endPosModelIndex := Nat.not_lt.mpr h14
  obtain ⟨-, h⟩ := h
  rw [if_neg hn4, if_neg hn14] at h
  refine ⟨h.1, h.2, ?_⟩
  rw [slotDistance, if_neg hn4, if_neg hn14, slotBase_eq_div_mod (by omega), Nat.shiftLeft_eq, Nat.mul_comm x]
  rfl

/-- A slot of 4 or more spells one of the `2 ^ (slot / 2 - 1)` distances from its smallest up (R187). -/
theorem slotDistance_bounds {slot x a : Nat} (h4 : 4 ≤ slot) (h : dxPartsOk (slot, x, a)) :
    (2 + slot % 2) * 2 ^ (slot / 2 - 1) ≤ slotDistance slot x a ∧
      slotDistance slot x a < (3 + slot % 2) * 2 ^ (slot / 2 - 1) := by
  have hsucc : (3 + slot % 2) * 2 ^ (slot / 2 - 1) = (2 + slot % 2) * 2 ^ (slot / 2 - 1) + 2 ^ (slot / 2 - 1) := by ring
  by_cases h14 : slot < 14
  · obtain ⟨hx, hd⟩ := slotDistance_of_mid h4 h14 h
    omega
  · obtain ⟨hx, ha, hd⟩ := slotDistance_of_high (by omega) h
    have hsplit : 2 ^ (slot / 2 - 1) = 2 ^ (slot / 2 - 5) * 2 ^ 4 := by rw [← Nat.pow_add]; congr 1; omega
    omega

/-- The slots below 62 are those whose distances are below 2^31, the valid ones (R186). -/
theorem slotDistance_lt_iff {slot x a : Nat} (h : dxPartsOk (slot, x, a)) :
    slotDistance slot x a < 2 ^ 31 ↔ slot < 62 := by
  have h64 : slot < 64 := h.1
  by_cases h4 : slot < 4
  · rw [slotDistance_of_low h4]; omega
  · obtain ⟨hlo, hhi⟩ := slotDistance_bounds (by omega) h
    by_cases h62 : slot < 62
    · have hpow : (3 + slot % 2) * 2 ^ (slot / 2 - 1) ≤ 4 * 2 ^ 29 :=
        Nat.mul_le_mul (by omega) (Nat.pow_le_pow_right (by decide) (by omega))
      omega
    · have hpow : 2 * 2 ^ 30 ≤ (2 + slot % 2) * 2 ^ (slot / 2 - 1) :=
        Nat.mul_le_mul (by omega) (Nat.pow_le_pow_right (by decide) (by omega))
      omega

theorem distWord_toNat {slot x a : Nat} (h : dxPartsOk (slot, x, a)) :
    (distWord slot x a).toNat = slotDistance slot x a := by
  rw [distWord, BitVec.toNat_ofNat, Nat.mod_eq_of_lt (dxPartsOf_slotDistance h).2]

/-- A slot row below 62 returns the distance it spells. -/
theorem exec_dxRow_distance {i : Instr} {slot x a : Nat} (h : i.dxParts? = some (slot, x, a)) (h62 : slot < 62)
    (s : State) : exec i s = .next { s with result := .distance (distWord slot x a) } := by
  have hok := (dxParts_row h).1
  rw [exec_dxRow h, distanceOutcome_distance]
  rw [distWord_toNat hok]
  exact (slotDistance_lt_iff hok).mpr h62

/-- Settles O27, by the three kinds of slot; from slot 62 up the value is not below 2^31. -/
theorem slotRowsReturnDistance : Obligations.SlotRowsReturnDistance := by
  intro i slot x a s h
  have hok := (dxParts_row h).1
  refine ⟨hok.1, fun h4 => ?_, fun h4 h14 => ?_, fun h14 => ?_⟩
  · rw [exec_dxRow_distance h (by omega), distWord, slotDistance_of_low h4]
  · obtain ⟨hx, hd⟩ := slotDistance_of_mid h4 h14 hok
    exact ⟨hx, by rw [exec_dxRow_distance h (by omega), distWord, hd]⟩
  · obtain ⟨hx, ha, hd⟩ := slotDistance_of_high h14 hok
    refine ⟨hx, ha, fun h62 => ?_, fun hv => ?_, fun h62 hv => ?_⟩
    · rw [exec_dxRow_distance h h62, distWord, hd]
    · rw [exec_dxRow h, distWord, hd, hv]
      exact distanceOutcome_endMarker s
    · rw [exec_dxRow h]
      have hnat := distWord_toNat hok
      refine distanceOutcome_invalid ?_ (fun he => hv ?_) s
      · rw [hnat]
        exact Nat.not_lt.mp (mt (slotDistance_lt_iff hok).mp (by omega))
      · rw [← hd, ← hnat, he]; rfl

/-! ## A field read off the stream is the row that spells it (log 9) -/

theorem toNat_ofNat_of_lt {w x : Nat} (h : x < 2 ^ w) : (BitVec.ofNat w x).toNat = x := by
  rw [BitVec.toNat_ofNat, Nat.mod_eq_of_lt h]

/-- Parts a slot row can have are those of a row of the table (R101). -/
theorem exists_dxRow {slot x a : Nat} (h : dxPartsOk (slot, x, a)) :
    ∃ i, dxFieldOf slot x a = some i ∧ i.dxParts? = some (slot, x, a) := by
  obtain ⟨h64, h⟩ := h
  simp only at h64
  split at h
  · next h4 =>
    obtain ⟨rfl, rfl⟩ : x = 0 ∧ a = 0 := h
    simp only [Config.startPosModelIndex] at h4
    interval_cases slot
    all_goals exact ⟨_, rfl, rfl⟩
  · next h4 =>
    split at h
    · next h14 =>
      obtain ⟨hx, rfl⟩ : x < 2 ^ slotBits slot ∧ a = 0 := h
      simp only [Config.startPosModelIndex, Config.endPosModelIndex, Nat.not_lt] at h4 h14
      interval_cases slot
      all_goals exact ⟨_, rfl, congrArg (fun y => some (_, y, 0)) (toNat_ofNat_of_lt hx)⟩
    · next h14 =>
      obtain ⟨hx, ha⟩ : x < 2 ^ (slotBits slot - Config.alignBits) ∧ a < 2 ^ Config.alignBits := h
      simp only [Config.endPosModelIndex, Nat.not_lt] at h14
      interval_cases slot
      all_goals exact ⟨_, rfl, congrArg₂ (fun y z => some (_, y, z)) (toNat_ofNat_of_lt hx) (toNat_ofNat_of_lt ha)⟩

/-- A length field read off the stream is the row of the value spelled, and runs (R99, R151). -/
theorem runFetched_lenField {s : State} {t : LenTable} {ps : Fin 4} {v : Nat} {r : Rc} (hv : v ≤ 271)
    (hs : spells s.input s.rc (lenCells t ps v) (lenBits v) r) :
    runFetched (fetchLenField s.input t ps s.rc) s = .next { s with rc := r, result := .number v } := by
  have hf : fetchLenField s.input t ps s.rc = .ok (lenFieldOf v) r :=
    Res.bind_eq_ok.mpr ⟨v, r, lenDec_eq_ok.mpr ⟨hv, hs⟩, rfl⟩
  rw [hf]
  exact exec_lenRow (decodeLenField_lenBits hv []).2 { s with rc := r }

/-- A slot and extension read off the stream are the row of the value spelled, and run (R101, R186). -/
theorem runFetched_dxField {s : State} {len : Nat} {v : Word} {r : Rc}
    (hs : spells s.input s.rc (distanceCells len v.toNat) (distanceBits v.toNat) r) :
    runFetched (fetchDxField s.input len s.rc) s = distanceOutcome v { s with rc := r } := by
  obtain ⟨p, hp, rfl⟩ := distParts_eq_ok_iff_word.mpr hs
  obtain ⟨i, hrow, hparts⟩ := exists_dxRow (distParts_eq_ok.mp hp).1
  have hf : fetchDxField s.input len s.rc = .ok i r :=
    Res.bind_eq_ok.mpr ⟨p, r, hp, by rw [hrow]; rfl⟩
  rw [hf]
  exact exec_dxRow hparts { s with rc := r }

/-- A step with an event pending handles the oldest one. -/
theorem step_of_event {s : State} {e : Event} {es : List Event} (h : s.events = e :: es) :
    step s = handle e { s with events := es } := by
  unfold step nextStep
  rw [h]

/-- Settles O52, event by event. -/
theorem unitInterfaceRunsTheInstruction : Obligations.UnitInterfaceRunsTheInstruction := by
  refine ⟨fun s i es he => ?_, fun s t ps v r es he hv hs => ?_, fun s len v r es he hv hs => ?_⟩
  · exact step_of_event he
  · rw [step_of_event he]
    exact runFetched_lenField (s := { s with events := es }) hv hs
  · rw [step_of_event he]
    exact (runFetched_dxField (s := { s with events := es }) hs).trans (distanceOutcome_distance hv _)

end Sys2Proof.Machine
end

section
/-! PROOFS. The operations of the range decoder at its own interface (spec/40_range_decoder.md R121 to R127; O12 to
O15). -/

namespace Sys2Proof.Machine

/-! ## What the four instructions run (log 9) -/

theorem exec_rcInit (s : State) : exec .rcInit s = rcOutcome s (fun _ => .none) (rcInit s.input s.rc) := rfl

theorem exec_rcNorm (s : State) : exec .rcNorm s = rcOutcome s (fun _ => .none) (rcNorm s.input s.rc) := rfl

theorem exec_rcBit (a : Nat) (s : State) : exec (.rcBit a) s = rcOutcome s .bit (rcBit s.input a s.rc) := rfl

theorem exec_rcDirect (n : Nat) (s : State) :
    exec (.rcDirect n) s = rcOutcome s .number (rcDirect s.input n s.rc) := rfl

/-! ## `RC.INIT` (R121) -/

/-- A word put below another, in numbers. -/
theorem append_toNat {m n : Nat} (x : BitVec m) (y : BitVec n) :
    (x ++ y).toNat = x.toNat * 2 ^ n + y.toNat := by
  rw [BitVec.toNat_append, ← Nat.shiftLeft_add_eq_or_of_lt y.isLt, Nat.shiftLeft_eq]

/-- Of five bytes shifted into `CODE` the first is lost and the others are all of it. -/
theorem primed_eq_append (b0 b1 b2 b3 b4 : Byte) :
    [b0, b1, b2, b3, b4].foldl shiftIn 0 = (b1 ++ b2 ++ b3 ++ b4 : Word) := by
  apply BitVec.eq_of_toNat_eq
  have h1 := b1.isLt
  have h2 := b2.isLt
  have h3 := b3.isLt
  have h4 := b4.isLt
  simp only [List.foldl_cons, List.foldl_nil, shiftIn_toNat, append_toNat]
  omega

theorem rcInit_of_drop {inp : List Byte} {r : Rc} {b0 b1 b2 b3 b4 : Byte} {rest : List Byte}
    (h : inp.drop r.inPos = b0 :: b1 :: b2 :: b3 :: b4 :: rest) :
    rcInit inp r = .ok ()
      { r with range := 0xFFFFFFFF, code := b1 ++ b2 ++ b3 ++ b4, inPos := r.inPos + 5 } := by
  rcases rcInit_cases inp r with ⟨_, hi⟩ | ⟨hlt, _⟩
  · rw [hi, h, ← primed_eq_append b0]
    rfl
  · have hlen := congrArg List.length h
    simp only [List.length_drop, List.length_cons] at hlen
    omega

theorem rcInit_of_short {inp : List Byte} {r : Rc} (h : inp.length < r.inPos + 5) :
    ∃ m, rcInit inp r = .raise .truncatedInput m := by
  rcases rcInit_cases inp r with ⟨h5, _⟩ | ⟨_, hi⟩
  · omega
  · exact hi

/-- Settles O12. -/
theorem rcInitPrimes : Obligations.RcInitPrimes := by
  refine ⟨fun s b0 b1 b2 b3 b4 rest h => ?_, fun s h => ?_⟩
  · rw [exec_rcInit]
    exact rcOutcome_ok (rcInit_of_drop h)
  · obtain ⟨m, hm⟩ := rcInit_of_short h
    rw [exec_rcInit]
    exact rcOutcome_raise hm

/-! ## `RC.NORM` (R122) -/

theorem afterNorm_of_ge {r : Rc} (h : 2 ^ 24 ≤ r.range.toNat) (inp : List Byte) : afterNorm inp r = some r := if_pos h

theorem afterNorm_of_byte {inp : List Byte} {r : Rc} {b : Byte} (h : r.range.toNat < 2 ^ 24)
    (hb : inp[r.inPos]? = some b) :
    afterNorm inp r =
      some { r with range := r.range <<< 8, code := (r.code <<< 8) ||| b.setWidth 32, inPos := r.inPos + 1 } := by
  rw [afterNorm, if_neg (Nat.not_le.mpr h), hb]

theorem afterNorm_of_exhausted {inp : List Byte} {r : Rc} (h : r.range.toNat < 2 ^ 24)
    (hend : inp.length ≤ r.inPos) : afterNorm inp r = none := by
  rw [afterNorm, if_neg (Nat.not_le.mpr h), List.getElem?_eq_none hend]

/-- Settles O13, by the three things `RC.NORM` can do. -/
theorem rcNormRenormalises : Obligations.RcNormRenormalises := by
  refine ⟨fun s h => ?_, fun s b h hb => ?_, fun s h hend => ?_⟩
  all_goals rw [exec_rcNorm]
  · exact rcOutcome_ok (rcNorm_of_afterNorm (afterNorm_of_ge h s.input))
  · exact rcOutcome_ok (rcNorm_of_afterNorm (afterNorm_of_byte h hb))
  · exact rcOutcome_raise (rcNorm_of_afterNorm_none (afterNorm_of_exhausted h hend))

/-! ## One decision: its core in numbers, then one `RC.NORM` (R124, R126) -/

/-- The outcome of one decision, by what the one `RC.NORM` after its core does. -/
theorem decideAt_outcome {s : State} {cell : Option Nat} {bit : Bool} {m : Rc} (give : Bool → Result)
    (hc : ∀ a, cell = some a → a < Config.pmemSize) (hcore : decideCore cell s.rc = (bit, m)) :
    (∀ r, afterNorm s.input m = some r →
      rcOutcome s give (decideAt s.input cell s.rc) = .next { s with rc := r, result := give bit }) ∧
    (afterNorm s.input m = none →
      ∃ t, rcOutcome s give (decideAt s.input cell s.rc) = .next t ∧ Faulted .truncatedInput s t) := by
  rw [decideAt_eq s.input cell s.rc hc, hcore]
  refine ⟨fun r h => ?_, fun h => ?_⟩
  · rw [rcNorm_of_afterNorm h]
    rfl
  · rw [rcNorm_of_afterNorm_none h]
    exact rcOutcome_raise rfl

theorem ofNat_toNat_sub {x y : Word} (h : y ≤ x) : BitVec.ofNat 32 (x.toNat - y.toNat) = x - y := by
  rw [← BitVec.toNat_sub_of_le h, BitVec.ofNat_toNat, BitVec.setWidth_eq]

/-- An update of a cell never leaves the 11 bits of the cell, whatever the cell held (R124). -/
theorem toNat_probAfter (bit : Bool) (p : Prob) :
    (if bit then probAfter1 p else probAfter0 p).toNat =
      if bit then p.toNat - p.toNat / 32 else p.toNat + (2048 - p.toNat) / 32 := by
  have hp := p.isLt
  cases bit
  · change (BitVec.ofNat 11 (p.toNat + (2048 - p.toNat) >>> 5)).toNat = _
    rw [BitVec.toNat_ofNat, Nat.shiftRight_eq_div_pow]
    exact Nat.mod_eq_of_lt (by omega)
  · change (BitVec.ofNat 11 (p.toNat - p.toNat >>> 5)).toNat = _
    rw [BitVec.toNat_ofNat, Nat.shiftRight_eq_div_pow]
    exact Nat.mod_eq_of_lt (by omega)

/-- An adaptive decision before its `RC.NORM`, in numbers (R124). -/
theorem decideCore_some_eq (a : Nat) (r : Rc) :
    let p := pmemRead r.pmem a
    let bound := r.range.toNat / 2048 * p.toNat
    let bit := decide (bound ≤ r.code.toNat)
    decideCore (some a) r =
      (bit, { range := BitVec.ofNat 32 (if bit then r.range.toNat - bound else bound)
              code := BitVec.ofNat 32 (if bit then r.code.toNat - bound else r.code.toNat)
              inPos := r.inPos
              pmem := pmemWrite r.pmem a (if bit then probAfter1 p else probAfter0 p) }) := by
  have hle : rcBound r.range (pmemRead r.pmem a) ≤ r.range := BitVec.le_def.mpr (rcBound_le _ _)
  simp only [decideCore, ← rcBound_toNat, ← BitVec.le_def]
  by_cases hbit : rcBound r.range (pmemRead r.pmem a) ≤ r.code
  · rw [if_neg (BitVec.not_lt.mpr hbit)]
    simp [hbit, ofNat_toNat_sub hbit, ofNat_toNat_sub hle]
  · rw [if_pos (BitVec.not_le.mp hbit)]
    simp [hbit]

/-- A direct decision before its `RC.NORM`, in numbers (R126). -/
theorem decideCore_none_eq (r : Rc) :
    let half := r.range.toNat / 2
    let bit := decide (half ≤ r.code.toNat)
    decideCore none r =
      (bit, { r with range := BitVec.ofNat 32 half
                     code := BitVec.ofNat 32 (if bit then r.code.toNat - half else r.code.toNat) }) := by
  have hhalf : r.range.toNat / 2 = (r.range >>> 1).toNat := by
    rw [BitVec.toNat_ushiftRight, Nat.shiftRight_eq_div_pow]
  simp only [decideCore, hhalf, ← BitVec.le_def]
  by_cases hbit : r.range >>> 1 ≤ r.code
  · simp [hbit, ofNat_toNat_sub hbit, -BitVec.toNat_ushiftRight]
  · simp [hbit, -BitVec.toNat_ushiftRight]

/-- Settles O14: the core of the decision in numbers, then its `RC.NORM`. -/
theorem rcBitDecides : Obligations.RcBitDecides := by
  intro s a ha hwf p bound bit
  refine ⟨pmemWrite s.rc.pmem a
    (if bit then probAfter1 (pmemRead s.rc.pmem a) else probAfter0 (pmemRead s.rc.pmem a)), fun b hb => ?_, ?_, ?_⟩
  · rw [pmemRead_pmemWrite _ hwf, if_neg hb]
  · rw [pmemRead_pmemWrite _ hwf, if_pos rfl]
    exact toNat_probAfter bit _
  · rintro m rfl
    rw [exec_rcBit]
    exact decideAt_outcome (cell := some a) .bit (by rintro _ ⟨⟩; exact ha) (decideCore_some_eq a s.rc)

/-! ## `RC.DIRECT` (R126) -/

/-- `RC.DIRECT(1)` returns its one direct decision as a number. -/
theorem exec_rcDirect_one (s : State) :
    exec (.rcDirect 1) s = rcOutcome s (fun b => .number b.toNat) (decideAt s.input none s.rc) := by
  rw [exec_rcDirect, rcDirect, directBits, decideAt]
  cases directBit s.input s.rc with
  | ok b r => simp only [Res.bind, directBits, rcOutcome, Nat.mul_zero, Nat.zero_add]
  | raise c r => rfl
  | stop f => rfl

theorem rcNorm_inPos_le {inp : List Byte} {r r' : Rc} {u : Unit} (h : rcNorm inp r = .ok u r') :
    r'.inPos ≤ r.inPos + 1 := by
  rcases rcNorm_cases inp r with ⟨_, hn⟩ | ⟨_, b, _, hn⟩ | ⟨_, _, hn⟩ <;> cases hn.symm.trans h
  · exact Nat.le_succ _
  · exact Nat.le_refl _

/-- A direct decision takes at most one byte and touches no cell (R126, R122). -/
theorem directBit_frame {inp : List Byte} {r r' : Rc} {b : Bool} (h : directBit inp r = .ok b r') :
    r'.inPos ≤ r.inPos + 1 ∧ r'.pmem = r.pmem := by
  obtain ⟨-, hn⟩ := decideAt_eq_ok (cell := none) h
  have hpos := rcNorm_inPos_le hn
  have hpmem := rcNorm_pmem hn
  rw [decideCore_none_eq] at hpos hpmem
  exact ⟨hpos, hpmem⟩

/-- All that the iterations of `RC.DIRECT` can do: complete with every cell as before, or find `IN` exhausted, which
takes fewer bytes left than iterations (R126, R252). -/
theorem directBits_cases (inp : List Byte) : ∀ (n acc : Nat) (r : Rc),
    (∃ v r', directBits inp n acc r = .ok v r' ∧ r'.pmem = r.pmem) ∨
      inp.length < r.inPos + n ∧ ∃ m, directBits inp n acc r = .raise .truncatedInput m
  | 0, acc, r => Or.inl ⟨acc, r, rfl, rfl⟩
  | n + 1, acc, r => by
    rw [directBits]
    rcases decideAt_cases inp none r (by rintro _ ⟨⟩) with ⟨b, m, hd⟩ | ⟨m, hd, hend⟩
    · obtain ⟨hpos, hpmem⟩ := directBit_frame hd
      rw [show directBit inp r = .ok b m from hd]
      rcases directBits_cases inp n (2 * acc + b.toNat) m with ⟨v, r', hv, hr'⟩ | ⟨hlt, m', hm'⟩
      · exact Or.inl ⟨v, r', hv, hr'.trans hpmem⟩
      · exact Or.inr ⟨by omega, m', hm'⟩
    · rw [show directBit inp r = .raise .truncatedInput m from hd]
      exact Or.inr ⟨by omega, m, rfl⟩

/-- Settles O15: one bit by its core, `n` bits by what makes `RC.DIRECT` return and by all it can do. -/
theorem rcDirectReadsNumber : Obligations.RcDirectReadsNumber := by
  refine ⟨fun s m hm => ?_, fun n v s r hv hs => ?_, fun n s hlen => ?_, fun n s hnone => ?_, fun s => rfl⟩
  · subst hm
    rw [exec_rcDirect_one]
    exact decideAt_outcome (fun b => .number b.toNat) (by rintro _ ⟨⟩) (decideCore_none_eq s.rc)
  · exact rcOutcome_ok (rcDirect_eq_ok.mpr ⟨hv, hs⟩)
  · rcases directBits_cases s.input n 0 s.rc with ⟨v, r, hd, hpmem⟩ | ⟨hlt, _⟩
    · exact ⟨v, r, (rcDirect_eq_ok.mp hd).1, rcOutcome_ok hd, hpmem⟩
    · omega
  · rcases directBits_cases s.input n 0 s.rc with ⟨v, r, hd, _⟩ | ⟨_, m, hd⟩
    · obtain ⟨hv, hs⟩ := rcDirect_eq_ok.mp hd
      exact absurd hs (hnone v r hv)
    · exact rcOutcome_raise hd

end Sys2Proof.Machine
end

section
/-! PROOFS. The bit trees at their own interface (spec/41_bit_tree.md R142 to R144; O19 to O21). -/

namespace Sys2Proof.Machine

/-! ## Operations that complete on a byte for each decision (R142, R143, R252) -/

/-- From `r` the operation completes and takes at most `k` bytes, or finds `IN` exhausted with fewer than `k` left. -/
def TakesAtMost {α : Type} (inp : List Byte) (k : Nat) (r : Rc) (x : Res Rc α) : Prop :=
  (∃ a r', x = .ok a r' ∧ r'.inPos ≤ r.inPos + k) ∨
    inp.length < r.inPos + k ∧ ∃ m, x = .raise .truncatedInput m

section
variable {α β : Type} {inp : List Byte} {j k : Nat} {r : Rc} {x : Res Rc α}

theorem TakesAtMost.ok (a : α) (r : Rc) : TakesAtMost inp 0 r (.ok a r) := Or.inl ⟨a, r, rfl, Nat.le_refl _⟩

theorem TakesAtMost.bind {f : α → Rc → Res Rc β} (h : TakesAtMost inp j r x)
    (hf : ∀ a r', TakesAtMost inp k r' (f a r')) : TakesAtMost inp (k + j) r (x.bind f) := by
  rcases h with ⟨a, r', rfl, hpos⟩ | ⟨hlt, m, rfl⟩
  · rcases hf a r' with ⟨b, r'', hb, hpos'⟩ | ⟨hlt, m, hm⟩
    · exact Or.inl ⟨b, r'', hb, by omega⟩
    · exact Or.inr ⟨by omega, m, hm⟩
  · exact Or.inr ⟨by omega, m, rfl⟩

/-- An operation followed by a computation on what it returned. -/
theorem TakesAtMost.map {f : α → β} (h : TakesAtMost inp k r x) :
    TakesAtMost inp k r (x.bind fun a r => .ok (f a) r) := by
  rw [← Nat.zero_add k]
  exact h.bind fun a r' => .ok (f a) r'

/-- At a unit's own interface, what takes at most `k` bytes returns where `k` bytes are left. -/
theorem TakesAtMost.returns {s : State} (give : α → Result) (h : TakesAtMost s.input k s.rc x)
    (hlen : s.rc.inPos + k ≤ s.input.length) :
    ∃ a r, x = .ok a r ∧ rcOutcome s give x = .next { s with rc := r, result := give a } := by
  rcases h with ⟨a, r, hx, _⟩ | ⟨hlt, _⟩
  · exact ⟨a, r, hx, rcOutcome_ok hx⟩
  · omega

/-- At a unit's own interface, what returns nothing faults with `TRUNCATED_INPUT`. -/
theorem TakesAtMost.faulted {s : State} (give : α → Result) (h : TakesAtMost s.input k s.rc x)
    (hnone : ∀ a r, x ≠ .ok a r) : ∃ t, rcOutcome s give x = .next t ∧ Faulted .truncatedInput s t := by
  rcases h with ⟨a, r', hx, _⟩ | ⟨_, m, hx⟩
  · exact absurd hx (hnone a r')
  · exact rcOutcome_raise hx

end

theorem decideCore_inPos (cell : Option Nat) (r : Rc) : (decideCore cell r).2.inPos = r.inPos := by
  cases cell <;> simp only [decideCore] <;> split <;> rfl

/-- A decision takes at most one byte (R122, R124). -/
theorem rcBit_takesAtMost {inp : List Byte} {a : Nat} (r : Rc) (ha : a < Config.pmemSize) :
    TakesAtMost inp 1 r (rcBit inp a r) := by
  rcases decideAt_cases inp (some a) r (by rintro _ ⟨⟩; exact ha) with ⟨b, m, hd⟩ | ⟨m, hd, hend⟩
  · have hpos := rcNorm_inPos_le (decideAt_eq_ok hd).2
    rw [decideCore_inPos] at hpos
    exact Or.inl ⟨b, m, hd, hpos⟩
  · exact Or.inr ⟨Nat.lt_succ_of_le hend, m, hd⟩

/-! ## The walks down a tree (R140) -/

section
variable {base n : Nat} (hb : base + 2 ^ n ≤ Config.pmemSize)
include hb

/-- The `k` decisions left below node `m` of a tree inside `PMEM` all have their cells. -/
theorem walkTree_takesAtMost (inp : List Byte) : ∀ (k m : Nat) (r : Rc), (m + 1) * 2 ^ k ≤ 2 * 2 ^ n →
    TakesAtMost inp k r (walkTree inp base k m r)
  | 0, m, r, _ => .ok m r
  | k + 1, m, r, hm => by
    have hcell : base + m < Config.pmemSize := by have := (node_bounds false hm).1; omega
    exact (rcBit_takesAtMost r hcell).bind fun b r' =>
      walkTree_takesAtMost inp k _ r' (node_bounds b hm).2

theorem walkReverse_takesAtMost (inp : List Byte) : ∀ (k m : Nat) (r : Rc), (m + 1) * 2 ^ k ≤ 2 * 2 ^ n →
    TakesAtMost inp k r (walkReverse inp base k m r)
  | 0, _, r, _ => .ok 0 r
  | k + 1, m, r, hm => by
    have hcell : base + m < Config.pmemSize := by have := (node_bounds false hm).1; omega
    exact (rcBit_takesAtMost r hcell).bind fun b r' =>
      (walkReverse_takesAtMost inp k _ r' (node_bounds b hm).2).map

theorem btDec_takesAtMost (inp : List Byte) (r : Rc) : TakesAtMost inp n r (btDec inp base n r) :=
  (walkTree_takesAtMost hb inp n 1 r (Nat.le_refl _)).map

theorem btRdec_takesAtMost (inp : List Byte) (r : Rc) : TakesAtMost inp n r (btRdec inp base n r) :=
  walkReverse_takesAtMost hb inp n 1 r (Nat.le_refl _)

end

/-! ## `BT.DEC` and `BT.RDEC` (R142, R143) -/

theorem exec_btDec (base n : Nat) (s : State) :
    exec (.btDec base n) s = rcOutcome s .number (btDec s.input base n s.rc) := rfl

theorem exec_btRdec (base n : Nat) (s : State) :
    exec (.btRdec base n) s = rcOutcome s .number (btRdec s.input base n s.rc) := rfl

/-- Settles O19: what `BT.DEC` returns is what the stream spells, and its walk takes at most a byte for each level. -/
theorem btDecReadsNumber : Obligations.BtDecReadsNumber := by
  refine ⟨fun base n v s r hv hs => ?_, fun base n s hb hlen => ?_, fun base n s hb hnone => ?_⟩
  all_goals rw [exec_btDec]
  · exact rcOutcome_ok (btDec_eq_ok.mpr ⟨hv, hs⟩)
  · obtain ⟨v, r, hd, hnext⟩ := (btDec_takesAtMost hb s.input s.rc).returns .number hlen
    exact ⟨v, r, (btDec_eq_ok.mp hd).1, hnext⟩
  · exact (btDec_takesAtMost hb s.input s.rc).faulted .number fun v r hd =>
      (btDec_eq_ok.mp hd).elim (hnone v r)

/-- Settles O20: as for `BT.DEC`, the stream's number read least significant first. -/
theorem btRdecReadsNumber : Obligations.BtRdecReadsNumber := by
  refine ⟨fun base n v s r hv hs => ?_, fun base n s hb hlen => ?_, fun base n s hb hnone => ?_⟩
  all_goals rw [exec_btRdec]
  · exact rcOutcome_ok (btRdec_eq_ok.mpr ⟨hv, hs⟩)
  · obtain ⟨v, r, hd, hnext⟩ := (btRdec_takesAtMost hb s.input s.rc).returns .number hlen
    exact ⟨v, r, (btRdec_eq_ok.mp hd).1, hnext⟩
  · exact (btRdec_takesAtMost hb s.input s.rc).faulted .number fun v r hd =>
      (btRdec_eq_ok.mp hd).elim (hnone v r)

/-! ## The reversal (R144) -/

/-- Read least significant first, the decision at place `k` is the bit of weight `2 ^ k`. -/
theorem testBit_bitsRev : ∀ (ds : List Bool) (k : Nat), (bitsRev ds).testBit k = ds.getD k false
  | [], k => Nat.zero_testBit k
  | b :: ds, 0 => by cases b <;> simp [bitsRev, Nat.testBit_zero]
  | b :: ds, k + 1 => by
    have hdiv : (b.toNat + 2 * bitsRev ds) / 2 = bitsRev ds := by have := toNat_le_one b; omega
    rw [bitsRev, Nat.testBit_succ, hdiv, testBit_bitsRev ds k, List.getD_cons_succ]

/-- Written most significant first, the decision at place `k` is the bit of weight `2 ^ (n - 1 - k)`. -/
theorem msbBits_getD (v : Nat) : ∀ {n k : Nat}, k < n → (msbBits n v).getD k false = v.testBit (n - 1 - k)
  | n + 1, 0, _ => rfl
  | n + 1, k + 1, hk => by
    rw [msbBits, List.getD_cons_succ, msbBits_getD v (Nat.lt_of_succ_lt_succ hk)]
    congr 1
    omega

/-- On the decisions that spell `v` for `BT.DEC`, `BT.RDEC` returns them read the other way round. -/
theorem btRdec_of_btDec {inp : List Byte} {base n v : Nat} {r r' : Rc} (h : btDec inp base n r = .ok v r') :
    btRdec inp base n r = .ok (bitsRev (msbBits n v)) r' :=
  walkReverse_eq_ok.mpr ⟨msbBits n v, msbBits_length n v, (btDec_eq_ok.mp h).2, rfl⟩

/-- Settles O21. -/
theorem btRdecIsTheReversal : Obligations.BtRdecIsTheReversal := by
  intro inp base n v r r' h
  refine ⟨(btDec_eq_ok.mp h).1, bitsRev (msbBits n v), ?_, btRdec_of_btDec h, fun k hk => ?_⟩
  · exact (bitsRev_lt _).trans_eq (by rw [msbBits_length])
  · rw [testBit_bitsRev, msbBits_getD v hk]

end Sys2Proof.Machine
end

section
/-! PROOFS. The length decoder at its own interface (spec/42_length_decoder.md R150, R151; O22). -/

namespace Sys2Proof.Machine

/-! ## The cells of the two length tables (R66, R150) -/

theorem lenChoiceCells_bounds (t : LenTable) : lenChoiceCell t + 1 < Config.pmemSize := by
  cases t <;> decide

theorem lenLowTree_bounds (t : LenTable) (ps : Fin 4) : lenLowTree t ps + 2 ^ 3 ≤ Config.pmemSize := by
  cases t <;> revert ps <;> decide

theorem lenMidTree_bounds (t : LenTable) (ps : Fin 4) : lenMidTree t ps + 2 ^ 3 ≤ Config.pmemSize := by
  cases t <;> revert ps <;> decide

theorem lenHighTree_bounds (t : LenTable) : lenHighTree t + 2 ^ 8 ≤ Config.pmemSize := by
  cases t <;> decide

/-! ## `LEN.DEC` (R151) -/

theorem TakesAtMost.mono {α : Type} {inp : List Byte} {j k : Nat} {r : Rc} {x : Res Rc α}
    (h : TakesAtMost inp j r x) (hjk : j ≤ k) : TakesAtMost inp k r x := by
  rcases h with ⟨a, r', hx, hpos⟩ | ⟨hlt, hx⟩
  · exact Or.inl ⟨a, r', hx, by omega⟩
  · exact Or.inr ⟨by omega, hx⟩

/-- At most ten decisions: two choices and the eight levels of the high tree. -/
theorem lenDec_takesAtMost (inp : List Byte) (t : LenTable) (ps : Fin 4) (r : Rc) :
    TakesAtMost inp 10 r (lenDec inp t ps r) := by
  have hchoice := lenChoiceCells_bounds t
  refine (rcBit_takesAtMost (a := lenChoiceCell t) r (by omega)).bind (k := 9) fun choice r => ?_
  cases choice with
  | false => exact (btDec_takesAtMost (lenLowTree_bounds t ps) inp r).mono (by omega)
  | true =>
    refine (rcBit_takesAtMost (a := lenChoiceCell t + 1) r hchoice).bind (k := 8) fun choice2 r => ?_
    cases choice2 with
    | false => exact (btDec_takesAtMost (lenMidTree_bounds t ps) inp r).map.mono (by omega)
    | true => exact (btDec_takesAtMost (lenHighTree_bounds t) inp r).map

theorem exec_lenDec (t : LenTable) (ps : Fin 4) (s : State) :
    exec (.lenDec t ps) s = rcOutcome s .number (lenDec s.input t ps s.rc) := rfl

/-- Settles O22: what `LEN.DEC` returns is what the stream spells, and its decisions are at most ten. -/
theorem lenDecReadsLength : Obligations.LenDecReadsLength := by
  refine ⟨fun t ps v s r hv hs => ?_, fun t ps s hlen => ?_, fun t ps s hnone => ?_⟩
  all_goals rw [exec_lenDec]
  · exact rcOutcome_ok (lenDec_eq_ok.mpr ⟨hv, hs⟩)
  · obtain ⟨v, r, hd, hnext⟩ := (lenDec_takesAtMost s.input t ps s.rc).returns .number hlen
    exact ⟨v, r, (lenDec_eq_ok.mp hd).1, hnext⟩
  · exact (lenDec_takesAtMost s.input t ps s.rc).faulted .number fun v r hd =>
      (lenDec_eq_ok.mp hd).elim (hnone v r)

end Sys2Proof.Machine
end

section
/-! PROOFS. The literal decoder at its own interface (spec/43_literal_decoder.md R160 to R163; O23, O24). -/

namespace Sys2Proof.Machine

/-! ## The cells of a literal context (R66, R160) -/

/-- The last of the three banks of a literal context ends inside `PMEM`. -/
theorem litBaseOk_bounds {base : Nat} (h : litBaseOk base = true) : base + Config.litCoderSize ≤ Config.pmemSize := by
  simp only [litBaseOk, Bool.and_eq_true, decide_eq_true_eq, beq_iff_eq] at h
  obtain ⟨⟨hlow, hhigh⟩, hstep⟩ := h
  simp only [Config.literalBase, Config.pmemSize, Config.litCoderSize] at *
  omega

/-- A node of the byte tree has its cell in each bank (R163). -/
theorem matchedCell_bounds {base m : Nat} (hb : base + Config.litCoderSize ≤ Config.pmemSize) (hm : m < 2 ^ 8)
    (matchBit : Bool) : matchedCell base m matchBit < Config.pmemSize := by
  have hbank : (1 + matchBit.toNat) <<< 8 ≤ 512 := by cases matchBit <;> decide
  simp only [Config.litCoderSize] at hb
  unfold matchedCell
  omega

/-! ## `LIT.NORMAL` and `LIT.MATCHED` (R162, R163) -/

section
variable {base : Nat} (hb : base + Config.litCoderSize ≤ Config.pmemSize)
include hb

theorem plainTree_bounds : base + 2 ^ 8 ≤ Config.pmemSize :=
  (Nat.add_le_add_left (by decide) base).trans hb

theorem litNormal_takesAtMost (inp : List Byte) (r : Rc) : TakesAtMost inp 8 r (litNormal inp base r) :=
  (walkTree_takesAtMost (plainTree_bounds hb) inp 8 1 r (Nat.le_refl _)).map

/-- After each decision the walk goes on in a bank, or after a mismatch in the plain tree. -/
theorem walkMatched_takesAtMost (inp : List Byte) : ∀ (k : Nat) (mb : Byte) (m : Nat) (r : Rc),
    (m + 1) * 2 ^ k ≤ 2 * 2 ^ 8 → TakesAtMost inp k r (walkMatched inp base k mb m r)
  | 0, _, m, r, _ => .ok m r
  | k + 1, mb, m, r, hm => by
    refine (rcBit_takesAtMost r (matchedCell_bounds hb (node_bounds false hm).1 _)).bind fun b r' => ?_
    have hnext := (node_bounds b hm).2
    split
    · exact walkMatched_takesAtMost inp k _ _ r' hnext
    · exact walkTree_takesAtMost (plainTree_bounds hb) inp k _ r' hnext

theorem litMatched_takesAtMost (inp : List Byte) (mb : Byte) (r : Rc) :
    TakesAtMost inp 8 r (litMatched inp base mb r) :=
  (walkMatched_takesAtMost hb inp 8 mb 1 r (Nat.le_refl _)).map

end

theorem exec_litNormal (base : Nat) (s : State) :
    exec (.litNormal base) s = rcOutcome s .byte (litNormal s.input base s.rc) := rfl

theorem exec_litMatched (base : Nat) (mb : Byte) (s : State) :
    exec (.litMatched base mb) s = rcOutcome s .byte (litMatched s.input base mb s.rc) := rfl

/-- Settles O23: what `LIT.NORMAL` returns is what the stream spells, and its walk takes at most a byte for each bit. -/
theorem litNormalReadsByte : Obligations.LitNormalReadsByte := by
  refine ⟨fun base b s r hs => ?_, fun base s hwf hlen => ?_, fun base s hwf hnone => ?_⟩
  all_goals rw [exec_litNormal]
  · exact rcOutcome_ok (litNormal_eq_ok.mpr hs)
  · obtain ⟨b, r, -, hnext⟩ := (litNormal_takesAtMost (litBaseOk_bounds hwf) s.input s.rc).returns .byte hlen
    exact ⟨b, r, hnext⟩
  · exact (litNormal_takesAtMost (litBaseOk_bounds hwf) s.input s.rc).faulted .byte fun b r hd =>
      hnone b r (litNormal_eq_ok.mp hd)

/-- Settles O24: as for `LIT.NORMAL`, the stream's bits read in the match byte's banks up to the first mismatch. -/
theorem litMatchedReadsByte : Obligations.LitMatchedReadsByte := by
  refine ⟨fun base mb b s r hs => ?_, fun base mb s hwf hlen => ?_, fun base mb s hwf hnone => ?_⟩
  all_goals rw [exec_litMatched]
  · exact rcOutcome_ok (litMatched_eq_ok.mpr hs)
  · obtain ⟨b, r, -, hnext⟩ := (litMatched_takesAtMost (litBaseOk_bounds hwf) s.input mb s.rc).returns .byte hlen
    exact ⟨b, r, hnext⟩
  · exact (litMatched_takesAtMost (litBaseOk_bounds hwf) s.input mb s.rc).faulted .byte fun b r hd =>
      hnone b r (litMatched_eq_ok.mp hd)

end Sys2Proof.Machine
end

section
/-! PROOFS. The operations of the output window at its own interface (spec/44_output_window.md R171 to R178; O28 to
O32). -/

namespace Sys2Proof.Machine

/-! ## `OW.PUT` and `OW.FLUSH` (R171, R172) -/

theorem exec_owPut (b : Byte) (s : State) : exec (.owPut b) s = .next { s with ow := owPut b s.ow, result := .none } :=
  rfl

theorem exec_owFlush (s : State) : exec .owFlush s = .next { s with ow := owFlush s.ow, result := .none } := rfl

theorem owPut_total (b : Byte) (o : Ow) : (owPut b o).total = o.total + 1 := by
  rcases owPut_cases b o with ⟨-, -, -, -, h⟩ | ⟨-, -, -, -, h⟩
  · exact h
  · exact h

/-- Below the capacity a put moves the cursor on by one and delivers nothing. -/
theorem owPut_below {o : Ow} (h : o.wpos.val + 1 < Config.windowCap) (b : Byte) :
    (owPut b o).wpos.val = o.wpos.val + 1 ∧ (owPut b o).spos = o.spos ∧ (owPut b o).sink = o.sink := by
  rcases owPut_cases b o with ⟨-, hw, hs, hk, -⟩ | ⟨hfull, -⟩
  · exact ⟨hw, hs, hk⟩
  · omega

/-- The put that fills the window delivers it from the flush mark up, and both cursors return to 0. -/
theorem owPut_full {o : Ow} (h : o.wpos.val + 1 = Config.windowCap) (b : Byte) :
    (owPut b o).wpos.val = 0 ∧ (owPut b o).spos.val = 0 ∧
      (owPut b o).sink = o.sink ++ winBytes (owPut b o) o.spos.val (Config.windowCap - o.spos.val) := by
  rcases owPut_cases b o with ⟨hlt, -⟩ | ⟨-, hw, hs, hk, -⟩
  · omega
  · exact ⟨hw, hs, hk⟩

/-- Settles O28, by whether the put fills the window. -/
theorem owPutWritesAtCursor : Obligations.OwPutWritesAtCursor := fun s b =>
  ⟨_, exec_owPut b s, winRead_owPut b s.ow, owPut_total b s.ow, fun h => owPut_below h b, fun h => owPut_full h b, rfl⟩

theorem owFlush_of_nothing_pending {o : Ow} (h : o.wpos = o.spos) : owFlush o = o := by
  rw [owFlush, owFlushAt, if_pos (congrArg Fin.val h)]

/-- Settles O29: what the flush leaves in `SINK` is the output, `SINK` and the pending bytes. -/
theorem owFlushDeliversPending : Obligations.OwFlushDeliversPending := by
  intro s _
  obtain ⟨-, -, hwpos, hspos, htotal, hsink⟩ := owFlush_fields s.ow
  exact ⟨_, exec_owFlush s, hsink, hwpos, hspos, htotal, winRead_owFlush s.ow, owFlush_of_nothing_pending, rfl⟩

/-! ## `OW.GET` (R173, R174) -/

theorem exec_owGet (d : Word) (s : State) : exec (.owGet d) s = owOutcome s .byte (owGet d s.ow) := rfl

/-- The address `OW.GET` reads, as one expression modulo the capacity. -/
theorem winIndex_eq_mod (w : Fin Config.windowCap) {d : Nat} (hd : d < Config.windowCap) :
    winIndex w d = (w.val + Config.windowCap - d - 1) % Config.windowCap := by
  have hw := w.isLt
  unfold winIndex
  split
  · next h =>
    rw [show w.val + Config.windowCap - d - 1 = w.val - d - 1 + Config.windowCap by omega, Nat.add_mod_right,
      Nat.mod_eq_of_lt (by omega)]
  · rw [Nat.mod_eq_of_lt (by omega)]

theorem owGet_of_range {d : Word} {o : Ow} (ht : d.toNat < o.total) (hc : d.toNat < Config.windowCap) :
    owGet d o = .ok (winRead o ((o.wpos.val + Config.windowCap - d.toNat - 1) % Config.windowCap)) o := by
  rw [owGet_eq, if_pos ⟨ht, hc⟩, winIndex_eq_mod o.wpos hc]

theorem owGet_out_of_range {d : Word} {o : Ow} (h : o.total ≤ d.toNat ∨ Config.windowCap ≤ d.toNat) :
    owGet d o = .raise .windowRange o := if_pos h

/-- Settles O30, by whether the distance is in range. -/
theorem owGetReadsBack : Obligations.OwGetReadsBack := by
  refine fun s d => ⟨fun ht hc => ?_, fun h => ?_⟩
  all_goals rw [exec_owGet]
  · exact owOutcome_ok (owGet_of_range ht hc)
  · exact owOutcome_raise (owGet_out_of_range h)

/-! ## `OW.COPY` (R176) -/

theorem exec_owCopy (d : Word) (len : Nat) (s : State) :
    exec (.owCopy d len) s = owOutcome s (fun _ => .none) (owCopy d len s.ow) := rfl

/-- The first byte of a copy out of range already faults. -/
theorem owCopy_out_of_range {d : Word} {len : Nat} {o : Ow} (hlen : 1 ≤ len)
    (h : o.total ≤ d.toNat ∨ Config.windowCap ≤ d.toNat) : owCopy d len o = .raise .windowRange o := by
  obtain ⟨n, rfl⟩ := Nat.exists_eq_add_of_le' hlen
  rw [owCopy, owGet_out_of_range h]
  rfl

/-- Settles O31: in range the copy answers as `owCopy_output` says, out of range its first `OW.GET` faults. -/
theorem owCopyAppends : Obligations.OwCopyAppends := by
  refine ⟨fun s d len hwin ht hc => ?_, fun s d len hlen h => ?_⟩
  all_goals rw [exec_owCopy]
  · obtain ⟨o, hcopy, hwin', hout, htotal, hputs⟩ := owCopy_output len hwin ht hc
    exact ⟨_, owOutcome_ok hcopy, hout, hwin', htotal, winRead_owCopy len hcopy, hputs, rfl⟩
  · exact owOutcome_raise (owCopy_out_of_range hlen h)

/-! ## The law of an overlapping copy (R177) -/

/-- A copy only appends. -/
theorem exists_copyOutput_eq_append (d : Nat) : ∀ (n : Nat) (out : List Byte), ∃ rest, copyOutput d n out = out ++ rest
  | 0, out => ⟨[], (List.append_nil out).symm⟩
  | n + 1, out => by
    obtain ⟨rest, hrest⟩ := exists_copyOutput_eq_append d n (out ++ [out.getD (out.length - d - 1) 0])
    exact ⟨_, by rw [copyOutput, hrest, List.append_assoc]⟩

theorem copyOutput_getElem?_of_lt (d n : Nat) {out : List Byte} {k : Nat} (hk : k < out.length) :
    (copyOutput d n out)[k]? = out[k]? := by
  obtain ⟨rest, hrest⟩ := exists_copyOutput_eq_append d n out
  rw [hrest, List.getElem?_append_left hk]

theorem take_copyOutput (d n : Nat) (out : List Byte) : (copyOutput d n out).take out.length = out := by
  obtain ⟨rest, hrest⟩ := exists_copyOutput_eq_append d n out
  rw [hrest, List.take_left]

/-- Every byte a copy appends is the one `d + 1` before it, be that earlier output or a byte of the copy itself: the
first byte appended by its definition, the later ones as those of a copy from the output with the first. -/
theorem copyOutput_repeats {d : Nat} : ∀ (n : Nat) {out : List Byte} {j : Nat}, d < out.length → out.length ≤ j →
    j < out.length + n → (copyOutput d n out)[j]? = (copyOutput d n out)[j - d - 1]?
  | 0, _, _, _, hle, hlt => absurd hlt (Nat.not_lt.mpr hle)
  | n + 1, out, j, hd, hle, hlt => by
    rw [copyOutput]
    have hlen : (out ++ [out.getD (out.length - d - 1) 0]).length = out.length + 1 := List.length_append
    rcases Nat.eq_or_lt_of_le hle with rfl | hgt
    · have hsrc : out.length - d - 1 < out.length := by omega
      rw [copyOutput_getElem?_of_lt d n (by omega), copyOutput_getElem?_of_lt d n (by omega),
        List.getElem?_concat_length, List.getElem?_append_left hsrc, List.getElem?_eq_getElem hsrc,
        List.getD_eq_getElem _ _ hsrc]
    · exact copyOutput_repeats n (by omega) (by omega) (by omega)

/-- Settles O32: the copy's output is `copyOutput`, whose bytes repeat and whose earlier bytes stay. -/
theorem overlappingCopyRepeats : Obligations.OverlappingCopyRepeats := by
  intro s t d len hwin ht hc hexec
  obtain ⟨t', hexec', hout, -⟩ := owCopyAppends.1 s d len hwin ht hc
  obtain rfl : t' = t := Host.Outcome.next.inj (hexec'.symm.trans hexec)
  rw [hout, ← hwin.length_output]
  rw [← hwin.length_output] at ht
  exact ⟨fun i hi => copyOutput_repeats len ht (by omega) (by omega), copyOutput_length _ _ _,
    take_copyOutput _ _ _⟩

end Sys2Proof.Machine
end

section
/-! PROOFS. The distance decoder at its own interface (spec/45_distance_decoder.md R185 to R188; O25). -/

namespace Sys2Proof.Machine

/-! ## How many bytes the slot and its extension take (R186, R252) -/

/-- As `TakesAtMost.bind`, where the bound on the second operation rests on what the first can return. -/
theorem TakesAtMost.bind_of_ok {α β : Type} {inp : List Byte} {j k : Nat} {r : Rc} {x : Res Rc α}
    {f : α → Rc → Res Rc β} (h : TakesAtMost inp j r x) (hf : ∀ a r', x = .ok a r' → TakesAtMost inp k r' (f a r')) :
    TakesAtMost inp (k + j) r (x.bind f) := by
  rcases h with ⟨a, r', rfl, hpos⟩ | ⟨hlt, m, rfl⟩
  · rcases hf a r' rfl with ⟨b, r'', hb, hpos'⟩ | ⟨hlt, m, hm⟩
    · exact Or.inl ⟨b, r'', hb, by omega⟩
    · exact Or.inr ⟨by omega, m, hm⟩
  · exact Or.inr ⟨by omega, m, rfl⟩

theorem directBit_takesAtMost (inp : List Byte) (r : Rc) : TakesAtMost inp 1 r (directBit inp r) := by
  rcases decideAt_cases inp none r (by rintro _ ⟨⟩) with ⟨b, m, hd⟩ | ⟨m, hd, hend⟩
  · exact Or.inl ⟨b, m, hd, (directBit_frame hd).1⟩
  · exact Or.inr ⟨Nat.lt_succ_of_le hend, m, hd⟩

theorem directBits_takesAtMost (inp : List Byte) : ∀ (n acc : Nat) (r : Rc),
    TakesAtMost inp n r (directBits inp n acc r)
  | 0, acc, r => .ok acc r
  | n + 1, _, r => (directBit_takesAtMost inp r).bind fun _ r' => directBits_takesAtMost inp n _ r'

/-- The slot tree of every length class is inside `PMEM` (R66). -/
theorem posSlotTree_bounds (len : Nat) : posSlotTree len + 2 ^ 6 ≤ Config.pmemSize := by
  have hclass := lenToPosState_le len
  simp only [posSlotTree, Config.posSlotBase, Config.pmemSize]
  omega

/-- At most 36 decisions: six of the slot, then at most 26 direct bits and four alignment bits. -/
theorem distParts_takesAtMost (inp : List Byte) (len : Nat) (r : Rc) :
    TakesAtMost inp 36 r (distParts inp len r) := by
  refine (btDec_takesAtMost (posSlotTree_bounds len) inp r).bind_of_ok (k := 30) fun slot r' hslot => ?_
  have h64 : slot < 2 ^ 6 := (btDec_eq_ok.mp hslot).1
  have hbits : slotBits slot ≤ 30 := by unfold slotBits; omega
  split
  · exact (TakesAtMost.ok _ r').mono (by omega)
  · next h4 =>
    split
    · next h14 => exact (btRdec_takesAtMost (posSpecTree_bounds (Nat.not_lt.mp h4) h14) inp r').map.mono hbits
    · exact ((directBits_takesAtMost inp _ 0 r').bind fun x r'' =>
        (btRdec_takesAtMost (n := Config.alignBits) (by decide) inp r'').map).mono
          (by simp only [Config.alignBits]; omega)

/-! ## `DIST.DEC` (R186) -/

theorem exec_distDec (len : Nat) (s : State) :
    exec (.distDec len) s = rcOutcome s id (distDec s.input len s.rc) := rfl

/-- The answer for a value, given with the range decoder at `r`, is the one a slot row gives there. -/
theorem rcOutcome_distResult (v : Word) (s : State) (r : Rc) :
    rcOutcome s id (distResult v r) = distanceOutcome v { s with rc := r } := by
  unfold distanceOutcome distResult
  by_cases hend : v = Config.endMarkerDistance
  · simp only [if_pos hend, rcOutcome, id]
  · by_cases hlt : v.toNat < 2 ^ 31
    · simp only [if_neg hend, if_pos hlt, rcOutcome, id]
    · simp only [if_neg hend, if_neg hlt, rcOutcome]

/-- `DIST.DEC` answers as the slot row of the value spelled does, with the range decoder past the decisions. -/
theorem exec_distDec_of_spells {len : Nat} {v : Word} {s : State} {r : Rc}
    (hs : spells s.input s.rc (distanceCells len v.toNat) (distanceBits v.toNat) r) :
    exec (.distDec len) s = distanceOutcome v { s with rc := r } := by
  obtain ⟨p, hp, rfl⟩ := distParts_eq_ok_iff_word.mpr hs
  rw [exec_distDec, distDec, hp]
  exact rcOutcome_distResult _ s r

/-- `DIST.DEC` faults as its decisions do. -/
theorem exec_distDec_of_raise {len : Nat} {s : State} {c : Cause} {m : Rc}
    (h : distParts s.input len s.rc = .raise c m) : ∃ t, exec (.distDec len) s = .next t ∧ Faulted c s t := by
  rw [exec_distDec]
  exact rcOutcome_raise (Res.bind_eq_raise.mpr (Or.inl h))

/-- What a fault leaves does not depend on where the range decoder was (R263). -/
theorem Faulted.of_setRc {c : Cause} {s t : State} {r : Rc} (h : Faulted c { s with rc := r } t) : Faulted c s t :=
  ⟨h.cause, h.runState, h.endMarker, h.cf, h.outSize, h.outside⟩

/-- Settles O25: a spelled value has the answers of its slot row, and the decisions, at most 36, spell a value or find
`IN` exhausted. -/
theorem distDecReadsDistance : Obligations.DistDecReadsDistance := by
  refine ⟨fun len v s r hs => ?_, fun len s hlen => ?_, fun len s hnone => ?_⟩
  · rw [exec_distDec_of_spells hs]
    refine ⟨?_, fun hlt => distanceOutcome_distance hlt _, fun hle hne => ?_⟩
    · rintro rfl
      exact distanceOutcome_endMarker _
    · obtain ⟨t, ht, hfault⟩ := distanceOutcome_invalid hle hne { s with rc := r }
      exact ⟨t, ht, hfault.of_setRc⟩
  · rcases distParts_takesAtMost s.input len s.rc with ⟨p, r, hp, -⟩ | ⟨hlt, -⟩
    · exact ⟨_, r, distParts_eq_ok_iff_word.mp ⟨p, hp, rfl⟩⟩
    · omega
  · rcases distParts_takesAtMost s.input len s.rc with ⟨p, r, hp, -⟩ | ⟨-, m, hm⟩
    · exact absurd (distParts_eq_ok_iff_word.mp ⟨p, hp, rfl⟩) (hnone _ r)
    · exact exec_distDec_of_raise hm

end Sys2Proof.Machine
end

section
/-! PROOFS. The turn of the run loop and the end of every run (spec/46_lzma_sequencer.md R196 to R198, R210, R211,
R213; O8, O9, O58, O59). -/

namespace Sys2Proof.Machine

/-! ## What one step does (R197, R198) -/

/-- A step with no event pending is the engine's turn. -/
theorem step_of_no_event {s : State} (h : s.events = []) : step s = engineStep s := by
  unfold step nextStep
  rw [h]

theorem sizeReached_iff {s : State} :
    sizeReached s = true ↔ s.outSize.toNat < 2 ^ 31 ∧ s.outSize.toNat ≤ s.seq.pos := by
  simp [sizeReached]

theorem step_of_sizeReached {s : State} (he : s.events = []) (hr : s.runState = .run) (hsize : sizeReached s = true) :
    step s = .next (endRun s) := by
  simp only [step_of_no_event he, engineStep, hr, hsize, if_true]

theorem step_of_not_run {s : State} (he : s.events = []) (hr : s.runState ≠ .run) : step s = .next s := by
  rw [step_of_no_event he, engineStep]
  split
  · next hrun => exact absurd hrun hr
  · rfl

theorem step_of_fetch_raise {s : State} (he : s.events = []) (hr : s.runState = .run) (hsize : sizeReached s = false)
    {c : Cause} {r : Rc} (hf : fetchSymbol s = .raise c r) :
    step s = .next (takeFault c { passBoundary s with rc := r }) := by
  simp only [step_of_no_event he, engineStep, hr, hsize, hf, runFetched, Bool.false_eq_true, if_false]

/-- A write of a command's code to `CMD` runs the command. -/
theorem hostWrite_command {v : Word} {i : Instr} (h : decodeCommand v = .ok i) (s : State) :
    hostWrite 0 v s = exec i s := by
  simp only [hostWrite, h]

/-- Settles O8: the fetched symbol in a run, else the command written. -/
theorem stepRunsTheDecodedInstruction : Obligations.StepRunsTheDecodedInstruction := by
  refine ⟨fun s i r he hr hsize hf => step_of_fetch he hr hsize hf, fun s v i es he hv => ?_⟩
  rw [step_write he, hostWrite_command hv]

/-- Settles O9. -/
theorem engineEndsOrRests : Obligations.EngineEndsOrRests :=
  ⟨fun _ he hr hlt hle => step_of_sizeReached he hr (sizeReached_iff.mpr ⟨hlt, hle⟩),
    fun _ he hr => step_of_not_run he hr⟩

/-! ## All that a step of a run can do -/

/-- A step of a run ends it at the declared size, ends it at the end marker, runs a symbol that leaves the run going
with the range decoder where the fetch left it, or takes a fault. -/
inductive RunTurn (s t : State) : Prop where
  | sizeEnds (hsize : sizeReached s = true) (ht : t = endRun s)
  | markerEnds (r : Rc) (hsize : sizeReached s = false) (ht : t = endByMarker { passBoundary s with rc := r })
  | goesOn (i : Instr) (r : Rc) (q : Seq) (o : Ow) (hf : fetchSymbol s = .ok i r)
      (ht : t = { passBoundary s with rc := r, seq := q, ow := o })
  | faults (ht : t.runState = .fault)

/-- The meaning of a fetched symbol is a turn of the run. -/
theorem exists_runTurn_of_fetch {s : State} (h : Inv s) (hr : s.runState = .run) (hsize : sizeReached s = false)
    {i : Instr} {r : Rc} (hf : fetchSymbol s = .ok i r) :
    ∃ t, exec i { passBoundary s with rc := r } = .next t ∧ RunTurn s t := by
  have fetched := fetchSymbolFrom_ok hf
  have run := (h.run hr).fetched hf
  have how := (memory_wf_iff.mp h.memory).2
  cases exec_symbol_does fetched.symbol fetched.wellFormed { passBoundary s with rc := r } with
  | literal b hb => exact ⟨_, hb, .goesOn i r _ _ hf rfl⟩
  | ends he => exact ⟨_, he, .markerEnds r hsize rfl⟩
  | copies len q hq hlen hpos hst =>
    rcases copyOutcome_cases run how hsize hlen hpos hst with ⟨q', o', ho, -⟩ | ⟨o', ho⟩
    · exact ⟨_, hq.trans ho, .goesOn i r q' o' hf rfl⟩
    · exact ⟨_, hq.trans ho, .faults rfl⟩
  | invalid q hq => exact ⟨_, hq, .faults rfl⟩

/-- Under the invariant a run with nothing pending always takes its turn (R197, R256). -/
theorem exists_runTurn {s : State} (h : Inv s) (he : s.events = []) (hr : s.runState = .run) :
    ∃ t, step s = .next t ∧ RunTurn s t := by
  cases hsize : sizeReached s
  case true => exact ⟨_, step_of_sizeReached he hr hsize, .sizeEnds hsize rfl⟩
  case false =>
    rcases answers_fetchSymbol (h.run hr) with ⟨i, r, hf, -⟩ | ⟨r, hf⟩
    · rw [step_of_fetch he hr hsize hf]
      exact exists_runTurn_of_fetch h hr hsize hf
    · exact ⟨_, step_of_fetch_raise he hr hsize hf, .faults rfl⟩

theorem runTurn_of_step {s t : State} (h : Inv s) (he : s.events = []) (hr : s.runState = .run)
    (ht : step s = .next t) : RunTurn s t := by
  obtain ⟨t', ht', turn⟩ := exists_runTurn h he hr
  rwa [Host.Outcome.next.inj (ht.symm.trans ht')]

/-! ## Progress (R130, R213) -/

/-- From `r` to `r'` the range decoder took a byte of `inp`, or took none and narrowed `RANGE`. -/
def Progress (inp : List Byte) (r r' : Rc) : Prop :=
  r.inPos < r'.inPos ∧ r'.inPos ≤ inp.length ∨ r'.inPos = r.inPos ∧ r'.range.toNat < r.range.toNat

/-- Every symbol begins with the decision `isMatch` (R94). -/
theorem symbolCells_ne_nil {i : Instr} (hi : isSymbol i = true) (c : Context) : symbolCells c i ≠ [] := by
  cases i
  case lit | litm | newMatch | eos | shortrep | rep0 | rep1 | rep2 | rep3 => exact List.cons_ne_nil _ _
  all_goals cases hi

/-- The decisions of a symbol, at least one, make progress. -/
theorem progress_of_fetch {s : State} (run : RunOk s) {i : Instr} {r : Rc} (hf : fetchSymbol s = .ok i r) :
    Progress s.input s.rc r := by
  obtain ⟨ds, hs⟩ := fetchSymbol_spelledIn hf
  obtain ⟨-, hle, hlen, hrange, -⟩ := spells_ok run.rc hs
  rcases Nat.eq_or_lt_of_le hle with heq | hlt
  · exact Or.inr ⟨heq.symm, hrange heq.symm (symbolCells_ne_nil (fetchSymbolFrom_ok hf).symbol _)⟩
  · exact Or.inl ⟨hlt, hlen run.inPos.2⟩

/-- A turn of a run leaves it, in `DONE` or in `FAULT`, or makes progress in the same `IN`. -/
theorem RunTurn.ends_or_progress {s t : State} (turn : RunTurn s t) (hr : s.runState = .run) (run : RunOk s) :
    (t.runState = .done ∨ t.runState = .fault) ∨
      t.runState = .run ∧ Progress s.input s.rc t.rc ∧ t.input = s.input ∧ t.events = s.events := by
  cases turn with
  | sizeEnds _ ht => subst ht; exact Or.inl (Or.inl rfl)
  | markerEnds _ _ ht => subst ht; exact Or.inl (Or.inl rfl)
  | goesOn i r q o hf ht => subst ht; exact Or.inr ⟨hr, progress_of_fetch run hf, rfl, rfl⟩
  | faults ht => exact Or.inl (Or.inr ht)

/-! ## The end of every run (R213, R294) -/

/-- What a run has left: the bytes of `IN` not taken, each worth more than every value of `RANGE`, and `RANGE`. -/
def runMeasure (inp : List Byte) (r : Rc) : Nat := (inp.length - r.inPos) * 2 ^ 32 + r.range.toNat

theorem Progress.runMeasure_lt {inp : List Byte} {r r' : Rc} (h : Progress inp r r') :
    runMeasure inp r' < runMeasure inp r := by
  have hrange := r'.range.isLt
  unfold runMeasure
  rcases h with ⟨hlt, hle⟩ | ⟨heq, hlt⟩
  · have hbytes : inp.length - r'.inPos + 1 ≤ inp.length - r.inPos := by omega
    have := Nat.mul_le_mul_right (2 ^ 32) hbytes
    omega
  · rw [heq]; omega

theorem core_run_succ {n : Nat} {s t : State} (h : step s = .next t) :
    Sys2Proof.core.run (n + 1) s = Sys2Proof.core.run n t := by
  have hstep : Sys2Proof.core.step s = .next t := h
  simp only [Host.Core.run, hstep]

/-- Every run in order ends, by induction on what it has left. -/
theorem run_ends (m : Nat) : ∀ s : State, runMeasure s.input s.rc < m → Inv s → s.events = [] → s.runState = .run →
    ∃ (n : Nat) (t : State), Sys2Proof.core.run n s = .next t ∧ (t.runState = .done ∨ t.runState = .fault) := by
  induction m with
  | zero => exact fun _ hm => absurd hm (Nat.not_lt_zero _)
  | succ m ih =>
    intro s hm hinv he hr
    obtain ⟨t, ht, turn⟩ := exists_runTurn hinv he hr
    rcases turn.ends_or_progress hr (hinv.run hr) with hend | ⟨hrun, hprogress, hinput, hevents⟩
    · exact ⟨1, t, core_run_succ ht, hend⟩
    · have hlt : runMeasure t.input t.rc < m := by
        have := hprogress.runMeasure_lt
        rw [hinput]; omega
      obtain ⟨n, u, hu, hend⟩ :=
        ih t hlt (everyStepKeepsTheInvariant s t hinv ht) (hevents.trans he) hrun
      exact ⟨n + 1, u, (core_run_succ ht).trans hu, hend⟩

/-- Settles O58: each turn ends the run or makes progress, and progress is bounded by `IN` and `RANGE`. -/
theorem everyRunEnds : Obligations.EveryRunEnds := by
  refine ⟨fun s t hinv he hr ht => ?_, fun s hinv he hr => run_ends _ s (Nat.lt_succ_self _) hinv he hr⟩
  rcases (runTurn_of_step hinv he hr ht).ends_or_progress hr (hinv.run hr) with hend | ⟨-, hprogress, -⟩
  · refine Or.inl fun hrun => ?_
    rw [hrun] at hend
    rcases hend with h | h <;> cases h
  · exact Or.inr hprogress

/-! ## What an ended run leaves (R210, R211, R245) -/

/-- After the last flush of a run in order all its output is in `SINK`, and `SINK_LEN = POS`. -/
theorem RunOk.flushed {s : State} (run : RunOk s) :
    (owFlush s.ow).sink = s.ow.output ∧ (owFlush s.ow).sink.length = s.seq.pos := by
  obtain ⟨-, -, hsink, -⟩ := owFlush_output run.window
  exact ⟨hsink, by rw [hsink, run.window.length_output, run.total]⟩

/-- Settles O59: the size ends the run with `END_MARKER` still clear and the overshoot bounded, the marker ends it
before the size is reached. -/
theorem endedRunResults : Obligations.EndedRunResults := by
  intro s t hinv he hr ht hdone
  have run := hinv.run hr
  obtain ⟨hcause, hmarker, -⟩ := statusOk_of_run hinv.status hr
  obtain ⟨hsink, hlen⟩ := run.flushed
  cases runTurn_of_step hinv he hr ht with
  | sizeEnds hsize h =>
    subst h
    obtain ⟨hdeclared, hreached⟩ := sizeReached_iff.mp hsize
    refine ⟨hsink, hlen, hcause, rfl, fun _ => ⟨fun _ => ⟨hreached, run.overshoot hdeclared⟩, fun hset => ?_⟩,
      fun hnone => absurd hdeclared (Nat.not_lt.mpr hnone)⟩
    exact absurd hset (by simp [hmarker])
  | markerEnds r hsize h =>
    subst h
    exact ⟨hsink, hlen, hcause, rfl,
      fun hdeclared => ⟨fun hclear => absurd hclear (by simp), fun _ => sizeReached_eq_false hsize hdeclared⟩,
      fun _ => rfl⟩
  | goesOn i r q o _ h =>
    subst h
    exact absurd (hr.symm.trans hdone) (by decide)
  | faults h => exact absurd (h.symm.trans hdone) (by decide)

end Sys2Proof.Machine
end

section
/-! PROOFS. What each symbol does to the output and the registers (spec/46_lzma_sequencer.md R199 to R209; O33 to O37,
O39). -/

namespace Sys2Proof.Machine

/-! ## What each symbol runs (R200 to R208) -/

theorem exec_lit (b : Byte) (s : State) : exec (.lit b) s = .next (putLiteral b s) := rfl

theorem exec_litm (b : Byte) (s : State) : exec (.litm b) s = .next (putLiteral b s) := rfl

theorem exec_newMatch (len : Nat) (dist : Word) (s : State) :
    exec (.newMatch len dist) s = execNewMatch len dist s := rfl

theorem exec_eos (len : Nat) (s : State) : exec (.eos len) s = .next (endByMarker s) := rfl

theorem exec_shortrep (s : State) :
    exec .shortrep s = copyOutcome 1 { s.seq with state := afterShortRep s.seq.state } s := rfl

theorem exec_rep0 (len : Nat) (s : State) : exec (.rep0 len) s = copyOutcome len (longRepSeq s.seq) s := rfl

theorem exec_rep1 (len : Nat) (s : State) :
    exec (.rep1 len) s = copyOutcome len { longRepSeq s.seq with rep0 := s.seq.rep1, rep1 := s.seq.rep0 } s := rfl

theorem exec_rep2 (len : Nat) (s : State) :
    exec (.rep2 len) s =
      copyOutcome len { longRepSeq s.seq with rep0 := s.seq.rep2, rep1 := s.seq.rep0, rep2 := s.seq.rep1 } s := rfl

theorem exec_rep3 (len : Nat) (s : State) :
    exec (.rep3 len) s =
      copyOutcome len
        { longRepSeq s.seq with rep0 := s.seq.rep3, rep1 := s.seq.rep0, rep2 := s.seq.rep1, rep3 := s.seq.rep2 } s :=
  rfl

/-- All that a new match can do (R202, R208, R253). -/
theorem execNewMatch_cases (len : Nat) (dist : Word) (s : State) :
    (dist = Config.endMarkerDistance ∧ execNewMatch len dist s = .next (endByMarker s)) ∨
    (dist.toNat < 2 ^ 31 ∧ execNewMatch len dist s = copyOutcome len { matchSeq s.seq with rep0 := dist } s) ∨
    (2 ^ 31 ≤ dist.toNat ∧
      execNewMatch len dist s = .next (takeFault .invalidDistance { s with seq := matchSeq s.seq })) := by
  unfold execNewMatch
  split
  · next hend => exact Or.inl ⟨hend, rfl⟩
  · split
    · next hlt => exact Or.inr (Or.inl ⟨hlt, rfl⟩)
    · next hge => exact Or.inr (Or.inr ⟨Nat.not_lt.mp hge, rfl⟩)

/-! ## Literals (R200, R201) -/

/-- A literal appends its byte and moves `POS`, `PREV` and `STATE` alone. -/
theorem putLiteral_appends {s : State} (h : s.ow.HoldsOutput) (b : Byte) :
    Appends 1 (s.ow.output ++ [b])
      { s.seq with pos := s.seq.pos + 1, prev := b, state := afterLiteral s.seq.state } s (putLiteral b s) where
  output := (owPut_output h b).2
  window := (owPut_output h b).1
  total := owPut_total b s.ow
  seq := rfl
  win q _ hne := by
    have hcursor : q ≠ s.ow.wpos.val := by
      have := hne 0 Nat.one_pos
      rwa [Nat.add_zero, Nat.mod_eq_of_lt s.ow.wpos.isLt] at this
    exact (winRead_owPut b s.ow q).trans (if_neg hcursor)
  puts := owPut_puts h b
  frame := rfl

/-- Settles O33. -/
theorem literalsAppendTheirByte : Obligations.LiteralsAppendTheirByte := fun s b h =>
  ⟨_, exec_lit b s, exec_litm b s, putLiteral_appends h b⟩

/-! ## Copies (R202 to R207, R209) -/

/-- The tail of a symbol whose registers have a legal distance in `REP0` copies (R209). -/
theorem copyOutcome_copies {s : State} {q : Seq} (len : Nat) (h : CanCopy q.rep0 s) (hpos : q.pos = s.seq.pos) :
    ∃ t, copyOutcome len q s = .next t ∧ Copies len q s t := by
  rcases validateAndCopy_cases (len := len) h.window (h.total.trans hpos.symm) with
    ⟨-, -, o, hcopy, hwindow, hout, htotal, hputs, hwin⟩ | ⟨hbad, -⟩
  · refine ⟨{ s with seq := _, ow := o }, by rw [copyOutcome, hcopy], ?_⟩
    exact { output := hout
            window := hwindow
            total := htotal
            seq := by rw [hpos]
            win := hwin
            puts := hputs
            frame := rfl }
  · rw [hpos] at hbad
    exact absurd hbad (not_or.mpr ⟨Nat.not_le.mpr h.below_pos, Nat.not_le.mpr h.below_dict⟩)

/-- Settles O34: a distance inside the dictionary is neither the end marker nor invalid. -/
theorem matchCopies : Obligations.MatchCopies := by
  intro s len dist _ _ hcan
  have hdict : dist.toNat < 131072 := hcan.below_dict
  rcases execNewMatch_cases len dist s with ⟨hend, -⟩ | ⟨-, hcopy⟩ | ⟨hge, -⟩
  · rw [hend] at hdict
    exact absurd hdict (by decide)
  · rw [exec_newMatch, hcopy]
    exact copyOutcome_copies len hcan rfl
  · omega

/-- Settles O35. -/
theorem shortRepCopiesOneByte : Obligations.ShortRepCopiesOneByte := fun s hcan => by
  rw [exec_shortrep]
  exact copyOutcome_copies 1 hcan rfl

/-- Settles O36: each repeat is a copy tail with the distances already moved. -/
theorem repeatsCopyAndRotate : Obligations.RepeatsCopyAndRotate := by
  refine fun s len _ _ => ⟨fun hcan => ?_, fun hcan => ?_, fun hcan => ?_, fun hcan => ?_⟩
  · rw [exec_rep0]
    exact copyOutcome_copies (q := longRepSeq s.seq) len hcan rfl
  · rw [exec_rep1]
    exact copyOutcome_copies len hcan rfl
  · rw [exec_rep2]
    exact copyOutcome_copies len hcan rfl
  · rw [exec_rep3]
    exact copyOutcome_copies len hcan rfl

/-! ## The end marker (R208) -/

/-- Settles O37: the last flush leaves `SINK` the output and the flush mark at the cursor. -/
theorem endMarkerEndsTheRun : Obligations.EndMarkerEndsTheRun := by
  intro s len h
  obtain ⟨-, -, hwpos, hspos, htotal, hsink⟩ := owFlush_fields s.ow
  obtain ⟨-, hout, -, -⟩ := owFlush_output h
  exact ⟨_, exec_eos len s, rfl, rfl, rfl, hsink, hout, winRead_owFlush s.ow, htotal, hwpos, hspos, rfl⟩

/-! ## `STATE` after each symbol (R199) -/

/-- A copy tail that does not fault leaves `STATE` as the symbol has set it (R209). -/
theorem copyOutcome_state {len : Nat} {q : Seq} {s t : State} (h : copyOutcome len q s = .next t)
    (hf : t.runState ≠ .fault) : t.seq.state = q.state := by
  rcases copyOutcome_next h with ⟨q', o', hv, rfl⟩ | ⟨c, o', rfl⟩
  · unfold validateAndCopy at hv
    split at hv
    · cases hv
    · obtain ⟨_, _, -, hv⟩ := Res.bind_eq_ok.mp hv
      obtain ⟨_, _, -, hv⟩ := Res.bind_eq_ok.mp hv
      cases hv; rfl
  · exact absurd rfl hf

theorem execNewMatch_state {len : Nat} {dist : Word} {s t : State} (h : execNewMatch len dist s = .next t)
    (hf : t.runState ≠ .fault) : t.seq.state = afterMatch s.seq.state := by
  rcases execNewMatch_cases len dist s with ⟨-, hdoes⟩ | ⟨-, hdoes⟩ | ⟨-, hdoes⟩
  · cases hdoes.symm.trans h; rfl
  · exact copyOutcome_state (hdoes.symm.trans h) hf
  · cases hdoes.symm.trans h; exact absurd rfl hf

/-- The rows of R199: `STATE` before, and after a literal, a match, a long repeat and a short repeat. -/
def stateRows : List (Nat × Nat × Nat × Nat × Nat) :=
  [(0, 0, 7, 8, 9), (1, 0, 7, 8, 9), (2, 0, 7, 8, 9), (3, 0, 7, 8, 9), (4, 1, 7, 8, 9), (5, 2, 7, 8, 9),
   (6, 3, 7, 8, 9), (7, 4, 10, 11, 11), (8, 5, 10, 11, 11), (9, 6, 10, 11, 11), (10, 4, 10, 11, 11),
   (11, 5, 10, 11, 11)]

/-- The four transitions give the values of the rows. -/
theorem stateRows_after : ∀ row ∈ stateRows, ∀ st : BitVec 4, st.toNat = row.1 →
    (afterLiteral st).toNat = row.2.1 ∧ (afterMatch st).toNat = row.2.2.1 ∧ (afterLongRep st).toNat = row.2.2.2.1 ∧
      (afterShortRep st).toNat = row.2.2.2.2 := by decide

/-- Settles O39: each kind of symbol that does not fault leaves `STATE` as its transition gives it, and the transitions
give the rows. -/
theorem stateTable : Obligations.StateTable := by
  intro before lit mat rep short hrow s t b len dist hst hf
  obtain ⟨hlit, hmat, hrep, hshort⟩ := stateRows_after _ hrow s.seq.state hst
  refine ⟨?_, ?_, ?_, fun h => ?_⟩
  · rintro (h | h) <;> cases h <;> exact hlit
  · rintro (h | h)
    · rw [execNewMatch_state h hf]; exact hmat
    · cases h; exact hmat
  · rintro (h | h | h | h) <;> rw [copyOutcome_state h hf] <;> exact hrep
  · rw [copyOutcome_state h hf]; exact hshort

end Sys2Proof.Machine
end

section
/-! PROOFS. The checksum framer: the CRC, the check of a frame and its making (spec/47_checksum_frame.md R231 to R237;
O40 to O43). -/

namespace Sys2Proof.Machine

/-! ## The CRC (R232) -/

/-- The CRC register after a byte sequence, before the last inversion. -/
def crcRegister (x : List Byte) : Word := x.foldl crcByte 0xFFFFFFFF

theorem crc32_eq (x : List Byte) : crc32 x = crcRegister x ^^^ 0xFFFFFFFF := rfl

@[simp] theorem crcRegister_nil : crcRegister [] = 0xFFFFFFFF := rfl

theorem crcRegister_append (x y : List Byte) : crcRegister (x ++ y) = y.foldl crcByte (crcRegister x) :=
  List.foldl_append

theorem crcByte_eq_iterate (c : Word) (b : Byte) : crcByte c b = crcBit^[8] (c ^^^ b.setWidth 32) := rfl

theorem exec_crc32 (x : List Byte) (s : State) : exec (.crc32 x) s = .next { s with result := .word (crc32 x) } := rfl

/-- Settles O40: the function is the register before the inversion. -/
theorem crc32Computes : Obligations.Crc32Computes :=
  ⟨crcRegister, crcRegister_nil, fun x b => crcRegister_append x [b], exec_crc32⟩

/-! ## The CRC tells apart sequences that differ in one byte (R237) -/

theorem getLsbD_crcBit (c : Word) (i : Nat) :
    (crcBit c).getLsbD i = (c.getLsbD (i + 1) ^^ (c.getLsbD 0 && (0xEDB88320 : Word).getLsbD i)) := by
  unfold crcBit
  split
  · next h => rw [h, Bool.true_and, BitVec.getLsbD_xor, BitVec.getLsbD_ushiftRight, Nat.add_comm]
  · next h => rw [Bool.eq_false_iff.mpr h, Bool.false_and, Bool.xor_false, BitVec.getLsbD_ushiftRight, Nat.add_comm]

/-- The polynomial has bit 31, so bit 31 of the shifted register tells the bit shifted out; knowing that bit, the
other bits can be read back. -/
theorem crcBit_injective : Function.Injective crcBit := by
  intro c d h
  have hbit (i : Nat) := congrArg (·.getLsbD i) h
  simp only [getLsbD_crcBit] at hbit
  have hlow : c.getLsbD 0 = d.getLsbD 0 := by
    simpa [BitVec.getLsbD_of_ge] using hbit 31
  refine BitVec.eq_of_getLsbD_eq fun i _ => ?_
  cases i with
  | zero => exact hlow
  | succ i =>
    have := hbit i
    rwa [hlow, Bool.xor_left_inj] at this

theorem crcByte_left_injective (b : Byte) : Function.Injective fun c => crcByte c b :=
  fun _ _ h => BitVec.xor_left_inj _ |>.mp (crcBit_injective.iterate 8 h)

theorem setWidth_byte_injective : Function.Injective fun b : Byte => (b.setWidth 32 : Word) := by
  intro b d h
  have := congrArg BitVec.toNat h
  bv_omega

theorem crcByte_right_injective (c : Word) : Function.Injective (crcByte c) :=
  fun _ _ h => setWidth_byte_injective (BitVec.xor_right_inj _ |>.mp (crcBit_injective.iterate 8 h))

theorem foldl_crcByte_injective (x : List Byte) : Function.Injective fun c => x.foldl crcByte c := by
  induction x with
  | nil => exact Function.injective_id
  | cons b x ih => exact ih.comp (crcByte_left_injective b)

theorem crc32_inj_byte {l r : List Byte} {b d : Byte} (h : crc32 (l ++ b :: r) = crc32 (l ++ d :: r)) : b = d := by
  rw [crc32_eq, crc32_eq, BitVec.xor_left_inj, crcRegister_append, crcRegister_append] at h
  exact crcByte_right_injective _ (foldl_crcByte_injective r h)

theorem crc32_modify_ne {x : List Byte} {j : Nat} {f : Byte → Byte} (hj : j < x.length) (hf : ∀ b, f b ≠ b) :
    crc32 (x.modify j f) ≠ crc32 x := by
  intro h
  rw [List.modify_eq_take_cons_drop hj] at h
  conv at h => rhs; rw [← List.take_append_drop j x, List.drop_eq_getElem_cons hj]
  exact hf _ (crc32_inj_byte h)

/-! ## A word and its four bytes, little-endian (R231) -/

theorem storedCrc_eq_append (b0 b1 b2 b3 : Byte) : storedCrc b0 b1 b2 b3 = b3 ++ b2 ++ b1 ++ b0 := by
  refine BitVec.eq_of_getLsbD_eq fun i hi => ?_
  simp only [storedCrc, BitVec.getLsbD_or, BitVec.getLsbD_shiftLeft, BitVec.getLsbD_setWidth, BitVec.getLsbD_append]
  grind

/-- The bytes of a word, put together again. -/
theorem append_bytes (w : Word) :
    (w >>> 24).setWidth 8 ++ (w >>> 16).setWidth 8 ++ (w >>> 8).setWidth 8 ++ w.setWidth 8 = w := by
  refine BitVec.eq_of_getLsbD_eq fun i hi => ?_
  simp only [BitVec.getLsbD_append, BitVec.getLsbD_setWidth, BitVec.getLsbD_ushiftRight]
  grind

theorem wordBytes_append (b0 b1 b2 b3 : Byte) : wordBytes (b3 ++ b2 ++ b1 ++ b0) = [b0, b1, b2, b3] := by
  simp only [wordBytes, List.cons.injEq, and_true]
  refine ⟨?_, ?_, ?_, ?_⟩
  all_goals
    refine BitVec.eq_of_getLsbD_eq fun i hi => ?_
    simp only [BitVec.getLsbD_append, BitVec.getLsbD_setWidth, BitVec.getLsbD_ushiftRight]
    grind

/-- Four bytes are the bytes of a word just where they read as it. -/
theorem wordBytes_eq_iff {w : Word} {b0 b1 b2 b3 : Byte} :
    wordBytes w = [b0, b1, b2, b3] ↔ b3 ++ b2 ++ b1 ++ b0 = w := by
  refine ⟨fun h => ?_, fun h => h ▸ wordBytes_append b0 b1 b2 b3⟩
  obtain ⟨rfl, rfl, rfl, rfl⟩ : _ = b0 ∧ _ = b1 ∧ _ = b2 ∧ _ = b3 := by simpa [wordBytes] using h
  exact append_bytes w

theorem wordBytes_injective : Function.Injective wordBytes :=
  fun v _ h => (append_bytes v).symm.trans (wordBytes_eq_iff.mp h.symm)

/-! ## `CF.STRIP` (R234) -/

theorem exec_cfStrip (y : List Byte) (s : State) :
    exec (.cfStrip y) s = .next { s with cf := cfStrip y, result := .none } := rfl

theorem cfStrip_short {y : List Byte} (h : y.length < 4) :
    cfStrip y = { status := .short, stored := 0, computed := 0, payload := [] } := by
  rcases cfStrip_cases y with ⟨-, hs⟩ | ⟨b0, b1, b2, b3, x, rfl, -⟩
  · exact hs
  · exact absurd h (by simp)

theorem cfStrip_match {b0 b1 b2 b3 : Byte} {x : List Byte} (h : b3 ++ b2 ++ b1 ++ b0 = crc32 x) :
    cfStrip (b0 :: b1 :: b2 :: b3 :: x) =
      { status := .ok, stored := crc32 x, computed := crc32 x, payload := x } := by
  rw [cfStrip, storedCrc_eq_append, if_pos h, h]

theorem cfStrip_mismatch {b0 b1 b2 b3 : Byte} {x : List Byte} (h : b3 ++ b2 ++ b1 ++ b0 ≠ crc32 x) :
    cfStrip (b0 :: b1 :: b2 :: b3 :: x) =
      { status := .mismatch, stored := b3 ++ b2 ++ b1 ++ b0, computed := crc32 x, payload := [] } := by
  rw [cfStrip, storedCrc_eq_append, if_neg h]

/-- Settles O41: the three cases of `CF.STRIP`. -/
theorem cfStripChecks : Obligations.CfStripChecks := by
  refine fun s => ⟨fun y h => ?_, fun b0 b1 b2 b3 x h => ?_, fun b0 b1 b2 b3 x h => ?_⟩
  all_goals rw [exec_cfStrip]
  · rw [cfStrip_short h]
  · rw [cfStrip_match h]
  · rw [cfStrip_mismatch h]

/-! ## `CF.ATTACH` (R236) -/

theorem exec_cfAttach (x : List Byte) (s : State) :
    exec (.cfAttach x) s = .next { s with result := .bytes (cfAttach x) } := rfl

@[simp] theorem take_cfAttach (x : List Byte) : (cfAttach x).take 4 = wordBytes (crc32 x) := rfl

@[simp] theorem drop_cfAttach (x : List Byte) : (cfAttach x).drop 4 = x := rfl

@[simp] theorem length_cfAttach (x : List Byte) : (cfAttach x).length = x.length + 4 := rfl

/-- Settles O42: the bytes are those of the CRC as a word. -/
theorem cfAttachFrames : Obligations.CfAttachFrames :=
  fun x s => ⟨_, _, _, _, append_bytes (crc32 x), exec_cfAttach x s⟩

/-! ## `CF.STRIP` after `CF.ATTACH` (R237) -/

theorem cfStrip_cfAttach (x : List Byte) :
    cfStrip (cfAttach x) = { status := .ok, stored := crc32 x, computed := crc32 x, payload := x } :=
  cfStrip_match (append_bytes (crc32 x))

/-- A frame of four bytes or more that is not the one `CF.ATTACH` makes of its payload is refused. -/
theorem cfStrip_of_ne_cfAttach {y : List Byte} (hlen : 4 ≤ y.length) (hy : y ≠ cfAttach (y.drop 4)) :
    (cfStrip y).status = .mismatch ∧ (cfStrip y).payload = [] := by
  rcases cfStrip_cases y with ⟨hshort, -⟩ | ⟨b0, b1, b2, b3, x, rfl, -⟩
  · omega
  · have hcrc : b3 ++ b2 ++ b1 ++ b0 ≠ crc32 x := fun h => hy (congrArg (· ++ x) (wordBytes_eq_iff.mpr h).symm)
    rw [cfStrip_mismatch hcrc]
    exact ⟨rfl, rfl⟩

/-- One byte of an attached frame changed: in the first four, the payload is still `x` and the frame is not its own;
in the payload, the first four bytes are still the CRC of `x`, which is not that of the changed payload. -/
theorem modify_cfAttach_ne {x : List Byte} {j : Nat} {f : Byte → Byte} (hj : j < (cfAttach x).length)
    (hf : ∀ b, f b ≠ b) : (cfAttach x).modify j f ≠ cfAttach (((cfAttach x).modify j f).drop 4) := by
  intro h
  rcases Nat.lt_or_ge j 4 with hlt | hge
  · rw [List.drop_modify_of_lt _ _ _ _ hlt, drop_cfAttach] at h
    have hbyte := List.getElem_modify_eq f j (cfAttach x) (by rwa [List.length_modify])
    simp only [h] at hbyte
    exact hf _ hbyte.symm
  · rw [List.drop_modify_of_ge _ _ _ _ hge, drop_cfAttach] at h
    have htake := congrArg (List.take 4) h
    rw [List.take_modify, take_cfAttach, take_cfAttach, List.modify_eq_self hge] at htake
    rw [length_cfAttach] at hj
    exact crc32_modify_ne (by omega) hf (wordBytes_injective htake).symm

theorem xor_bit_ne {k : Nat} (hk : k < 8) (b : Byte) : b ^^^ (1#8 <<< k) ≠ b := by
  intro h
  have := congrArg (·.getLsbD k) h
  simp [hk] at this

/-- Settles O43: a flipped bit changes one byte, so the frame is no longer the one attached to its payload. -/
theorem stripUndoesAttachAndSeesOneBit : Obligations.StripUndoesAttachAndSeesOneBit := by
  intro x
  rw [cfStrip_cfAttach]
  refine ⟨rfl, rfl, fun j k hj hk => cfStrip_of_ne_cfAttach ?_ (modify_cfAttach_ne hj (xor_bit_ne hk))⟩
  rw [List.length_modify, length_cfAttach]
  omega

end Sys2Proof.Machine
end

section
/-! PROOFS. The host's commands (spec/48_host_commands.md R240 to R244; O5, O44 to O47). -/

namespace Sys2Proof.Machine

/-! ## The values of `CMD` (R240, R244) -/

/-- Settles O5: the decoder tells three different values apart and answers nothing else. -/
theorem commandCodes : Obligations.CommandCodes := by
  intro v i
  constructor
  · intro h
    unfold decodeCommand at h
    split at h
    · next hv => cases h; exact Or.inl ⟨hv, rfl⟩
    · split at h
      · next hv => cases h; exact Or.inr (Or.inl ⟨hv, rfl⟩)
      · split at h
        · next hv => cases h; exact Or.inr (Or.inr ⟨hv, rfl⟩)
        · cases h
  · rintro (⟨rfl, rfl⟩ | ⟨rfl, rfl⟩ | ⟨rfl, rfl⟩) <;> rfl

/-! ## What each command runs (R241 to R243) -/

theorem exec_reset (s : State) : exec .reset s = .next (resetCommand s) := rfl

theorem exec_start (s : State) : exec .start s = execStart s := rfl

theorem exec_strip (s : State) : exec .strip s = execStrip s := rfl

/-- Settles O44: `RESET` does not look at the run state. -/
theorem resetClearsStatus : Obligations.ResetClearsStatus := fun s =>
  ⟨_, exec_reset s, resetCommand_runState s, resetCommand_cause s, resetCommand_endMarker s, resetCommand_cf s⟩

theorem execStrip_of_done {s : State} (h : s.runState = .done) :
    execStrip s = .next { s with cf := cfStrip s.ow.sink } := if_pos h

theorem execStrip_of_not_done {s : State} (h : s.runState ≠ .done) : execStrip s = .next s := if_neg h

/-- Settles O47: a `STRIP` leaves `DONE` and `SINK`, so a second one strips the same bytes. -/
theorem stripOnlyAfterDone : Obligations.StripOnlyAfterDone := by
  refine ⟨fun s hd => execStrip_of_done hd, fun s t hd ht => ?_, fun s hd => execStrip_of_not_done hd⟩
  rw [exec_strip, execStrip_of_done hd] at ht
  cases ht
  exact execStrip_of_done hd

/-! ## `START` (R242) -/

/-- The range decoder that `START` and `RC.INIT` leave of an `IN` of five bytes or more (R121, R242). -/
def startedRc (inp : List Byte) : Rc :=
  { range := 0xFFFFFFFF, code := (inp.take 5).foldl shiftIn 0, inPos := 5, pmem := { base := .init, cells := [] } }

/-- All that `START` can do outside a run: `RC.INIT` finds its five bytes, or `IN` is too short for it. -/
theorem execStart_cases {s : State} (hr : s.runState ≠ .run) :
    (5 ≤ s.presented.length ∧ execStart s = .next { initPhase s with rc := startedRc s.presented }) ∨
    (s.presented.length < 5 ∧ ∃ r, execStart s = .next (takeFault .truncatedInput { initPhase s with rc := r })) := by
  rw [execStart, if_neg hr]
  rcases rcInit_cases (initPhase s).input (initPhase s).rc with ⟨h5, hi⟩ | ⟨hlt, m, hi⟩
  · exact Or.inl ⟨h5, by rw [hi]; rfl⟩
  · exact Or.inr ⟨hlt, m, by rw [hi]; rfl⟩

/-- Settles O45: five bytes presented are the bytes `RC.INIT` takes. -/
theorem startBeginsARun : Obligations.StartBeginsARun := by
  intro s b0 b1 b2 b3 b4 rest hr hin
  rcases execStart_cases hr with ⟨-, hstart⟩ | ⟨hlt, -⟩
  · refine ⟨_, hstart, fun _ => rfl, rfl, rfl, ?_, rfl, rfl, rfl, rfl, rfl, fun _ => rfl, rfl, rfl, rfl, rfl, rfl, rfl⟩
    rw [hin]
    exact primed_eq_append b0 b1 b2 b3 b4
  · rw [hin] at hlt
    simp only [List.length_cons] at hlt
    omega

/-- Settles O46: the two cases of `START` that begin no run. -/
theorem startFaultsOrIsIgnored : Obligations.StartFaultsOrIsIgnored := by
  refine ⟨fun s hr hlt => ?_, fun s hr => if_pos hr⟩
  rcases execStart_cases hr with ⟨h5, -⟩ | ⟨-, r, hstart⟩
  · omega
  · exact ⟨_, hstart, rfl, rfl, rfl, rfl, rfl⟩

end Sys2Proof.Machine
end

section
/-! PROOFS. The faults of a run and that nothing else stops it (spec/60_exceptions.md R251 to R264; O10, O38, O57). -/

namespace Sys2Proof.Machine

/-! ## `TRUNCATED_INPUT` (R252) -/

/-- Settles O10: in a run in order the only other answer of the fetch is that `IN` is exhausted. -/
theorem exhaustedInputFaults : Obligations.ExhaustedInputFaults := by
  intro s hinv he hr hsize hnone
  obtain ⟨-, hmarker, -⟩ := statusOk_of_run hinv.status hr
  rcases answers_fetchSymbol (hinv.run hr) with ⟨i, r, hf, -⟩ | ⟨r, hf⟩
  · exact absurd hf (hnone i r)
  · exact ⟨_, step_of_fetch_raise he hr hsize hf, rfl, rfl, hmarker, rfl, rfl⟩

/-! ## `DICT_BOUNDS` and `INVALID_DISTANCE` (R253, R254) -/

/-- The copy tail of a symbol whose registers have an illegal distance in `REP0` faults before it copies (R209). -/
theorem copyOutcome_dictBounds {s : State} {q : Seq} (len : Nat)
    (h : q.pos ≤ q.rep0.toNat ∨ Config.dictSizeCheck ≤ q.rep0.toNat) :
    ∃ t, copyOutcome len q s = .next t ∧ Faulted .dictBounds s t :=
  ⟨_, by rw [copyOutcome, validateAndCopy, if_pos h], faulted_ow _ s q s.ow⟩

/-- Settles O38: a new match is told apart by its distance, a repeat has its distance in `REP0` before the tail. -/
theorem badDistancesFault : Obligations.BadDistancesFault := by
  intro s len bad
  refine ⟨fun dist hlt hbad => ?_, fun hbad => ?_, fun hbad => ?_, fun hbad => ?_, fun hbad => ?_, fun hbad => ?_,
    fun dist hge hne => ?_⟩
  · rcases execNewMatch_cases len dist s with ⟨rfl, -⟩ | ⟨-, hcopy⟩ | ⟨hge, -⟩
    · exact absurd hlt (by decide)
    · rw [exec_newMatch, hcopy]
      exact copyOutcome_dictBounds len hbad
    · omega
  · rw [exec_shortrep]
    exact copyOutcome_dictBounds 1 hbad
  · rw [exec_rep0]
    exact copyOutcome_dictBounds (q := longRepSeq s.seq) len hbad
  · rw [exec_rep1]
    exact copyOutcome_dictBounds len hbad
  · rw [exec_rep2]
    exact copyOutcome_dictBounds len hbad
  · rw [exec_rep3]
    exact copyOutcome_dictBounds len hbad
  · rcases execNewMatch_cases len dist s with ⟨hend, -⟩ | ⟨hlt, -⟩ | ⟨-, hfault⟩
    · exact absurd hend hne
    · omega
    · exact ⟨_, hfault, faulted_ow _ s _ s.ow⟩

/-! ## Every step has a next state (R256) -/

theorem exists_next_engineStep {s : State} (h : Inv s) : ∃ t, engineStep s = .next t := by
  unfold engineStep
  split
  · next hr =>
    split
    · exact ⟨_, rfl⟩
    · next hsize =>
      rcases answers_fetchSymbol (h.run hr) with ⟨i, r, hf, -⟩ | ⟨r, hf⟩
      · obtain ⟨t, ht, -⟩ := exists_runTurn_of_fetch h hr (Bool.eq_false_iff.mpr hsize) hf
        exact ⟨t, by rw [hf]; exact ht⟩
      · exact ⟨_, by rw [hf]; rfl⟩
  · exact ⟨_, rfl⟩

theorem exists_next_execStart (s : State) : ∃ t, execStart s = .next t := by
  by_cases hr : s.runState = .run
  · exact ⟨s, if_pos hr⟩
  · rcases execStart_cases hr with ⟨-, h⟩ | ⟨-, _, h⟩ <;> exact ⟨_, h⟩

theorem exists_next_execStrip (s : State) : ∃ t, execStrip s = .next t := by
  by_cases hd : s.runState = .done
  · exact ⟨_, execStrip_of_done hd⟩
  · exact ⟨_, execStrip_of_not_done hd⟩

theorem exists_next_hostWrite (n : Nat) (v : Word) (s : State) : ∃ t, hostWrite n v s = .next t := by
  unfold hostWrite
  split
  · split
    · next i hi =>
      rcases decodeCommand_ok hi with rfl | rfl | rfl
      · exact ⟨_, exec_reset s⟩
      · exact exists_next_execStart s
      · exact exists_next_execStrip s
    · exact ⟨_, rfl⟩
  · split <;> exact ⟨_, rfl⟩
  · exact ⟨_, rfl⟩

theorem exists_next_handle {s : State} (h : Inv s) {e : Event} (he : e.ofHost = true) : ∃ t, handle e s = .next t := by
  cases e
  case engine => exact exists_next_engineStep h
  case write n v => exact exists_next_hostWrite n v s
  case read => exact ⟨_, rfl⟩
  case present => exact ⟨_, rfl⟩
  all_goals cases he

/-- Settles O57: the step is the engine's turn or the handling of one event of the host. -/
theorem runsNeverGetStuck : Obligations.RunsNeverGetStuck := by
  intro s h
  cases hes : s.events with
  | nil => rw [step_of_no_event hes]; exact exists_next_engineStep h
  | cons e rest =>
    have hall : (e :: rest).all Event.ofHost = true := hes ▸ h.host
    obtain ⟨he, hrest⟩ := (Bool.and_eq_true _ _).mp (List.all_cons ▸ hall)
    rw [step_of_event hes]
    exact exists_next_handle (h.outside _ _ _ _ hrest) he

end Sys2Proof.Machine
end

section
/-! PROOFS. A run is a function of `IN` and `OUT_SIZE` (spec/48_host_commands.md R246; O60): two instances that started
with the same ones are kept in step by every turn of the run loop. -/

namespace Sys2Proof.Machine

/-! ## Two windows that stand for the same output -/

/-- Both windows stand for the same output, with the same cursors and `SINK`; what no put of the run wrote may
differ (R49). -/
structure Ow.Matches (o p : Ow) : Prop where
  left : o.HoldsOutput
  right : p.HoldsOutput
  wpos : o.wpos = p.wpos
  spos : o.spos = p.spos
  sink : o.sink = p.sink
  output : o.output = p.output

namespace Ow.Matches

variable {o p o' p' : Ow}

theorem total (h : o.Matches p) : o.total = p.total := by
  rw [← h.left.length_output, h.output, h.right.length_output]

/-- Every byte that `OW.GET` may read is a byte of the output, so the same in both. -/
theorem winRead_eq (h : o.Matches p) {d : Nat} (hd : d < o.total) (hcap : d < Config.windowCap) :
    winRead o (winIndex o.wpos d) = winRead p (winIndex p.wpos d) := by
  have hbyte := h.left.byte d hd hcap
  rw [h.output, h.total, h.right.byte d (h.total ▸ hd) hcap] at hbyte
  exact (Option.some.inj hbyte).symm

/-- The same number of puts that leave the same output leave the same cursors and `SINK`. -/
theorem of_puts (h : o.Matches p) {n : Nat} (ho : o.Puts n o') (hp : p.Puts n p') (left : o'.HoldsOutput)
    (right : p'.HoldsOutput) (output : o'.output = p'.output) : o'.Matches p' := by
  have wpos : o'.wpos = p'.wpos := Fin.ext (by rw [ho.wpos, hp.wpos, h.wpos])
  have total : o'.total = p'.total := by rw [← left.length_output, output, right.length_output]
  by_cases hc : o.wpos.val + n < Config.windowCap
  · obtain ⟨hos, hok⟩ := ho.below hc
    obtain ⟨hps, hpk⟩ := hp.below (h.wpos ▸ hc)
    exact ⟨left, right, wpos, by rw [hos, hps, h.spos], by rw [hok, hpk, h.sink], output⟩
  · obtain ⟨hos, hok⟩ := ho.wrapped (Nat.not_lt.mp hc)
    obtain ⟨hps, hpk⟩ := hp.wrapped (h.wpos ▸ Nat.not_lt.mp hc)
    exact ⟨left, right, wpos, Fin.ext (hos.trans hps.symm), by rw [hok, hpk, output, total, wpos], output⟩

theorem owPut (h : o.Matches p) (b : Byte) : (owPut b o).Matches (owPut b p) := by
  obtain ⟨left, hleft⟩ := owPut_output h.left b
  obtain ⟨right, hright⟩ := owPut_output h.right b
  exact h.of_puts (owPut_puts h.left b) (owPut_puts h.right b) left right (by rw [hleft, hright, h.output])

theorem owFlush (h : o.Matches p) : (owFlush o).Matches (owFlush p) := by
  obtain ⟨-, -, howpos, hospos, -, hosink⟩ := owFlush_fields o
  obtain ⟨-, -, hpwpos, hpspos, -, hpsink⟩ := owFlush_fields p
  obtain ⟨left, hleft, -⟩ := owFlush_output h.left
  obtain ⟨right, hright, -⟩ := owFlush_output h.right
  exact ⟨left, right, by rw [howpos, hpwpos, h.wpos], by rw [hospos, hpspos, h.wpos], by rw [hosink, hpsink, h.output],
    by rw [hleft, hright, h.output]⟩

/-- A literal is fetched alike: its match byte, if it has one, is a byte of the output (R201). -/
theorem fetchLiteral_eq (h : o.Matches p) (inp : List Byte) (q : Seq) (r : Rc) :
    fetchLiteral inp q o r = fetchLiteral inp q p r := by
  unfold fetchLiteral
  split
  · rfl
  · rw [owGet_eq, owGet_eq, ← h.total]
    by_cases hd : q.rep0.toNat < o.total ∧ q.rep0.toNat < Config.windowCap
    · rw [if_pos hd, if_pos hd, h.winRead_eq hd.1 hd.2]
    · rw [if_neg hd, if_neg hd]

theorem fetchSymbolFrom_eq (h : o.Matches p) (inp : List Byte) (q : Seq) (r : Rc) :
    fetchSymbolFrom inp q o r = fetchSymbolFrom inp q p r := by
  simp only [fetchSymbolFrom, h.fetchLiteral_eq]

end Ow.Matches

/-! ## Two instances in step -/

/-- Nothing is pending in either of two instances of the same run; while it goes on it is in order, and the windows
stand for the same output. -/
structure InStep (s t : State) : Prop where
  same : SameRun s t
  left_events : s.events = []
  right_events : t.events = []
  run : s.runState = .run → RunOk s
  window : s.runState = .run → s.ow.Matches t.ow

/-- Both outcomes are next states, and these are in step. -/
def StayInStep (o p : Host.Outcome State Fault Refusal) : Prop :=
  ∃ s t, o = .next s ∧ p = .next t ∧ InStep s t

theorem runState_ne_fault {s : State} (hr : s.runState = .run) : s.runState ≠ .fault := by rw [hr]; decide

/-- A fault leaves the same of two instances of a run: all that R263 leaves defined is the same. -/
theorem SameRun.faulted {s t s' t' : State} (h : SameRun s t) {c : Cause} (hs : Faulted c s s') (ht : Faulted c t t') :
    SameRun s' t' where
  runState := by rw [hs.runState, ht.runState]
  cause := by rw [hs.cause, ht.cause]
  endMarker := by rw [hs.endMarker, ht.endMarker, h.endMarker]
  cf := by rw [hs.cf, ht.cf, h.cf]
  outSize := by rw [hs.outSize, ht.outSize, h.outSize]
  input := by rw [hs.outside.1, ht.outside.1, h.input]
  rc hf := absurd hs.runState hf
  seq hf := absurd hs.runState hf
  wpos hf := absurd hs.runState hf
  spos hf := absurd hs.runState hf
  total hf := absurd hs.runState hf
  sink hf := absurd hs.runState hf
  output hf := absurd hs.runState hf

/-- The end of a run without fault leaves the same of two instances of it (R197, R211). -/
theorem SameRun.endRun {s t : State} (h : SameRun s t) (hr : s.runState = .run) (hw : s.ow.Matches t.ow) :
    SameRun (endRun s) (endRun t) :=
  { h with
    runState := rfl
    rc := fun _ => h.rc (runState_ne_fault hr)
    seq := fun _ => h.seq (runState_ne_fault hr)
    wpos := fun _ => hw.owFlush.wpos
    spos := fun _ => hw.owFlush.spos
    total := fun _ => hw.owFlush.total
    sink := fun _ => hw.owFlush.sink
    output := fun _ => hw.owFlush.output }

namespace InStep

section
variable {s t s' t' : State}

/-- Once the run has left `RUN`, all there is to keep is the same run and that nothing is pending. -/
theorem of_not_run (same : SameRun s t) (hs : s.events = []) (ht : t.events = []) (hr : s.runState ≠ .run) :
    InStep s t :=
  ⟨same, hs, ht, fun hrun => absurd hrun hr, fun hrun => absurd hrun hr⟩

theorem faulted (h : InStep s t) {c : Cause} (hs : Faulted c s s') (ht : Faulted c t t') : InStep s' t' := by
  obtain ⟨-, -, -, -, -, hsevents⟩ := hs.outside
  obtain ⟨-, -, -, -, -, htevents⟩ := ht.outside
  exact of_not_run (h.same.faulted hs ht) (hsevents.trans h.left_events) (htevents.trans h.right_events)
    (by rw [hs.runState]; decide)

theorem passBoundary (h : InStep s t) : InStep (passBoundary s) (passBoundary t) where
  same := { h.same with }
  left_events := h.left_events
  right_events := h.right_events
  run hr := { h.run hr with }
  window := h.window

theorem setRc (h : InStep s t) {r : Rc} (run : RunOk { s with rc := r }) :
    InStep { s with rc := r } { t with rc := r } where
  same := { h.same with rc := fun _ => rfl }
  left_events := h.left_events
  right_events := h.right_events
  run _ := run
  window := h.window

/-- The registers and the window moved alike, with the run then in order. -/
theorem moved (h : InStep s t) {q : Seq} {o p : Ow} (run : RunOk { s with seq := q, ow := o }) (hw : o.Matches p) :
    InStep { s with seq := q, ow := o } { t with seq := q, ow := p } where
  same :=
    { h.same with
      seq := fun _ => rfl
      wpos := fun _ => hw.wpos
      spos := fun _ => hw.spos
      total := fun _ => hw.total
      sink := fun _ => hw.sink
      output := fun _ => hw.output }
  left_events := h.left_events
  right_events := h.right_events
  run _ := run
  window _ := hw

end

section
variable {s t : State} (h : InStep s t) (hr : s.runState = .run)
include h hr

/-! ### What a run in step does next -/

theorem right_run : t.runState = .run := h.same.runState ▸ hr

theorem seq_eq : s.seq = t.seq := h.same.seq (runState_ne_fault hr)

theorem sizeReached_eq : sizeReached s = sizeReached t := by
  unfold sizeReached
  rw [h.same.outSize, h.seq_eq hr]

theorem fetchSymbol_eq : fetchSymbol s = fetchSymbol t := by
  unfold fetchSymbol
  rw [(h.window hr).fetchSymbolFrom_eq, h.same.input, h.seq_eq hr, h.same.rc (runState_ne_fault hr)]

theorem endRun : InStep (endRun s) (endRun t) :=
  of_not_run (h.same.endRun hr (h.window hr)) h.left_events h.right_events (by rw [endRun_runState]; decide)

theorem endByMarker : InStep (endByMarker s) (endByMarker t) := by
  have same : SameRun { s with seq := { matchSeq s.seq with rep0 := Config.endMarkerDistance }, endMarker := true }
      { t with seq := { matchSeq t.seq with rep0 := Config.endMarkerDistance }, endMarker := true } :=
    { h.same with
      endMarker := rfl
      seq := fun _ => by rw [h.seq_eq hr] }
  exact of_not_run (same.endRun hr (h.window hr)) h.left_events h.right_events (by rw [endByMarker_runState]; decide)

/-! ### Symbols (R200 to R209) -/

theorem putLiteral (hsize : sizeReached s = false) (b : Byte) : InStep (putLiteral b s) (putLiteral b t) := by
  have hmoved := h.moved ((h.run hr).putLiteral hsize b) ((h.window hr).owPut b)
  rw [h.seq_eq hr] at hmoved
  unfold Machine.putLiteral
  rwa [h.seq_eq hr]

/-- A copy tail with the same registers copies the same bytes or faults in both (R209). -/
theorem copyOutcome (hsize : sizeReached s = false) {len : Nat} {q : Seq} (hlen : len ≤ 273) (hpos : q.pos = s.seq.pos)
    (hst : q.state.toNat < 12) : StayInStep (copyOutcome len q s) (copyOutcome len q t) := by
  have run := h.run hr
  have hw := h.window hr
  have htotal : s.ow.total = q.pos := run.total.trans hpos.symm
  rcases validateAndCopy_cases (len := len) hw.left htotal with
    ⟨hlt, hdict, o, hso, left, hleft, hadd, hputs, -⟩ | ⟨hbad, -⟩
  · rcases validateAndCopy_cases (len := len) hw.right (hw.total ▸ htotal) with
      ⟨-, -, p, htp, right, hright, -, hputs', -⟩ | ⟨hbad, -⟩
    · refine ⟨{ s with seq := _, ow := o }, { t with seq := _, ow := p }, by rw [Machine.copyOutcome, hso],
        by rw [Machine.copyOutcome, htp, ← hw.output], h.moved ?_ ?_⟩
      · exact run.appends hsize hlen left hadd hputs (by rw [hpos]) hst (by rw [hleft]) fun _ =>
          ⟨Nat.lt_add_right len hlt, hdict⟩
      · exact hw.of_puts hputs hputs' left right (by rw [hleft, hright, hw.output])
    · omega
  · obtain ⟨s', hs, hsf⟩ := copyOutcome_dictBounds (s := s) len hbad
    obtain ⟨t', ht, htf⟩ := copyOutcome_dictBounds (s := t) len hbad
    exact ⟨s', t', hs, ht, h.faulted hsf htf⟩

theorem execNewMatch (hsize : sizeReached s = false) {len : Nat} (hlen : len ≤ 273) (dist : Word) :
    StayInStep (execNewMatch len dist s) (execNewMatch len dist t) := by
  unfold Machine.execNewMatch
  split
  · exact ⟨_, _, rfl, rfl, h.endByMarker hr⟩
  · split
    · rw [← h.seq_eq hr]
      exact h.copyOutcome hr hsize hlen rfl (afterMatch_lt _)
    · exact ⟨_, _, rfl, rfl, h.faulted (faulted_ow _ s _ s.ow) (faulted_ow _ t _ t.ow)⟩

theorem exec_symbol (hsize : sizeReached s = false) {i : Instr} (hi : isSymbol i = true) (hw : i.wellFormed = true) :
    StayInStep (exec i s) (exec i t) := by
  have hseq := h.seq_eq hr
  cases i
  case lit b => exact ⟨_, _, exec_lit b s, exec_lit b t, h.putLiteral hr hsize b⟩
  case litm b => exact ⟨_, _, exec_litm b s, exec_litm b t, h.putLiteral hr hsize b⟩
  case newMatch len dist =>
    simp only [Instr.wellFormed, Bool.and_eq_true] at hw
    exact h.execNewMatch hr hsize (matchLenOk_le hw.1) dist
  case eos len => exact ⟨_, _, exec_eos len s, exec_eos len t, h.endByMarker hr⟩
  case shortrep =>
    rw [exec_shortrep, exec_shortrep, ← hseq]
    exact h.copyOutcome hr hsize (by decide) rfl (afterShortRep_lt _)
  case rep0 len =>
    rw [exec_rep0, exec_rep0, ← hseq]
    exact h.copyOutcome hr hsize (matchLenOk_le hw) rfl (afterLongRep_lt _)
  case rep1 len =>
    rw [exec_rep1, exec_rep1, ← hseq]
    exact h.copyOutcome hr hsize (matchLenOk_le hw) rfl (afterLongRep_lt _)
  case rep2 len =>
    rw [exec_rep2, exec_rep2, ← hseq]
    exact h.copyOutcome hr hsize (matchLenOk_le hw) rfl (afterLongRep_lt _)
  case rep3 len =>
    rw [exec_rep3, exec_rep3, ← hseq]
    exact h.copyOutcome hr hsize (matchLenOk_le hw) rfl (afterLongRep_lt _)
  all_goals cases hi

end

/-! ### Steps (R197) -/

/-- A turn of the run loop keeps two instances in step: both end at the size, run the same symbol, or find `IN`
exhausted. -/
theorem step_of_run {s t : State} (h : InStep s t) (hr : s.runState = .run) : StayInStep (step s) (step t) := by
  have run := h.run hr
  have hr' := h.right_run hr
  have hsize' := h.sizeReached_eq hr
  have hfetch := h.fetchSymbol_eq hr
  cases hsize : sizeReached s
  case true =>
    exact ⟨_, _, step_of_sizeReached h.left_events hr hsize,
      step_of_sizeReached h.right_events hr' (hsize'.symm.trans hsize), h.endRun hr⟩
  case false =>
    rw [hsize] at hsize'
    rcases answers_fetchSymbol run with ⟨i, r, hf, -⟩ | ⟨r, hf⟩
    · have fetched := fetchSymbolFrom_ok hf
      rw [step_of_fetch h.left_events hr hsize hf,
        step_of_fetch h.right_events hr' hsize'.symm (hfetch.symm.trans hf)]
      exact (h.passBoundary.setRc (run.fetched hf)).exec_symbol hr hsize fetched.symbol fetched.wellFormed
    · exact ⟨_, _, step_of_fetch_raise h.left_events hr hsize hf,
        step_of_fetch_raise h.right_events hr' hsize'.symm (hfetch.symm.trans hf),
        h.passBoundary.faulted (faulted_rc _ _ r) (faulted_rc _ _ r)⟩

theorem step {s t : State} (h : InStep s t) : StayInStep (step s) (step t) := by
  by_cases hr : s.runState = .run
  · exact h.step_of_run hr
  · exact ⟨s, t, step_of_not_run h.left_events hr, step_of_not_run h.right_events (h.same.runState ▸ hr), h⟩

theorem core_run : ∀ (n : Nat) {s t : State}, InStep s t →
    ∃ s' t', Sys2Proof.core.run n s = .next s' ∧ Sys2Proof.core.run n t = .next t' ∧ InStep s' t'
  | 0, s, t, h => ⟨s, t, rfl, rfl, h⟩
  | n + 1, _, _, h => by
    obtain ⟨s', t', hs, ht, h'⟩ := h.step
    rw [core_run_succ hs, core_run_succ ht]
    exact core_run n h'

end InStep

/-! ## `START` brings two instances in step (R242) -/

/-- The run that `START` begins with five bytes or more presented is in order. -/
theorem runOk_started {s : State} (h5 : 5 ≤ s.presented.length) :
    RunOk { initPhase s with rc := startedRc s.presented } := by
  obtain ⟨hh, hout⟩ := holdsOutput_empty (o := (initPhase s).ow) rfl rfl rfl rfl
  exact { rc := rcOk_init rfl (show 2 ^ 24 ≤ (0xFFFFFFFF#32).toNat by decide)
          inPos := ⟨Nat.le_refl 5, h5⟩
          lzState := show (0#4).toNat < 12 by decide
          window := hh
          delivered := ⟨rfl, rfl⟩
          total := rfl
          rep0 := fun (h7 : 7 ≤ (0#4).toNat) => absurd h7 (by decide)
          prev := by rw [show Ow.output _ = [] from hout]; rfl
          overshoot := fun _ => Nat.zero_le _ }

/-- The window that `START` leaves stands for the empty output, whatever `WIN` holds. -/
theorem matches_initPhase (s t : State) : (initPhase s).ow.Matches (initPhase t).ow := by
  obtain ⟨left, hleft⟩ := holdsOutput_empty (o := (initPhase s).ow) rfl rfl rfl rfl
  obtain ⟨right, hright⟩ := holdsOutput_empty (o := (initPhase t).ow) rfl rfl rfl rfl
  exact ⟨left, right, rfl, rfl, rfl, hleft.trans hright.symm⟩

/-- The init phase makes two instances the same run but for `RANGE` and `CODE`, which `RC.INIT` sets next. -/
theorem sameRun_initPhase {s t : State} (hin : s.presented = t.presented) (hsize : s.outSize = t.outSize) (r : Rc) :
    SameRun { initPhase s with rc := r } { initPhase t with rc := r } :=
  have hw := matches_initPhase s t
  { runState := rfl
    cause := rfl
    endMarker := rfl
    cf := rfl
    outSize := hsize
    input := hin
    rc := fun _ => rfl
    seq := fun _ => rfl
    wpos := fun _ => hw.wpos
    spos := fun _ => hw.spos
    total := fun _ => hw.total
    sink := fun _ => hw.sink
    output := fun _ => hw.output }

theorem stayInStep_execStart {s t : State} (hs : s.runState ≠ .run) (ht : t.runState ≠ .run)
    (hin : s.presented = t.presented) (hsize : s.outSize = t.outSize) (hse : s.events = []) (hte : t.events = []) :
    StayInStep (execStart s) (execStart t) := by
  rcases execStart_cases hs with ⟨h5, hstart⟩ | ⟨hlt, r, hstart⟩
  · rcases execStart_cases ht with ⟨-, hstart'⟩ | ⟨hlt', -⟩
    · rw [← hin] at hstart'
      exact ⟨_, _, hstart, hstart', sameRun_initPhase hin hsize _, hse, hte, fun _ => runOk_started h5,
        fun _ => matches_initPhase s t⟩
    · rw [hin] at h5
      omega
  · rcases execStart_cases ht with ⟨h5', -⟩ | ⟨-, r', hstart'⟩
    · rw [hin] at hlt
      omega
    · refine ⟨_, _, hstart, hstart', .of_not_run ?_ hse hte (by rw [takeFault_runState]; decide)⟩
      exact (sameRun_initPhase hin hsize r).faulted (faulted_rc _ _ r) (faulted_rc _ _ r')

theorem step_startNext (s : State) : step (startNext s) = execStart { s with events := [] } :=
  (step_write rfl).trans (hostWrite_command (i := .start) rfl _)

/-- Settles O60: `START` brings the two instances in step, and every step keeps them there. -/
theorem runIsAFunctionOfInAndOutSize : Obligations.RunIsAFunctionOfInAndOutSize := by
  intro s t hs ht hin hsize n
  obtain ⟨s', t', hstart, hstart', h⟩ :=
    stayInStep_execStart (s := { s with events := [] }) (t := { t with events := [] }) hs ht hin hsize rfl rfl
  rw [core_run_succ ((step_startNext s).trans hstart), core_run_succ ((step_startNext t).trans hstart')]
  obtain ⟨s'', t'', hrun, hrun', h'⟩ := h.core_run n
  exact ⟨s'', t'', hrun, hrun', h'.same⟩

end Sys2Proof.Machine
end
